-- ==== Sys2Proof/Word.lean ====
section
/-! DEFINITION. The widths the block works with, and the host's bus transaction (00_scope.md R7, 30_encoding.md R99). -/

namespace Sys2Proof

/-- One byte of memory (20_memory.md R60). -/
abbrev Byte := BitVec 8

/-- A 32-bit field: a format tag, a channel count, a frequency in hertz, a result code (10_state.md R21). -/
abbrev Word := BitVec 32

/-- A 64-bit register, operand or memory address (10_state.md R21, 00_scope.md R6). -/
abbrev DWord := BitVec 64

/-- A binary32 value, carried as its pattern (00_scope.md R7). -/
abbrev F32 := BitVec 32

/-- A binary64 value, carried as its pattern (00_scope.md R7). -/
abbrev F64 := BitVec 64

/-- A byte offset into the register block, whose offsets run from 0x0000 to 0x4FFF (10_state.md R21). -/
abbrev Offset := BitVec 16

/-- One bus transaction of the host with the register block: a whole 64-bit register access (30_encoding.md R99). -/
inductive BusAccess where
  /-- The host writes the 64-bit data `v` to the register at offset `off`. -/
  | write (off : Offset) (v : DWord)
  /-- The host reads the register at offset `off`. -/
  | read (off : Offset)
deriving DecidableEq, Repr

end Sys2Proof
end

