-- ==== Sys2Proof/Syntax.lean ====
section
/-! DEFINITION. The instructions: one constructor for each row of spec/opcode_table.json (00_scope.md R3). -/

namespace Sys2Proof

/-- The block's six commands, the host's two register accesses and the two pseudo-commands.
`iv` is the command word's IV bit (false is the source's null instance handle) and `dv` its DV bit (false is the null
descriptor pointer), 30_encoding.md R93. -/
inductive Instr where
  /-- `BQ_INIT iv, dv` (41_biquad_init.md R140). -/
  | bqInit (iv dv : Bool)
  /-- `BQ_REINIT iv, dv` (41_biquad_init.md R141). -/
  | bqReinit (iv dv : Bool)
  /-- `BQ_PROCESS iv` (42_biquad_process.md R160). -/
  | bqProcess (iv : Bool)
  /-- `LPF_INIT iv, dv` (43_lowpass.md R200). -/
  | lpfInit (iv dv : Bool)
  /-- `LPF_REINIT iv, dv` (43_lowpass.md R201). -/
  | lpfReinit (iv dv : Bool)
  /-- `LPF_PROCESS iv` (43_lowpass.md R202). -/
  | lpfProcess (iv : Bool)
  /-- `WR off, v`: a host write of a register (40_register_access.md R120). -/
  | wr (off : Offset) (v : DWord)
  /-- `RD off`: a host read of a register (40_register_access.md R122). -/
  | rd (off : Offset)
  /-- `BQ_CONFIGURE fmt, ch, a0, a1, a2, b0, b1, b2` (40_register_access.md R123); `fmt` and `ch` are the 64-bit data of
  the writes it stands for (30_encoding.md R101), of which the register keeps bits 31:0. -/
  | bqConfigure (fmt ch : DWord) (a0 a1 a2 b0 b1 b2 : F64)
  /-- `LPF_CONFIGURE fmt, ch, fs, fc` (40_register_access.md R124); operands as for `bqConfigure`. -/
  | lpfConfigure (fmt ch fs fc : DWord)
deriving DecidableEq, Repr

end Sys2Proof
end

