-- ==== Sys2Proof/WellFormed.lean ====
section
/-! DEFINITION. Which instructions can be issued at all: the offset of a host access (30_encoding.md R99). -/

namespace Sys2Proof

/-- Only 8-byte-aligned accesses exist (30_encoding.md R99). -/
def Offset.aligned (off : Offset) : Bool := off.toNat % 8 == 0

/-- The block occupies offsets 0x0000 to 0x4FFF (10_state.md R21). -/
def Offset.insideBlock (off : Offset) : Bool := off.toNat < 0x5000

/-- An offset at which an access can be issued (40_register_access.md R120: any other "cannot be issued"). -/
def Offset.issuable (off : Offset) : Bool := off.aligned && off.insideBlock

/-- The offset of a bus transaction. -/
def BusAccess.offset : BusAccess → Offset
  | .write off _ => off
  | .read off => off

/-- Well-formedness: a host access names an issuable offset; every bit and every data operand is free
(30_encoding.md R93, R94, 40_register_access.md R121, R123, R124: "No value is illegal", "No validation"). -/
def Instr.wellFormed : Instr → Bool
  | .bqInit _ _ => true
  | .bqReinit _ _ => true
  | .bqProcess _ => true
  | .lpfInit _ _ => true
  | .lpfReinit _ _ => true
  | .lpfProcess _ => true
  | .wr off _ => off.issuable
  | .rd off => off.issuable
  | .bqConfigure _ _ _ _ _ _ _ _ => true
  | .lpfConfigure _ _ _ _ => true

end Sys2Proof
end

