-- ==== Sys2Proof/Decode.lean ====
section
/-! DEFINITION. The command decoder, total on every 64-bit value and rejecting by name (30_encoding.md R96, R97), the
decoding of a bus transaction (R99), and the encoder (R91, R92, R100, R101). -/

namespace Sys2Proof

/-- Why a value written to CMD is `ILLEGAL` (30_encoding.md R97). -/
inductive DecodeError where
  /-- `d[63:32]` is not zero. -/
  | highHalfNonzero
  /-- A must-be-zero field, `w[31:10]` or `w[7:4]`, is not zero. -/
  | zeroFieldNonzero
  /-- `DV = 1` in format `P`. -/
  | descriptorBitInFormatP
  /-- `OPC` is 0x0, 0x4 or 0x8 to 0xF. -/
  | reservedOpcode
deriving DecidableEq, Repr

/-- `IV`, bit 8 of the command word (30_encoding.md R91). -/
def cmdIv (w : Word) : Bool := w.getLsbD 8

/-- `DV`, bit 9 of the command word (30_encoding.md R91). -/
def cmdDv (w : Word) : Bool := w.getLsbD 9

/-- `OPC`, bits 3:0 of the command word (30_encoding.md R91). -/
def cmdOpc (w : Word) : BitVec 4 := w.extractLsb' 0 4

/-- The opcode map on a word whose must-be-zero fields are zero (30_encoding.md R92, R96). -/
def decodeOpcode (w : Word) : Except DecodeError Instr :=
  match (cmdOpc w).toNat with
  | 0x1 => .ok (.bqInit (cmdIv w) (cmdDv w))
  | 0x2 => .ok (.bqReinit (cmdIv w) (cmdDv w))
  | 0x3 => if cmdDv w then .error .descriptorBitInFormatP else .ok (.bqProcess (cmdIv w))
  | 0x5 => .ok (.lpfInit (cmdIv w) (cmdDv w))
  | 0x6 => .ok (.lpfReinit (cmdIv w) (cmdDv w))
  | 0x7 => if cmdDv w then .error .descriptorBitInFormatP else .ok (.lpfProcess (cmdIv w))
  | _ => .error .reservedOpcode

/-- The decoder on the command word `w = d[31:0]` (30_encoding.md R96). -/
def decodeWord (w : Word) : Except DecodeError Instr :=
  if w.extractLsb' 10 22 ≠ 0#22 ∨ w.extractLsb' 4 4 ≠ 0#4 then .error .zeroFieldNonzero else decodeOpcode w

/-- The decoder of 30_encoding.md R96, on the 64-bit data of a write to CMD. -/
def decode (d : DWord) : Except DecodeError Instr :=
  if d.extractLsb' 32 32 ≠ 0#32 then .error .highHalfNonzero else decodeWord (d.extractLsb' 0 32)

/-- The instruction a bus transaction is: a write to CMD (offset 0x000) whose data decode is that command, any other
write is `WR`, a read is `RD` (30_encoding.md R90, R99; log 11). -/
def decodeAccess : BusAccess → Instr
  | .write off v =>
    if off = 0#16 then
      match decode v with
      | .ok i => i
      | .error _ => .wr off v
    else .wr off v
  | .read off => .rd off

/-- The host's question, on a table row's word: bit 0 of `w` is bit 0 of the command word (30_encoding.md R90: one
length, 32 bits; the write data are 64 bits, the bits above `nbits` zero). -/
def decodeTableWord (nbits w : Nat) : Option Instr :=
  match decode (BitVec.ofNat 64 (w % 2 ^ nbits)) with
  | .ok i => some i
  | .error _ => none

/-! ### The encoder -/

/-- A command word from its fields (30_encoding.md R91, R100). -/
def cmdWord (opc : Nat) (iv dv : Bool) : DWord :=
  BitVec.ofNat 64 (opc + (if iv then 0x100 else 0) + (if dv then 0x200 else 0))

/-- A write to CMD (30_encoding.md R90). -/
def cmdAccess (opc : Nat) (iv dv : Bool) : List BusAccess := [.write 0x000#16 (cmdWord opc iv dv)]

/-- The bus transactions an instruction stands for (30_encoding.md R92, R99, R100, R101). -/
def encode : Instr → List BusAccess
  | .bqInit iv dv => cmdAccess 0x1 iv dv
  | .bqReinit iv dv => cmdAccess 0x2 iv dv
  | .bqProcess iv => cmdAccess 0x3 iv false
  | .lpfInit iv dv => cmdAccess 0x5 iv dv
  | .lpfReinit iv dv => cmdAccess 0x6 iv dv
  | .lpfProcess iv => cmdAccess 0x7 iv false
  | .wr off v => [.write off v]
  | .rd off => [.read off]
  | .bqConfigure fmt ch a0 a1 a2 b0 b1 b2 =>
    [.write 0x040#16 fmt, .write 0x048#16 ch, .write 0x050#16 a0, .write 0x058#16 a1,
      .write 0x060#16 a2, .write 0x068#16 b0, .write 0x070#16 b1, .write 0x078#16 b2]
  | .lpfConfigure fmt ch fs fc =>
    [.write 0x080#16 fmt, .write 0x088#16 ch, .write 0x090#16 fs, .write 0x098#16 fc]

end Sys2Proof
end

