-- ==== Sys2Proof/Config.lean ====
section
/-! DEFINITION. What an implementation fixes, the spec's constants, the free values, and the shape of the numerics
record (00_scope.md R6, R11). A free value is an opaque constant without a body: nothing in Lean can evaluate it. -/

namespace Sys2Proof

namespace Config

/-! ### Constants of 00_scope.md R6 -/

/-- `SUCCESS` = 0 (00_scope.md R6, 60_exceptions.md R230). -/
def success : Word := 0#32

/-- `INVALID_ARGUMENT` = 1 (00_scope.md R6, 60_exceptions.md R230). -/
def invalidArgument : Word := 1#32

/-- `FMT_S16` = 2 (10_state.md R29). -/
def fmtS16 : Word := 2#32

/-- `FMT_F32` = 5 (10_state.md R29). -/
def fmtF32 : Word := 5#32

/-- DESIGN CHOICE (log 4): the number of elements `State.reset` gives the delay line. MAX_CHANNELS is OPEN, 1 to 512
(00_scope.md R6); the machine reads it off the length of the delay line, so a statement about every state is about every
MAX_CHANNELS. -/
def resetMaxChannels : Nat := 8

/-- `BASE`, where the platform puts the register block (00_scope.md R6, OPEN; log 16). -/
opaque base : DWord

/-- The bus address of the register at an offset (00_scope.md R6: BASE is "the origin of the offsets"). -/
def busAddress (off : Offset) : DWord := base + off.setWidth 64

/-! ### Free values (log 5 to log 9) -/

/-- The bits of the NaN that a binary64 operation gives, for each draw (00_scope.md R10, U6; log 5). -/
opaque nanBits64 : Nat → F64

/-- The bits of the NaN that a conversion to binary32 gives, for each draw (00_scope.md R10, U6; log 5). -/
opaque nanBits32 : Nat → F32

/-- `I16_OVF`: the 16-bit sample written when the scaled output is out of range, for each draw
(42_biquad_process.md R173, U1; log 6). -/
opaque i16Ovf : Nat → BitVec 16

/-- Byte `i` of the output range after a command on partially overlapping buffers (20_memory.md R68, U3; log 7). -/
opaque overlapByte : Nat → Nat → Byte

/-- Delay-line element `j` of a channel after a command on unsupported buffers (20_memory.md R67, R68, U3, U4; log 7,
log 8). -/
opaque overlapElem : Nat → Nat → Nat → F32

/-- The bytes that a command on a buffer running past the top of the address space stores, and where
(20_memory.md R67, U4; log 8). -/
opaque pastTopStores : Nat → List (Nat × Byte)

/-- The sine function before it is held to P1 to P4 (43_lowpass.md R206, U7; log 9). -/
opaque rawSin : F64 → F64

/-- The cosine function before it is held to P1 to P4 (43_lowpass.md R206, U7; log 9). -/
opaque rawCos : F64 → F64

end Config

/-- The numerics record of 00_scope.md R11: the primitives of R10 and the functions SIN64 and COS64. A natural number in
front of the operands is the draw from which a NaN result takes its free bits (log 5). -/
structure Numerics where
  fadd64 : Nat → F64 → F64 → F64
  fsub64 : Nat → F64 → F64 → F64
  fmul64 : Nat → F64 → F64 → F64
  fdiv64 : Nat → F64 → F64 → F64
  fneg64 : F64 → F64
  feq64 : F64 → F64 → Bool
  f32ToF64 : Nat → F32 → F64
  f64ToF32 : Nat → F64 → F32
  i16ToF64 : BitVec 16 → F64
  u32ToF64 : Word → F64
  truncZ : F64 → Int
  sin64 : F64 → F64
  cos64 : F64 → F64

end Sys2Proof
end

