-- ==== Sys2Proof/Machine/State.lean ====
section
/-! DEFINITION. The state of one block, its memory and the host's pending events, as plain data (10_state.md R20, R21);
the reset state (10_state.md R37, 70_reset_and_hazards.md R260); the reasons a step can stop. -/

namespace Sys2Proof.Machine

/-- One channel of the delay line: the last two inputs and the last two outputs, each f32 (10_state.md R32). -/
structure Chan where
  x1 : F32
  x2 : F32
  y1 : F32
  y2 : F32
deriving DecidableEq, Repr

/-- A channel's history after a zero-clear (10_state.md R34). -/
def Chan.zero : Chan := { x1 := 0#32, x2 := 0#32, y1 := 0#32, y2 := 0#32 }

/-- A biquad descriptor value: the registers `CD_*`, or the one a low-pass command derives
(10_state.md R24, 43_lowpass.md R203). -/
structure BqDescr where
  fmt : Word
  ch : Word
  a0 : F64
  a1 : F64
  a2 : F64
  b0 : F64
  b1 : F64
  b2 : F64
deriving DecidableEq, Repr

/-- A low-pass configuration: the registers `LD_*` or their copy `LP_*` (10_state.md R25, R35). -/
structure LpConfig where
  fmt : Word
  ch : Word
  fs : Word
  fc : Word
deriving DecidableEq, Repr

/-- The biquad registers `BQ_*` but for the delay line (10_state.md R30, R31, R28). -/
structure BqRegs where
  fmt : Word
  ch : Word
  /-- `BQ_PT`, the source's isPassthrough. -/
  pt : Bool
  /-- a0 as the descriptor gave it, never normalised. -/
  a0 : F64
  a1 : F64
  a2 : F64
  b0 : F64
  b1 : F64
  b2 : F64
deriving DecidableEq, Repr

/-- `CD_*` after reset (10_state.md R37). -/
def BqDescr.zero : BqDescr :=
  { fmt := 0#32, ch := 0#32, a0 := 0#64, a1 := 0#64, a2 := 0#64, b0 := 0#64, b1 := 0#64, b2 := 0#64 }

/-- `LD_*` after reset, `LP_*` after reset or a zero-clear (10_state.md R34, R37). -/
def LpConfig.zero : LpConfig := { fmt := 0#32, ch := 0#32, fs := 0#32, fc := 0#32 }

/-- `BQ_*` after reset or a zero-clear (10_state.md R34, R37). -/
def BqRegs.zero : BqRegs :=
  { fmt := 0#32, ch := 0#32, pt := false,
    a0 := 0#64, a1 := 0#64, a2 := 0#64, b0 := 0#64, b1 := 0#64, b2 := 0#64 }

/-- Memory: the bytes that differ from what an unlisted address reads as, by rising address (20_memory.md R60). -/
abbrev Memory := List Host.Cell

/-- What the host does between commands (00_scope.md R12, R6; log 1, log 13). -/
inductive HostEvent where
  /-- A register access (30_encoding.md R99). -/
  | bus (a : BusAccess)
  /-- The host stores one byte in memory (10_state.md R38, 20_memory.md R70). -/
  | memStore (a : DWord) (b : Byte)
  /-- The host loads one byte from memory (10_state.md R38, 20_memory.md R70). -/
  | memLoad (a : DWord)
  /-- The platform resets the block (70_reset_and_hazards.md R260, R261). -/
  | reset
deriving DecidableEq, Repr

/-- The registers of the block by name (10_state.md R21). -/
inductive Reg where
  | cmd | status | argOut | argIn | argCount
  | cdFmt | cdCh | cdA0 | cdA1 | cdA2 | cdB0 | cdB1 | cdB2
  | ldFmt | ldCh | ldFs | ldFc
  | bqFmt | bqCh | bqPt | bqA0 | bqA1 | bqA2 | bqB0 | bqB1 | bqB2
  | lpFmt | lpCh | lpFs | lpFc
  | x1 (c : Nat) | x2 (c : Nat) | y1 (c : Nat) | y2 (c : Nat)
deriving DecidableEq, Repr

/-- The whole state (10_state.md R20), and the model's own fields `host`, `rdData` and `draws`. `CMD` is "not a storage
register" (R37) and has no field. -/
structure State where
  /-- `STATUS`, RESULT in bits 31:0. -/
  status : Word
  /-- `ARG_OUT`. -/
  argOut : DWord
  /-- `ARG_IN`. -/
  argIn : DWord
  /-- `ARG_COUNT`. -/
  argCount : DWord
  /-- `CD_*`. -/
  cd : BqDescr
  /-- `LD_*`. -/
  ld : LpConfig
  /-- `BQ_*`. -/
  inst : BqRegs
  /-- `X1[c]`, `X2[c]`, `Y1[c]`, `Y2[c]`; its length is MAX_CHANNELS (log 4). -/
  delay : List Chan
  /-- `LP_*`. -/
  lp : LpConfig
  /-- The memory space. -/
  mem : Memory
  /-- The host's pending events, the next one first (log 1). -/
  host : List HostEvent
  /-- The data the bus last returned to the host (log 2). -/
  rdData : DWord
  /-- How many free values have been drawn (log 5). -/
  draws : Nat
deriving DecidableEq, Repr

/-- Why the machine stops with a fault: it never does. "No other fault exists", and the one failure class,
INVALID_ARGUMENT, is a result code in an ordinary next state (60_exceptions.md R231, R237). -/
inductive Fault where
deriving DecidableEq, Repr

/-- Why the machine gives no meaning. -/
inductive Refusal where
  /-- Raised by `exec` for an instruction without a meaning; no arm does so. Safe. -/
  | notModelled (mnemonic : String)
  /-- Raised by `WR` and `RD` at an offset that is not a multiple of 8 or lies outside the block: the access "cannot be
  issued" (40_register_access.md R120, 30_encoding.md R99; log 10). Safe. -/
  | accessCannotBeIssued (off : Offset)
deriving DecidableEq, Repr

/-- The block right after reset: "every register of rule R21 holds zero" (10_state.md R37, 70_reset_and_hazards.md R260);
no byte of memory listed (log 3), no host event pending (log 1). -/
def State.reset : State :=
  { status := 0#32, argOut := 0#64, argIn := 0#64, argCount := 0#64,
    cd := BqDescr.zero, ld := LpConfig.zero, inst := BqRegs.zero,
    delay := List.replicate Config.resetMaxChannels Chan.zero, lp := LpConfig.zero,
    mem := [], host := [], rdData := 0#64, draws := 0 }

end Sys2Proof.Machine
end

