-- ==== Sys2Proof/Machine/Ops.lean ====
section
/-! DEFINITION. The named operations over memory and registers: memory bytes and words, the register block, completing
and failing a command, the zero-clears, reset, and the host's own memory accesses. -/

namespace Sys2Proof.Machine

/-! ### Memory (20_memory.md R60, R62) -/

/-- DESIGN CHOICE (log 3): what a byte that nothing has written reads as. -/
def initByte : Byte := 0#8

/-- The byte at an address. -/
def readByte : Memory → Nat → Byte
  | [], _ => initByte
  | (k, b) :: m, a => if k = a then b else readByte m a

/-- The listing with `b` at `a`, in its place. -/
def putCell : Memory → Nat → Byte → Memory
  | [], a, b => [(a, b)]
  | (k, c) :: m, a, b =>
    if a < k then (a, b) :: (k, c) :: m
    else if a = k then (a, b) :: m
    else (k, c) :: putCell m a b

/-- The listing without an entry at `a`. -/
def dropCell : Memory → Nat → Memory
  | [], _ => []
  | (k, c) :: m, a => if k = a then dropCell m a else (k, c) :: dropCell m a

/-- A byte stored at an address; there is no byte at 2^64 or above (R60). -/
def writeByte (m : Memory) (a : Nat) (b : Byte) : Memory :=
  if a < 2 ^ 64 then
    if b = initByte then dropCell m a else putCell m a b
  else m

/-- The canonical form: addresses strictly rising, inside the space, no entry equal to what an unlisted address reads
as. -/
abbrev Memory.wf (m : Memory) : Prop :=
  m.Pairwise (fun p q => p.1 < q.1) ∧ ∀ p ∈ m, p.1 < 2 ^ 64 ∧ p.2 ≠ initByte

/-- `MemRead(a, 2)`, little-endian (00_scope.md R8, 20_memory.md R62). -/
def read16 (m : Memory) (a : Nat) : BitVec 16 := readByte m (a + 1) ++ readByte m a

/-- `MemRead(a, 4)`, little-endian. -/
def read32 (m : Memory) (a : Nat) : BitVec 32 := read16 m (a + 2) ++ read16 m a

/-- `MemWrite(a, 2, v)`, little-endian. -/
def write16 (m : Memory) (a : Nat) (v : BitVec 16) : Memory :=
  writeByte (writeByte m a (v.extractLsb' 0 8)) (a + 1) (v.extractLsb' 8 8)

/-- `MemWrite(a, 4, v)`, little-endian. -/
def write32 (m : Memory) (a : Nat) (v : BitVec 32) : Memory :=
  write16 (write16 m a (v.extractLsb' 0 16)) (a + 2) (v.extractLsb' 16 16)

/-- Bytes `i` to `i + n - 1` copied from `src` to `dst`, ascending (42_biquad_process.md R164). -/
def copyBytes (src dst : Nat) : Nat → Nat → Memory → Memory
  | 0, _, m => m
  | n + 1, i, m => copyBytes src dst n (i + 1) (writeByte m (dst + i) (readByte m (src + i)))

/-- Bytes `i` to `i + n - 1` of a range filled from a function of the byte's index. -/
def fillBytes (f : Nat → Byte) (dst : Nat) : Nat → Nat → Memory → Memory
  | 0, _, m => m
  | n + 1, i, m => fillBytes f dst n (i + 1) (writeByte m (dst + i) (f i))

/-- Single bytes stored one after another. -/
def storeCells : List (Nat × Byte) → Memory → Memory
  | [], m => m
  | (a, b) :: l, m => storeCells l (writeByte m a b)

/-! ### Completing a command, and its one failure (00_scope.md R9, 60_exceptions.md R230, R235) -/

/-- `complete(code)`: "writes `code` to `STATUS.RESULT` and nothing else". -/
def complete (code : Word) (s : State) : State := { s with status := code }

/-- `complete(SUCCESS)`. -/
def succeed (s : State) : State := complete Config.success s

/-- `raise InvalidArgument`, which is all there is of taking an exception: "Nothing is saved, no mode changes, no mask
changes, control goes nowhere" (60_exceptions.md R235). There is no return from it and nothing to restore (R236): the next
command runs on the state this leaves. -/
def raiseInvalid (s : State) : State := complete Config.invalidArgument s

/-! ### The delay line (10_state.md R32) -/

/-- MAX_CHANNELS (log 4). -/
def State.maxChannels (s : State) : Nat := s.delay.length

/-- The history of channel `c`; past the end, which no reachable state asks for, a zero history (log 19). -/
def State.chan (s : State) (c : Nat) : Chan := s.delay.getD c Chan.zero

/-! ### The zero-clears (10_state.md R34) -/

/-- `zero_instance()`. -/
def zeroInstance (s : State) : State :=
  { s with inst := BqRegs.zero, delay := List.replicate s.maxChannels Chan.zero }

/-- `zero_context()`. -/
def zeroContext (s : State) : State := { zeroInstance s with lp := LpConfig.zero }

/-- Reset of the block: every register to zero, memory untouched (70_reset_and_hazards.md R260, R261). The model's own
fields `rdData` and `draws`, and the host's further events, stay (log 13). -/
def resetBlock (s : State) : State :=
  { zeroContext s with
    status := 0#32, argOut := 0#64, argIn := 0#64, argCount := 0#64, cd := BqDescr.zero, ld := LpConfig.zero }

/-! ### The register block (10_state.md R21) -/

/-- The registers that stand alone, by offset. -/
def regTable : List (Offset × Reg) :=
  [(0x000#16, .cmd), (0x008#16, .status), (0x010#16, .argOut), (0x018#16, .argIn), (0x020#16, .argCount)] ++
  [(0x040#16, .cdFmt), (0x048#16, .cdCh), (0x050#16, .cdA0), (0x058#16, .cdA1), (0x060#16, .cdA2),
    (0x068#16, .cdB0), (0x070#16, .cdB1), (0x078#16, .cdB2)] ++
  [(0x080#16, .ldFmt), (0x088#16, .ldCh), (0x090#16, .ldFs), (0x098#16, .ldFc)] ++
  [(0x100#16, .bqFmt), (0x108#16, .bqCh), (0x110#16, .bqPt), (0x118#16, .bqA0), (0x120#16, .bqA1),
    (0x128#16, .bqA2), (0x130#16, .bqB0), (0x138#16, .bqB1), (0x140#16, .bqB2)] ++
  [(0x180#16, .lpFmt), (0x188#16, .lpCh), (0x190#16, .lpFs), (0x198#16, .lpFc)]

/-- The register files at 0x1000, 0x2000, 0x3000 and 0x4000, element `c` at `+ 8c` for `c < MAX_CHANNELS`. -/
def delayRegAt (maxCh : Nat) (off : Offset) : Option Reg :=
  let c := off.toNat % 0x1000 / 8
  if off.toNat % 8 = 0 ∧ c < maxCh then
    match off.toNat / 0x1000 with
    | 1 => some (.x1 c)
    | 2 => some (.x2 c)
    | 3 => some (.y1 c)
    | 4 => some (.y2 c)
    | _ => none
  else none

/-- The register at an offset; none where the offset is unmapped. -/
def regAt (maxCh : Nat) (off : Offset) : Option Reg :=
  match regTable.lookup off with
  | some r => some r
  | none => delayRegAt maxCh off

/-- What a host read of a register returns: its field, zero-extended (40_register_access.md R122). -/
def readReg (s : State) : Reg → DWord
  | .cmd => 0#64
  | .status => s.status.setWidth 64
  | .argOut => s.argOut
  | .argIn => s.argIn
  | .argCount => s.argCount
  | .cdFmt => s.cd.fmt.setWidth 64
  | .cdCh => s.cd.ch.setWidth 64
  | .cdA0 => s.cd.a0
  | .cdA1 => s.cd.a1
  | .cdA2 => s.cd.a2
  | .cdB0 => s.cd.b0
  | .cdB1 => s.cd.b1
  | .cdB2 => s.cd.b2
  | .ldFmt => s.ld.fmt.setWidth 64
  | .ldCh => s.ld.ch.setWidth 64
  | .ldFs => s.ld.fs.setWidth 64
  | .ldFc => s.ld.fc.setWidth 64
  | .bqFmt => s.inst.fmt.setWidth 64
  | .bqCh => s.inst.ch.setWidth 64
  | .bqPt => (BitVec.ofBool s.inst.pt).setWidth 64
  | .bqA0 => s.inst.a0
  | .bqA1 => s.inst.a1
  | .bqA2 => s.inst.a2
  | .bqB0 => s.inst.b0
  | .bqB1 => s.inst.b1
  | .bqB2 => s.inst.b2
  | .lpFmt => s.lp.fmt.setWidth 64
  | .lpCh => s.lp.ch.setWidth 64
  | .lpFs => s.lp.fs.setWidth 64
  | .lpFc => s.lp.fc.setWidth 64
  | .x1 c => (s.chan c).x1.setWidth 64
  | .x2 c => (s.chan c).x2.setWidth 64
  | .y1 c => (s.chan c).y1.setWidth 64
  | .y2 c => (s.chan c).y2.setWidth 64

/-- What a host write of a register other than CMD does: an RW register takes the bits of its field, a read-only one
ignores the write (10_state.md R21, 40_register_access.md R120, R121). -/
def writeReg (v : DWord) (s : State) : Reg → State
  | .argOut => { s with argOut := v }
  | .argIn => { s with argIn := v }
  | .argCount => { s with argCount := v }
  | .cdFmt => { s with cd := { s.cd with fmt := v.setWidth 32 } }
  | .cdCh => { s with cd := { s.cd with ch := v.setWidth 32 } }
  | .cdA0 => { s with cd := { s.cd with a0 := v } }
  | .cdA1 => { s with cd := { s.cd with a1 := v } }
  | .cdA2 => { s with cd := { s.cd with a2 := v } }
  | .cdB0 => { s with cd := { s.cd with b0 := v } }
  | .cdB1 => { s with cd := { s.cd with b1 := v } }
  | .cdB2 => { s with cd := { s.cd with b2 := v } }
  | .ldFmt => { s with ld := { s.ld with fmt := v.setWidth 32 } }
  | .ldCh => { s with ld := { s.ld with ch := v.setWidth 32 } }
  | .ldFs => { s with ld := { s.ld with fs := v.setWidth 32 } }
  | .ldFc => { s with ld := { s.ld with fc := v.setWidth 32 } }
  | .cmd | .status => s
  | .bqFmt | .bqCh | .bqPt | .bqA0 | .bqA1 | .bqA2 | .bqB0 | .bqB1 | .bqB2 => s
  | .lpFmt | .lpCh | .lpFs | .lpFc => s
  | .x1 _ | .x2 _ | .y1 _ | .y2 _ => s

/-- A host write at an offset other than CMD's; an unmapped offset ignores it (10_state.md R21). -/
def writeOffset (off : Offset) (v : DWord) (s : State) : State :=
  match regAt s.maxChannels off with
  | some r => writeReg v s r
  | none => s

/-- A host read at an offset; an unmapped offset reads as zero (10_state.md R21). -/
def readOffset (off : Offset) (s : State) : DWord :=
  match regAt s.maxChannels off with
  | some r => readReg s r
  | none => 0#64

/-- The value of a read handed to the host (40_register_access.md R122; log 2). -/
def returnData (v : DWord) (s : State) : State := { s with rdData := v }

/-! ### The host's own events (log 13) -/

/-- The host's next event taken off the list. -/
def popHost (rest : List HostEvent) (s : State) : State := { s with host := rest }

/-- The host stores a byte in memory (10_state.md R38, 20_memory.md R70). -/
def hostStore (a : DWord) (b : Byte) (s : State) : State := { s with mem := writeByte s.mem a.toNat b }

/-- The host loads a byte from memory (10_state.md R38, 20_memory.md R70). -/
def hostLoad (a : DWord) (s : State) : State := returnData ((readByte s.mem a.toNat).setWidth 64) s

end Sys2Proof.Machine
end

