-- ==== Sys2Proof/Machine/Float.lean ====
section
/-! DEFINITION. The floating-point primitives of 00_scope.md R10: binary64 and binary32, nearest even, gradual underflow,
no flag. A finite pattern stands for a whole number of units, the unit being the format's smallest subnormal, so every
result is computed exactly as a quotient of naturals and rounded once. -/

namespace Sys2Proof.Machine

/-! ### Patterns without their sign, for a format of `fb` fraction bits -/

/-- The magnitude of a finite pattern, in units of the smallest subnormal. -/
def magOf (fb p : Nat) : Nat :=
  if p / 2 ^ fb = 0 then p else (2 ^ fb + p % 2 ^ fb) * 2 ^ (p / 2 ^ fb - 1)

/-- `n / d` to the nearest natural, ties to even. -/
def nearestEven (n d : Nat) : Nat :=
  let q := n / d
  let r := n % d
  if 2 * r < d then q else if d < 2 * r then q + 1 else q + q % 2

/-- `n / d` rounded down. -/
def roundDown (n d : Nat) : Nat := n / d

/-- `n / d` rounded up. -/
def roundUp (n d : Nat) : Nat := (n + d - 1) / d

/-- The pattern of `n / d` units, rounded by `r` on the grid of its binade; `top` (the infinity) on overflow. A mantissa
that rounds up to the next binade carries into the exponent field by itself. -/
def patternOf (r : Nat → Nat → Nat) (fb top n d : Nat) : Nat :=
  let u := n / d
  let k := if u < 2 ^ (fb + 1) then 0 else u.log2 - fb
  min (k * 2 ^ fb + r n (d * 2 ^ k)) top

/-! ### Binary64 -/

/-- The pattern of +infinity in binary64. -/
def inf64 : Nat := 0x7FF0000000000000

/-- The pattern of 1.0 in binary64. -/
def one64 : Nat := 0x3FF0000000000000

/-- The number of units in 1.0: the smallest binary64 subnormal is 2^-1074. -/
def unit64 : Nat := 2 ^ 1074

/-- The sign bit. -/
def sign64 (a : F64) : Bool := a.msb

/-- The pattern without its sign. -/
def pat64 (a : F64) : Nat := a.toNat % 2 ^ 63

def isNan64 (a : F64) : Bool := decide (inf64 < pat64 a)

def isInf64 (a : F64) : Bool := decide (pat64 a = inf64)

def isFinite64 (a : F64) : Bool := decide (pat64 a < inf64)

def isZero64 (a : F64) : Bool := decide (pat64 a = 0)

/-- A binary64 from its sign and the rest of its pattern. -/
def pack64 (s : Bool) (p : Nat) : F64 := BitVec.ofNat 64 (if s then 2 ^ 63 + p else p)

/-- The magnitude of a finite binary64 in units of 2^-1074. -/
def mag64 (a : F64) : Nat := magOf 52 (pat64 a)

/-- The value of a finite binary64 in units of 2^-1074. -/
def val64 (a : F64) : Int := if sign64 a then -(mag64 a : Int) else (mag64 a : Int)

/-- `n / d` units of 2^-1074, rounded to nearest even, with sign `s`. -/
def round64 (s : Bool) (n d : Nat) : F64 := pack64 s (patternOf nearestEven 52 inf64 n d)

/-- A NaN whose sign and payload are those of `b` wherever they can be: every NaN pattern is one of these
(00_scope.md R10, U6). -/
def forceNan64 (b : F64) : F64 :=
  let q := b ||| 0x7FF0000000000000#64
  if isNan64 q then q else q ||| 0x0008000000000000#64

/-- The free NaN of a draw (log 5). -/
def freeNan64 (k : Nat) : F64 := forceNan64 (Config.nanBits64 k)

/-! ### Binary32 -/

/-- The pattern of +infinity in binary32. -/
def inf32 : Nat := 0x7F800000

def sign32 (a : F32) : Bool := a.msb

def pat32 (a : F32) : Nat := a.toNat % 2 ^ 31

def isNan32 (a : F32) : Bool := decide (inf32 < pat32 a)

def isInf32 (a : F32) : Bool := decide (pat32 a = inf32)

def pack32 (s : Bool) (p : Nat) : F32 := BitVec.ofNat 32 (if s then 2 ^ 31 + p else p)

/-- The magnitude of a finite binary32 in units of 2^-149. -/
def mag32 (a : F32) : Nat := magOf 23 (pat32 a)

/-- How many binary64 units make one binary32 unit: 2^(1074 - 149). -/
def unit32 : Nat := 2 ^ 925

def forceNan32 (b : F32) : F32 :=
  let q := b ||| 0x7F800000#32
  if isNan32 q then q else q ||| 0x00400000#32

def freeNan32 (k : Nat) : F32 := forceNan32 (Config.nanBits32 k)

/-! ### The primitives of 00_scope.md R10 -/

/-- `fneg64`: flips the sign bit. -/
def ieeeNeg (a : F64) : F64 := a ^^^ 0x8000000000000000#64

/-- `feq64`: IEEE equality, true for +0 and -0, false when either is a NaN. -/
def ieeeEq (a b : F64) : Bool :=
  !isNan64 a && !isNan64 b && (decide (a = b) || (isZero64 a && isZero64 b))

/-- `fadd64`: an exact zero sum is +0.0 unless both operands are negative zeros or negative (nearest-even rule). -/
def ieeeAdd (k : Nat) (a b : F64) : F64 :=
  if isNan64 a || isNan64 b then freeNan64 k
  else if isInf64 a then
    if isInf64 b && sign64 a != sign64 b then freeNan64 k else a
  else if isInf64 b then b
  else
    let v := val64 a + val64 b
    round64 (if v = 0 then sign64 a && sign64 b else decide (v < 0)) v.natAbs 1

/-- `fsub64`: the sum with the sign of the second operand flipped. -/
def ieeeSub (k : Nat) (a b : F64) : F64 := ieeeAdd k a (ieeeNeg b)

/-- `fmul64`: the magnitudes are in units of 2^-1074, so their product has one unit too many. -/
def ieeeMul (k : Nat) (a b : F64) : F64 :=
  let s := sign64 a != sign64 b
  if isNan64 a || isNan64 b then freeNan64 k
  else if isInf64 a || isInf64 b then
    if isZero64 a || isZero64 b then freeNan64 k else pack64 s inf64
  else round64 s (mag64 a * mag64 b) unit64

/-- `fdiv64`: 0/0 and inf/inf are NaNs, a nonzero by a zero is an infinity. -/
def ieeeDiv (k : Nat) (a b : F64) : F64 :=
  let s := sign64 a != sign64 b
  if isNan64 a || isNan64 b then freeNan64 k
  else if isInf64 a then
    if isInf64 b then freeNan64 k else pack64 s inf64
  else if isInf64 b then pack64 s 0
  else if isZero64 b then
    if isZero64 a then freeNan64 k else pack64 s inf64
  else round64 s (mag64 a * unit64) (mag64 b)

/-- `f32_to_f64`: exact; a NaN gives some NaN (log 12). -/
def ieeeF32ToF64 (k : Nat) (a : F32) : F64 :=
  if isNan32 a then freeNan64 k
  else if isInf32 a then pack64 (sign32 a) inf64
  else round64 (sign32 a) (mag32 a * unit32) 1

/-- `f64_to_f32`: nearest even, overflow to an infinity, the sign of zero kept, a NaN gives some NaN. -/
def ieeeF64ToF32 (k : Nat) (a : F64) : F32 :=
  if isNan64 a then freeNan32 k
  else if isInf64 a then pack32 (sign64 a) inf32
  else pack32 (sign64 a) (patternOf nearestEven 23 inf32 (mag64 a) unit32)

/-- `i16_to_f64`: exact, from a two's-complement 16-bit integer. -/
def ieeeI16ToF64 (s : BitVec 16) : F64 := round64 s.msb (s.toInt.natAbs * unit64) 1

/-- `u32_to_f64`: exact. -/
def ieeeU32ToF64 (u : Word) : F64 := round64 false (u.toNat * unit64) 1

/-- `trunc_Z` of a finite value: the fraction dropped, toward zero. -/
def ieeeTruncZ (a : F64) : Int :=
  if sign64 a then -((mag64 a / unit64 : Nat) : Int) else ((mag64 a / unit64 : Nat) : Int)

end Sys2Proof.Machine
end

