-- ==== Sys2Proof/Machine/Trig.lean ====
section
/-! DEFINITION. SIN64 and COS64 (43_lowpass.md R206): two functions of which nothing is fixed but P1 to P5. Each is an
opaque function held inside the bracket that P4 gives: the two binary64 values around the exact real value, which is
enclosed by exact fixed-point arithmetic. UNVERIFIED (log 9): the enclosure is checked by tests, not proved against the
real sine. -/

namespace Sys2Proof.Machine

/-- The fraction bits of the fixed-point numbers below. -/
def fixBits : Nat := 1280

/-- The integer part of (π/2)·2^1280. -/
def halfPiFix : Nat :=
  0x1921fb54442d18469898cc51701b839a252049c1114cf98e804177d4c76273644a29410f31c6809bbdf2a33679a748636605614dbe4be286e9fc26adadaa3848bc90b6aecc4bcfd8de89885d34c6fdad617feb96de80d6fdbdc70d7f6b5133f4b5d3e4822f8963fcc9250cca3d9c8b67b8400f97142c77e0b31b4906c38aba734d22c7f51fa499ebf06caba47b9475b2c38c5e6ac410aa5773daa520ee12d2cda

/-- The alternating series t - t·r²/((j+1)(j+2)) + ..., in fixed point, with so many terms. -/
def altSeries (r2 : Nat) : Nat → Nat → Nat → Nat
  | 0, _, _ => 0
  | n + 1, j, t => t - altSeries r2 n (j + 2) (t * r2 / 2 ^ fixBits / ((j + 1) * (j + 2)))

/-- The sine of r in [0, π/2], in fixed point. -/
def sinFix (r : Nat) : Nat := altSeries (r * r / 2 ^ fixBits) 120 1 r

/-- The cosine of r in [0, π/2], in fixed point. -/
def cosFix (r : Nat) : Nat := altSeries (r * r / 2 ^ fixBits) 120 0 (2 ^ fixBits)

/-- A sign and the least and greatest magnitude pattern a result may have. -/
structure Bracket where
  sign : Bool
  lo : Nat
  hi : Nat
deriving DecidableEq, Repr

/-- The binary64 patterns around the fixed-point value `v`, known to within `err` units of 2^-1280; never above 1.0
(P2). -/
def bracketOf (sign : Bool) (v err : Nat) : Bracket :=
  { sign := sign,
    lo := min (patternOf roundDown 52 inf64 (v - err) (2 ^ (fixBits - 1074))) one64,
    hi := min (patternOf roundUp 52 inf64 (v + err) (2 ^ (fixBits - 1074))) one64 }

/-- Magnitudes below 2^-26, where the sine of w lies between w and the value next below it, and the cosine between 1.0
and the value next below it. -/
def tinyAngle (w : F64) : Bool := decide (mag64 w < 2 ^ (1074 - 26))

/-- |w| in fixed point, exactly. -/
def angleFix (w : F64) : Nat := mag64 w * 2 ^ (fixBits - 1074)

/-- How many quarter turns |w| holds. -/
def quarterTurns (w : F64) : Nat := angleFix w / halfPiFix

/-- What |w| leaves over its quarter turns; too large by less than `quarterTurns w` units, π/2 being rounded down. -/
def restOfTurn (w : F64) : Nat := angleFix w % halfPiFix

/-- How far, in units of 2^-1280, the fixed-point sine or cosine of `restOfTurn w` may be from the exact one: the rounding
of π/2 and of the series' terms. -/
def fixError (w : F64) : Nat := quarterTurns w + 1000

/-- The bracket of the sine of a finite w that is not zero. -/
def sinBracket (w : F64) : Bracket :=
  if tinyAngle w then { sign := sign64 w, lo := pat64 w - 1, hi := pat64 w }
  else
    let q := quarterTurns w % 4
    let v := if q % 2 = 0 then sinFix (restOfTurn w) else cosFix (restOfTurn w)
    bracketOf (sign64 w != decide (2 ≤ q)) v (fixError w)

/-- The bracket of the cosine of a finite w that is not zero. -/
def cosBracket (w : F64) : Bracket :=
  if tinyAngle w then { sign := false, lo := one64 - 1, hi := one64 }
  else
    let q := quarterTurns w % 4
    let v := if q % 2 = 0 then cosFix (restOfTurn w) else sinFix (restOfTurn w)
    bracketOf (decide (q = 1) || decide (q = 2)) v (fixError w)

/-- The value `raw` where it lies in the bracket, else the bracket's lower end. -/
def holdIn (b : Bracket) (raw : F64) : F64 :=
  if sign64 raw = b.sign ∧ b.lo ≤ pat64 raw ∧ pat64 raw ≤ min b.hi one64 then raw
  else pack64 b.sign (min b.lo one64)

/-- `SIN64` (43_lowpass.md R206): P3 for a NaN or an infinity, P1 at +0.0, a zero of either sign at -0.0, else one of
the two values of P4. -/
def sin64 (w : F64) : F64 :=
  let raw := Config.rawSin w
  if !isFinite64 w then forceNan64 raw
  else if isZero64 w then pack64 (sign64 w && sign64 raw) 0
  else holdIn (sinBracket w) raw

/-- `COS64` (43_lowpass.md R206): P3 for a NaN or an infinity, 1.0 at either zero, else one of the two values of P4. -/
def cos64 (w : F64) : F64 :=
  let raw := Config.rawCos w
  if !isFinite64 w then forceNan64 raw
  else if isZero64 w then pack64 false one64
  else holdIn (cosBracket w) raw

/-- The numerics record of this hardware: the IEEE primitives and SIN64, COS64 (00_scope.md R10, R11). -/
def ieee : Numerics :=
  { fadd64 := ieeeAdd, fsub64 := ieeeSub, fmul64 := ieeeMul, fdiv64 := ieeeDiv, fneg64 := ieeeNeg, feq64 := ieeeEq,
    f32ToF64 := ieeeF32ToF64, f64ToF32 := ieeeF64ToF32, i16ToF64 := ieeeI16ToF64, u32ToF64 := ieeeU32ToF64,
    truncZ := ieeeTruncZ, sin64 := sin64, cos64 := cos64 }

end Sys2Proof.Machine
end

