-- ==== Sys2Proof/Machine/Flags.lean ====
section
/-! DEFINITION. The checks and the flag of an initialisation: the format whitelist, the channel bound, the a0 guard
(41_biquad_init.md R142 to R144) and BQ_PT, the identity test (R145). STATUS.RESULT, the other flag (10_state.md R28), is
written by `complete`. -/

namespace Sys2Proof.Machine

/-- The supported format tags: "Exactly two tags are *supported*", and all 32 bits are compared (10_state.md R29,
41_biquad_init.md R142). -/
def supportedFmt (fmt : Word) : Bool := fmt == Config.fmtS16 || fmt == Config.fmtF32

/-- The channel bound (41_biquad_init.md R143); a count of zero is accepted. -/
def channelsFit (ch : Word) (maxCh : Nat) : Bool := decide (ch.toNat ≤ maxCh)

/-- The division guard: a0 is +0.0 or -0.0 (41_biquad_init.md R144). -/
def zeroA0 (N : Numerics) (a0 : F64) : Bool := N.feq64 a0 0x0000000000000000#64

/-- The three checks of `reinit_core` (41_biquad_init.md R141, R148). -/
def validDescr (N : Numerics) (maxCh : Nat) (d : BqDescr) : Bool :=
  supportedFmt d.fmt && channelsFit d.ch maxCh && !zeroA0 N d.a0

/-- The identity test on the unnormalised coefficients (41_biquad_init.md R145). -/
def identityTest (N : Numerics) (d : BqDescr) : Bool :=
  N.feq64 d.a0 0x3FF0000000000000#64 && N.feq64 d.a1 0x0000000000000000#64 && N.feq64 d.a2 0x0000000000000000#64 &&
  N.feq64 d.b0 0x3FF0000000000000#64 && N.feq64 d.b1 0x0000000000000000#64 && N.feq64 d.b2 0x0000000000000000#64

end Sys2Proof.Machine
end

