-- ==== Sys2Proof/Machine/Operands.lean ====
section
/-! DEFINITION. The operands of a PROCESS: extents and sample addresses (20_memory.md R61, R66, R67, R68), and samples in
the two formats (42_biquad_process.md R166, R168, R169, R171 to R173). -/

namespace Sys2Proof.Machine

/-- The free-value draw of operation `j` of a command or filter step whose draw is `k` (log 5). -/
def opDraw (k j : Nat) : Nat := 32 * k + j

/-- `bytesPerSample` (10_state.md R29). DESIGN CHOICE: 0 for an unsupported tag, which no reachable instance that gets
here holds (log 19). -/
def bytesPerSample (fmt : Word) : Nat :=
  if fmt = Config.fmtS16 then 2 else if fmt = Config.fmtF32 then 4 else 0

/-- `bytesPerFrame(fmt, ch)`, which does not wrap (10_state.md R29). -/
def bytesPerFrame (fmt ch : Word) : Nat := ch.toNat * bytesPerSample fmt

/-- The extent `E` of the two buffers (20_memory.md R61). -/
def extent (s : State) : Nat := s.argCount.toNat * bytesPerFrame s.inst.fmt s.inst.ch

/-- `addr(A, n, c)` (20_memory.md R66). -/
def sampleAddr (A : DWord) (fmt ch : Word) (n c : Nat) : Nat := A.toNat + (n * ch.toNat + c) * bytesPerSample fmt

/-- A null reference among a PROCESS's operands (42_biquad_process.md R162, 30_encoding.md R93). -/
def nullOperand (iv : Bool) (s : State) : Bool := !iv || s.argOut == 0#64 || s.argIn == 0#64

/-- A buffer that runs past the top of the address space (20_memory.md R67, U4). -/
def pastTop (s : State) : Bool :=
  decide (0 < extent s ∧ (2 ^ 64 < s.argIn.toNat + extent s ∨ 2 ^ 64 < s.argOut.toNat + extent s))

/-- Two ranges of the extent's length that start apart and share a byte (20_memory.md R68, U3). -/
def partialOverlap (s : State) : Bool :=
  decide (s.argOut ≠ s.argIn ∧ s.argIn.toNat < s.argOut.toNat + extent s ∧ s.argOut.toNat < s.argIn.toNat + extent s)

/-- `read_sample` (42_biquad_process.md R166, R168): 0x3F00000000000000 is 1/32768. -/
def readSample (N : Numerics) (k : Nat) (fmt : Word) (m : Memory) (a : Nat) : F64 :=
  if fmt = Config.fmtF32 then N.f32ToF64 (opDraw k 0) (read32 m a)
  else N.fmul64 (opDraw k 0) (N.i16ToF64 (read16 m a)) 0x3F00000000000000#64

/-- "`p` ... is finite and `-32769.0 < p < 32768.0`" (42_biquad_process.md R172). -/
def fitsI16 (p : F64) : Bool :=
  isFinite64 p && decide (-(32769 * (unit64 : Int)) < val64 p ∧ val64 p < 32768 * (unit64 : Int))

/-- The 16-bit sample for an output (42_biquad_process.md R171, R172, R173): 0x40DFFFC000000000 is 32767.0; out of range
it is the free value `I16_OVF` (log 6). -/
def outI16 (N : Numerics) (k : Nat) (y0 : F64) : BitVec 16 :=
  let p := N.fmul64 (opDraw k 16) y0 0x40DFFFC000000000#64
  if fitsI16 p then BitVec.ofInt 16 (N.truncZ p) else Config.i16Ovf k

/-- The 32-bit sample for an output, which is also what `Y1` takes (42_biquad_process.md R169, R170). -/
def outF32 (N : Numerics) (k : Nat) (y0 : F64) : F32 := N.f64ToF32 (opDraw k 14) y0

/-- `write_sample` (42_biquad_process.md R169, R171 to R173). -/
def writeSample (N : Numerics) (k : Nat) (fmt : Word) (m : Memory) (a : Nat) (y0 : F64) : Memory :=
  if fmt = Config.fmtF32 then write32 m a (outF32 N k y0) else write16 m a (outI16 N k y0)

end Sys2Proof.Machine
end

