-- ==== Sys2Proof/Machine/Biquad.lean ====
section
/-! DEFINITION. BQ_INIT and BQ_REINIT (41_biquad_init.md R140 to R150). -/

namespace Sys2Proof.Machine

/-- The registers a successful `reinit_core` stores: format, channels, passthrough flag, a0 as given, and five quotients,
each rounded once (41_biquad_init.md R146). -/
def normalised (N : Numerics) (k : Nat) (d : BqDescr) : BqRegs :=
  { fmt := d.fmt, ch := d.ch, pt := identityTest N d, a0 := d.a0,
    a1 := N.fdiv64 (opDraw k 16) d.a1 d.a0, a2 := N.fdiv64 (opDraw k 17) d.a2 d.a0,
    b0 := N.fdiv64 (opDraw k 18) d.b0 d.a0, b1 := N.fdiv64 (opDraw k 19) d.b1 d.a0,
    b2 := N.fdiv64 (opDraw k 20) d.b2 d.a0 }

/-- The store of a successful `reinit_core`: the delay line is not touched (41_biquad_init.md R146, R147). -/
def storeNormalised (N : Numerics) (d : BqDescr) (s : State) : State :=
  { s with inst := normalised N s.draws d, draws := s.draws + 1 }

/-- `reinit_core` on a descriptor value, up to its result code: none where a check fails, and then nothing is written
(41_biquad_init.md R141, R148, 43_lowpass.md R203). -/
def reinitCore (N : Numerics) (d : BqDescr) (s : State) : Option State :=
  if validDescr N s.maxChannels d then some (storeNormalised N d s) else none

/-- `reinit_core` on `CD_*`, with its result code. -/
def reinitFromCd (N : Numerics) (s : State) : State :=
  match reinitCore N s.cd s with
  | some t => succeed t
  | none => raiseInvalid s

/-- `BQ_INIT iv, dv` (41_biquad_init.md R140). -/
def bqInitWith (N : Numerics) (iv dv : Bool) (s : State) : State :=
  if iv then
    if dv then reinitFromCd N (zeroInstance s) else raiseInvalid (zeroInstance s)
  else raiseInvalid s

/-- `BQ_REINIT iv, dv` (41_biquad_init.md R141). -/
def bqReinitWith (N : Numerics) (iv dv : Bool) (s : State) : State :=
  if iv && dv then reinitFromCd N s else raiseInvalid s

/-- The meaning of `BQ_INIT`. -/
def execBqInit (iv dv : Bool) (s : State) : Host.Outcome State Fault Refusal := .next (bqInitWith ieee iv dv s)

/-- The meaning of `BQ_REINIT`. -/
def execBqReinit (iv dv : Bool) (s : State) : Host.Outcome State Fault Refusal := .next (bqReinitWith ieee iv dv s)

end Sys2Proof.Machine
end

