-- ==== Sys2Proof/Machine/Process.lean ====
section
/-! DEFINITION. BQ_PROCESS (42_biquad_process.md R160 to R179). -/

namespace Sys2Proof.Machine

/-- The filter equation, from left to right: five products, two additions, two subtractions, each rounded
(42_biquad_process.md R167). -/
def biquad (N : Numerics) (k : Nat) (q : BqRegs) (x0 x1 x2 y1 y2 : F64) : F64 :=
  let p0 := N.fmul64 (opDraw k 5) q.b0 x0
  let p1 := N.fmul64 (opDraw k 6) q.b1 x1
  let p2 := N.fmul64 (opDraw k 7) q.b2 x2
  let p3 := N.fmul64 (opDraw k 8) q.a1 y1
  let p4 := N.fmul64 (opDraw k 9) q.a2 y2
  N.fsub64 (opDraw k 13) (N.fsub64 (opDraw k 12) (N.fadd64 (opDraw k 11) (N.fadd64 (opDraw k 10) p0 p1) p2) p3) p4

/-- The output of one filter step from the sample read and the channel's history, widened exactly
(42_biquad_process.md R165, R166). -/
def filterOutput (N : Numerics) (k : Nat) (q : BqRegs) (h : Chan) (x0 : F64) : F64 :=
  biquad N k q x0 (N.f32ToF64 (opDraw k 1) h.x1) (N.f32ToF64 (opDraw k 2) h.x2)
    (N.f32ToF64 (opDraw k 3) h.y1) (N.f32ToF64 (opDraw k 4) h.y2)

/-- The shift of a channel's history (42_biquad_process.md R170). -/
def shiftHistory (N : Numerics) (k : Nat) (h : Chan) (x0 y0 : F64) : Chan :=
  { x1 := N.f64ToF32 (opDraw k 15) x0, x2 := h.x1, y1 := outF32 N k y0, y2 := h.y1 }

/-- The body of the two loops: frame `n`, channel `c` (42_biquad_process.md R165). -/
def filterStep (N : Numerics) (n c : Nat) (s : State) : State :=
  let k := s.draws
  let x0 := readSample N k s.inst.fmt s.mem (sampleAddr s.argIn s.inst.fmt s.inst.ch n c)
  let y0 := filterOutput N k s.inst (s.chan c) x0
  { s with
    mem := writeSample N k s.inst.fmt s.mem (sampleAddr s.argOut s.inst.fmt s.inst.ch n c) y0
    delay := s.delay.set c (shiftHistory N k (s.chan c) x0 y0)
    draws := k + 1 }

/-- The inner loop: so many channels of frame `n`, from channel `c` on. -/
def runChannels (N : Numerics) (n : Nat) : Nat → Nat → State → State
  | 0, _, s => s
  | j + 1, c, s => runChannels N n j (c + 1) (filterStep N n c s)

/-- The outer loop: so many frames, from frame `n` on. -/
def runFrames (N : Numerics) : Nat → Nat → State → State
  | 0, _, s => s
  | j + 1, n, s => runFrames N j (n + 1) (runChannels N n s.inst.ch.toNat 0 s)

/-- The filtering path (42_biquad_process.md R165). -/
def filterPath (N : Numerics) (s : State) : State := runFrames N s.argCount.toNat 0 s

/-- The passthrough path (42_biquad_process.md R164): a copy of the extent, or nothing in place. -/
def passthroughPath (s : State) : State :=
  if s.argOut = s.argIn then s
  else { s with mem := copyBytes s.argIn.toNat s.argOut.toNat (extent s) 0 s.mem }

/-- "the delay-line elements of the channels in use may hold anything" (93_implementation_defined.md U3): each a free
value. -/
def freeHistory (s : State) : List Chan :=
  s.delay.mapIdx fun c h =>
    if c < s.inst.ch.toNat then
      { x1 := Config.overlapElem s.draws c 0, x2 := Config.overlapElem s.draws c 1,
        y1 := Config.overlapElem s.draws c 2, y2 := Config.overlapElem s.draws c 3 }
    else h

/-- Partially overlapping buffers (20_memory.md R68, U3): every byte of the output range and every delay-line element of
the channels in use is a free value, "and nothing else changes" (log 7). -/
def unspecifiedOverlap (s : State) : State :=
  { s with
    mem := fillBytes (Config.overlapByte s.draws) s.argOut.toNat (extent s) 0 s.mem
    delay := freeHistory s
    draws := s.draws + 1 }

/-- A buffer past the top (20_memory.md R67, U4): memory anywhere, and the delay-line elements of the channels in use,
are free; the registers no PROCESS ever writes stay (10_state.md R26, R32, 42_biquad_process.md R161; log 8). -/
def unspecifiedPastTop (s : State) : State :=
  { s with
    mem := storeCells (Config.pastTopStores s.draws) s.mem
    delay := freeHistory s
    draws := s.draws + 1 }

/-- A path of PROCESS, with what the host must grant it (60_exceptions.md R245, R238: unchecked, "the outcome is
unspecified, not an error"). -/
def onBuffers (path : State → State) (s : State) : State :=
  if pastTop s then unspecifiedPastTop s
  else if partialOverlap s then unspecifiedOverlap s
  else path s

/-- `BQ_PROCESS iv` (42_biquad_process.md R160, R162, R163). -/
def processWith (N : Numerics) (iv : Bool) (s : State) : State :=
  if nullOperand iv s then raiseInvalid s
  else if s.inst.pt then succeed (onBuffers passthroughPath s)
  else if supportedFmt s.inst.fmt then succeed (onBuffers (filterPath N) s)
  else raiseInvalid s

/-- The meaning of `BQ_PROCESS`. -/
def execBqProcess (iv : Bool) (s : State) : Host.Outcome State Fault Refusal := .next (processWith ieee iv s)

end Sys2Proof.Machine
end

