-- ==== Sys2Proof/Machine/Lowpass.lean ====
section
/-! DEFINITION. LPF_INIT, LPF_REINIT and LPF_PROCESS (43_lowpass.md R200 to R212). -/

namespace Sys2Proof.Machine

/-- `PI` (43_lowpass.md R205). -/
def constPi : F64 := 0x400921FB54442D18#64

/-- `Q`, "fixed ..., not configurable" (43_lowpass.md R205). -/
def constQ : F64 := 0x3FE6A09E667F3BCC#64

/-- 1.0, 2.0 and -2.0 of the listing of 43_lowpass.md R204. -/
def constOne : F64 := 0x3FF0000000000000#64
def constTwo : F64 := 0x4000000000000000#64
def constMinusTwo : F64 := 0xC000000000000000#64

/-- `w = ((2*PI)*fc)/fs` (43_lowpass.md R204). -/
def angularCutoff (N : Numerics) (k : Nat) (fs fc : Word) : F64 :=
  N.fdiv64 (opDraw k 2) (N.fmul64 (opDraw k 1) (N.fmul64 (opDraw k 0) constTwo constPi) (N.u32ToF64 fc)) (N.u32ToF64 fs)

/-- `rbj_lowpass` beside the format and channel count: the descriptor a low-pass command builds
(43_lowpass.md R203, R204). -/
def lowpassDescr (N : Numerics) (k : Nat) (l : LpConfig) : BqDescr :=
  let w := angularCutoff N k l.fs l.fc
  let s := N.sin64 w
  let c := N.cos64 w
  let alpha := N.fdiv64 (opDraw k 4) s (N.fmul64 (opDraw k 3) constTwo constQ)
  let b1 := N.fsub64 (opDraw k 8) constOne c
  let b0 := N.fdiv64 (opDraw k 9) b1 constTwo
  { fmt := l.fmt, ch := l.ch,
    a0 := N.fadd64 (opDraw k 5) constOne alpha,
    a1 := N.fmul64 (opDraw k 6) constMinusTwo c,
    a2 := N.fsub64 (opDraw k 7) constOne alpha,
    b0 := b0, b1 := b1, b2 := b0 }

/-- The config copy, the last act of a successful low-pass initialisation (43_lowpass.md R209). -/
def copyConfig (s : State) : State := { s with lp := s.ld }

/-- The rest of a low-pass initialisation once its references are valid (43_lowpass.md R200, R201, R203). -/
def reinitFromLd (N : Numerics) (s : State) : State :=
  match reinitCore N (lowpassDescr N s.draws s.ld) s with
  | some t => succeed (copyConfig t)
  | none => raiseInvalid s

/-- `LPF_INIT iv, dv` (43_lowpass.md R200). -/
def lpfInitWith (N : Numerics) (iv dv : Bool) (s : State) : State :=
  if iv then
    if dv then reinitFromLd N (zeroContext s) else raiseInvalid (zeroContext s)
  else raiseInvalid s

/-- `LPF_REINIT iv, dv` (43_lowpass.md R201). -/
def lpfReinitWith (N : Numerics) (iv dv : Bool) (s : State) : State :=
  if iv && dv then reinitFromLd N s else raiseInvalid s

/-- The meaning of `LPF_INIT`. -/
def execLpfInit (iv dv : Bool) (s : State) : Host.Outcome State Fault Refusal := .next (lpfInitWith ieee iv dv s)

/-- The meaning of `LPF_REINIT`. -/
def execLpfReinit (iv dv : Bool) (s : State) : Host.Outcome State Fault Refusal := .next (lpfReinitWith ieee iv dv s)

/-- The meaning of `LPF_PROCESS`: "`LPF_PROCESS(iv) = BQ_PROCESS(iv)`" (43_lowpass.md R202). -/
def execLpfProcess (iv : Bool) (s : State) : Host.Outcome State Fault Refusal := .next (processWith ieee iv s)

end Sys2Proof.Machine
end

