-- ==== Sys2Proof/Machine/Access.lean ====
section
/-! DEFINITION. WR, RD and the two pseudo-commands (40_register_access.md R120 to R124). -/

namespace Sys2Proof.Machine

/-- What a write to CMD runs: the command its data decode to, and for an illegal word `complete(INVALID_ARGUMENT)` and
nothing else (30_encoding.md R96, R97). The decoder answers none of the last four constructors
(`Sys2Proof.Laws.decode_ok_isCommand`). -/
def runCommand (v : DWord) (s : State) : Host.Outcome State Fault Refusal :=
  match decode v with
  | .ok (.bqInit iv dv) => execBqInit iv dv s
  | .ok (.bqReinit iv dv) => execBqReinit iv dv s
  | .ok (.bqProcess iv) => execBqProcess iv s
  | .ok (.lpfInit iv dv) => execLpfInit iv dv s
  | .ok (.lpfReinit iv dv) => execLpfReinit iv dv s
  | .ok (.lpfProcess iv) => execLpfProcess iv s
  | .error _ => .next (raiseInvalid s)
  | .ok (.wr _ _) | .ok (.rd _) | .ok (.bqConfigure _ _ _ _ _ _ _ _) | .ok (.lpfConfigure _ _ _ _) =>
    .next (raiseInvalid s)

/-- The meaning of `WR off, v` (40_register_access.md R120). An access at any other offset "cannot be issued"
(log 10). -/
def execWr (off : Offset) (v : DWord) (s : State) : Host.Outcome State Fault Refusal :=
  if off.issuable then
    if off = 0x000#16 then runCommand v s else .next (writeOffset off v s)
  else .refused (.accessCannotBeIssued off)

/-- The meaning of `RD off` (40_register_access.md R122): the value goes to the host, and no register changes. -/
def execRd (off : Offset) (s : State) : Host.Outcome State Fault Refusal :=
  if off.issuable then .next (returnData (readOffset off s) s) else .refused (.accessCannotBeIssued off)

/-- The meaning of `BQ_CONFIGURE` (40_register_access.md R123). -/
def execBqConfigure (fmt ch : DWord) (a0 a1 a2 b0 b1 b2 : F64) (s : State) : Host.Outcome State Fault Refusal :=
  .next { s with
    cd := { fmt := fmt.setWidth 32, ch := ch.setWidth 32, a0 := a0, a1 := a1, a2 := a2, b0 := b0, b1 := b1, b2 := b2 } }

/-- The meaning of `LPF_CONFIGURE` (40_register_access.md R124). -/
def execLpfConfigure (fmt ch fs fc : DWord) (s : State) : Host.Outcome State Fault Refusal :=
  .next { s with
    ld := { fmt := fmt.setWidth 32, ch := ch.setWidth 32, fs := fs.setWidth 32, fc := fc.setWidth 32 } }

end Sys2Proof.Machine
end

