-- ==== Sys2Proof/Machine/Dispatch.lean ====
section
/-! DEFINITION. One arm for each constructor of Instr. -/

namespace Sys2Proof.Machine

def exec (i : Instr) (s : State) : Host.Outcome State Fault Refusal :=
  match i with
  | .bqInit iv dv => Sys2Proof.Machine.execBqInit iv dv s
  | .bqReinit iv dv => Sys2Proof.Machine.execBqReinit iv dv s
  | .bqProcess iv => Sys2Proof.Machine.execBqProcess iv s
  | .lpfInit iv dv => Sys2Proof.Machine.execLpfInit iv dv s
  | .lpfReinit iv dv => Sys2Proof.Machine.execLpfReinit iv dv s
  | .lpfProcess iv => Sys2Proof.Machine.execLpfProcess iv s
  | .wr off v => Sys2Proof.Machine.execWr off v s
  | .rd off => Sys2Proof.Machine.execRd off s
  | .bqConfigure fmt ch a0 a1 a2 b0 b1 b2 => Sys2Proof.Machine.execBqConfigure fmt ch a0 a1 a2 b0 b1 b2 s
  | .lpfConfigure fmt ch fs fc => Sys2Proof.Machine.execLpfConfigure fmt ch fs fc s

end Sys2Proof.Machine
end

