-- ==== Sys2Proof/Machine/Step.lean ====
section
/-! DEFINITION. One step: the host's next event, taken in order (00_scope.md R12, 20_memory.md R70, 30_encoding.md R95). -/

namespace Sys2Proof.Machine

/-- The host's next event. A register access runs to its end, a command with it; with no event pending the block does
nothing, since it "acts only while executing a command" (00_scope.md R12; log 1). -/
def step (s : State) : Host.Outcome State Fault Refusal :=
  match s.host with
  | [] => .next s
  | .bus a :: rest => exec (decodeAccess a) (popHost rest s)
  | .memStore a b :: rest => .next (hostStore a b (popHost rest s))
  | .memLoad a :: rest => .next (hostLoad a (popHost rest s))
  | .reset :: rest => .next (resetBlock (popHost rest s))

/-- The state with the command word `w` as the host's next event, a write to CMD (log 1). -/
def State.withFetchWord (s : State) (nbits w : Nat) : State :=
  { s with host := .bus (.write 0x000#16 (BitVec.ofNat 64 (w % 2 ^ nbits))) :: s.host }

end Sys2Proof.Machine
end

