-- ==== Sys2Proof/Safety.lean ====
section
/-! DEFINITION. What a sound state is (10_state.md R36), and what the host must grant a PROCESS (60_exceptions.md R245). -/

namespace Sys2Proof.Machine

/-- The invariants of 10_state.md R36, with the size of the delay line (00_scope.md R6) and the canonical form of
memory. R36(f), reserved bits read zero, is in the widths of the fields. -/
structure State.Inv (s : State) : Prop where
  /-- MAX_CHANNELS is at least 1. -/
  maxChannelsPos : 1 ≤ s.maxChannels
  /-- MAX_CHANNELS is at most 512. -/
  maxChannelsBound : s.maxChannels ≤ 512
  /-- R36(a). -/
  passthroughFmt : s.inst.pt = true → s.inst.fmt = Config.fmtS16 ∨ s.inst.fmt = Config.fmtF32
  /-- R36(b). -/
  instFmt : s.inst.fmt = 0#32 ∨ s.inst.fmt = Config.fmtS16 ∨ s.inst.fmt = Config.fmtF32
  /-- R36(c). -/
  instCh : s.inst.ch.toNat ≤ s.maxChannels
  /-- R36(d). -/
  clearedInst : s.inst.fmt = 0#32 → s.inst = BqRegs.zero
  /-- R36(e). -/
  result : s.status = Config.success ∨ s.status = Config.invalidArgument
  /-- The canonical form of memory. -/
  memory : Memory.wf s.mem

/-- The buffers a PROCESS is given lie inside the address space, and are disjoint or start at the same address
(20_memory.md R67, R68, 60_exceptions.md R245). -/
structure State.BuffersGranted (s : State) : Prop where
  inside : pastTop s = false
  apart : partialOverlap s = false

end Sys2Proof.Machine
end

