-- ==== Sys2Proof/Certificates/Slice0/Obligations.lean ====
section
/-! DEFINITION. The statements for the provers, each formalising a rule of spec/ or what follows from several. First the
words they are said in, read from the spec's rules and not from the meanings. -/

namespace Sys2Proof.Claims

open Sys2Proof Sys2Proof.Machine

/-- The six commands (30_encoding.md R92). -/
def isCommand : Instr → Bool
  | .bqInit _ _ | .bqReinit _ _ | .bqProcess _ | .lpfInit _ _ | .lpfReinit _ _ | .lpfProcess _ => true
  | .wr _ _ | .rd _ | .bqConfigure _ _ _ _ _ _ _ _ | .lpfConfigure _ _ _ _ => false

/-- The two pseudo-commands (30_encoding.md R101). -/
def isPseudo : Instr → Bool
  | .bqConfigure _ _ _ _ _ _ _ _ | .lpfConfigure _ _ _ _ => true
  | .bqInit _ _ | .bqReinit _ _ | .bqProcess _ | .lpfInit _ _ | .lpfReinit _ _ | .lpfProcess _ => false
  | .wr _ _ | .rd _ => false

/-- The two commands that process frames (42_biquad_process.md R160, 43_lowpass.md R202). -/
def processes (iv : Bool) (i : Instr) : Prop := i = .bqProcess iv ∨ i = .lpfProcess iv

/-- A binary64 zero of either sign. -/
def isZero (a : F64) : Prop := a = 0x0000000000000000#64 ∨ a = 0x8000000000000000#64

/-- A supported format tag, by its number (10_state.md R29). -/
def knownFmt (fmt : Word) : Prop := fmt = 2#32 ∨ fmt = 5#32

/-- What `reinit_core` asks of a descriptor (41_biquad_init.md R142, R143, R144). -/
def acceptable (d : BqDescr) (maxCh : Nat) : Prop := knownFmt d.fmt ∧ d.ch.toNat ≤ maxCh ∧ ¬ isZero d.a0

/-- The identity descriptor (41_biquad_init.md R145): a zero of either sign counts as zero. -/
def identityDescr (d : BqDescr) : Prop :=
  d.a0 = 0x3FF0000000000000#64 ∧ isZero d.a1 ∧ isZero d.a2 ∧ d.b0 = 0x3FF0000000000000#64 ∧ isZero d.b1 ∧ isZero d.b2

/-- `q` is the rounded quotient of `a` by `b`; where that is a NaN, some NaN. -/
def quotient (q a b : F64) : Prop := ∃ k, q = ieee.fdiv64 k a b

/-- The registers `reinit_core` stores from a descriptor (41_biquad_init.md R146). -/
def normalisedFrom (q : BqRegs) (d : BqDescr) : Prop :=
  q.fmt = d.fmt ∧ q.ch = d.ch ∧ (q.pt = true ↔ identityDescr d) ∧ q.a0 = d.a0 ∧
  quotient q.a1 d.a1 d.a0 ∧ quotient q.a2 d.a2 d.a0 ∧
  quotient q.b0 d.b0 d.a0 ∧ quotient q.b1 d.b1 d.a0 ∧ quotient q.b2 d.b2 d.a0

/-- The registers that no command writes: operands and descriptors (10_state.md R23, R24, R25); beside them the host's
further events and the data it last read. -/
def sameOperands (s t : State) : Prop :=
  t.argOut = s.argOut ∧ t.argIn = s.argIn ∧ t.argCount = s.argCount ∧ t.cd = s.cd ∧ t.ld = s.ld ∧
  t.host = s.host ∧ t.rdData = s.rdData

/-- `zero_instance()` on the state (10_state.md R34). -/
def clearedInstance (s : State) : State :=
  { s with
    inst := ⟨0#32, 0#32, false, 0#64, 0#64, 0#64, 0#64, 0#64, 0#64⟩
    delay := List.replicate s.delay.length ⟨0#32, 0#32, 0#32, 0#32⟩ }

/-- `zero_context()` on the state (10_state.md R34). -/
def clearedContext (s : State) : State := { clearedInstance s with lp := ⟨0#32, 0#32, 0#32, 0#32⟩ }

/-- `STATUS.RESULT` written and nothing else (00_scope.md R9). -/
def withResult (code : Word) (s : State) : State := { s with status := code }

/-- The RW registers and the bits each stores (10_state.md R21, 40_register_access.md R121). -/
def rwFields : List (Offset × DWord) :=
  [(0x010#16, 0xFFFFFFFFFFFFFFFF#64), (0x018#16, 0xFFFFFFFFFFFFFFFF#64), (0x020#16, 0xFFFFFFFFFFFFFFFF#64)] ++
  [(0x040#16, 0xFFFFFFFF#64), (0x048#16, 0xFFFFFFFF#64), (0x050#16, 0xFFFFFFFFFFFFFFFF#64),
    (0x058#16, 0xFFFFFFFFFFFFFFFF#64), (0x060#16, 0xFFFFFFFFFFFFFFFF#64), (0x068#16, 0xFFFFFFFFFFFFFFFF#64),
    (0x070#16, 0xFFFFFFFFFFFFFFFF#64), (0x078#16, 0xFFFFFFFFFFFFFFFF#64)] ++
  [(0x080#16, 0xFFFFFFFF#64), (0x088#16, 0xFFFFFFFF#64), (0x090#16, 0xFFFFFFFF#64), (0x098#16, 0xFFFFFFFF#64)]

/-- The registers that stand alone and can be read, with the field each returns (10_state.md R21). -/
def readFields (s : State) : List (Offset × DWord) :=
  [(0x008#16, s.status.setWidth 64), (0x010#16, s.argOut), (0x018#16, s.argIn), (0x020#16, s.argCount)] ++
  [(0x040#16, s.cd.fmt.setWidth 64), (0x048#16, s.cd.ch.setWidth 64), (0x050#16, s.cd.a0), (0x058#16, s.cd.a1),
    (0x060#16, s.cd.a2), (0x068#16, s.cd.b0), (0x070#16, s.cd.b1), (0x078#16, s.cd.b2)] ++
  [(0x080#16, s.ld.fmt.setWidth 64), (0x088#16, s.ld.ch.setWidth 64), (0x090#16, s.ld.fs.setWidth 64),
    (0x098#16, s.ld.fc.setWidth 64)] ++
  [(0x100#16, s.inst.fmt.setWidth 64), (0x108#16, s.inst.ch.setWidth 64),
    (0x110#16, if s.inst.pt then 1#64 else 0#64), (0x118#16, s.inst.a0), (0x120#16, s.inst.a1),
    (0x128#16, s.inst.a2), (0x130#16, s.inst.b0), (0x138#16, s.inst.b1), (0x140#16, s.inst.b2)] ++
  [(0x180#16, s.lp.fmt.setWidth 64), (0x188#16, s.lp.ch.setWidth 64), (0x190#16, s.lp.fs.setWidth 64),
    (0x198#16, s.lp.fc.setWidth 64)]

/-- The offset of element `c` of the register file at `base` (10_state.md R21). -/
def fileOffset (base c : Nat) : Offset := BitVec.ofNat 16 (base + 8 * c)

/-- What a read of a register file's element returns (10_state.md R21): none where the offset is unmapped. -/
def fileFields (s : State) (c : Nat) : List (Offset × DWord) :=
  match s.delay[c]? with
  | some h => [(fileOffset 0x1000 c, h.x1.setWidth 64), (fileOffset 0x2000 c, h.x2.setWidth 64),
      (fileOffset 0x3000 c, h.y1.setWidth 64), (fileOffset 0x4000 c, h.y2.setWidth 64)]
  | none => []

/-- `bytesPerSample` of a supported format, by its numbers (10_state.md R29). -/
def sampleBytes (fmt : Word) : Nat := if fmt = 2#32 then 2 else 4

/-- `E = ARG_COUNT * BQ_CH * bytesPerSample(BQ_FMT)` (42_biquad_process.md R164). -/
def bytesMoved (s : State) : Nat := s.argCount.toNat * s.inst.ch.toNat * sampleBytes s.inst.fmt

/-- Where the sample of frame `n`, channel `c` of a buffer at `A` lies (20_memory.md R66). -/
def sampleAt (s : State) (A : DWord) (n c : Nat) : Nat :=
  A.toNat + (n * s.inst.ch.toNat + c) * sampleBytes s.inst.fmt

/-- A PROCESS that its checks let through (42_biquad_process.md R160, R162, R163), on buffers the host must grant
(60_exceptions.md R245): inside the address space, and disjoint or starting at the same address. -/
structure Runs (s : State) : Prop where
  outSet : s.argOut ≠ 0#64
  inSet : s.argIn ≠ 0#64
  ready : s.inst.pt = true ∨ knownFmt s.inst.fmt
  inInside : bytesMoved s = 0 ∨ s.argIn.toNat + bytesMoved s ≤ 2 ^ 64
  outInside : bytesMoved s = 0 ∨ s.argOut.toNat + bytesMoved s ≤ 2 ^ 64
  apart : s.argOut = s.argIn ∨ s.argIn.toNat + bytesMoved s ≤ s.argOut.toNat ∨
    s.argOut.toNat + bytesMoved s ≤ s.argIn.toNat

/-- `x0` is the sample read at `a`, widened (42_biquad_process.md R166) or scaled by 1/32768 (R168). -/
def sampleRead (fmt : Word) (m : Memory) (a : Nat) (x0 : F64) : Prop :=
  (fmt = 5#32 ∧ ∃ k, x0 = ieee.f32ToF64 k (read32 m a)) ∨
  (fmt = 2#32 ∧ ∃ k, x0 = ieee.fmul64 k (ieee.i16ToF64 (read16 m a)) 0x3F00000000000000#64)

/-- `y0 = b0*x0 + b1*x1 + b2*x2 - a1*y1 - a2*y2`, from left to right, nine roundings, on the history widened exactly
(42_biquad_process.md R166, R167). -/
def filterEquation (q : BqRegs) (h : Chan) (x0 y0 : F64) : Prop :=
  ∃ x1 x2 y1 y2 : F64,
    (∃ k, x1 = ieee.f32ToF64 k h.x1) ∧ (∃ k, x2 = ieee.f32ToF64 k h.x2) ∧
    (∃ k, y1 = ieee.f32ToF64 k h.y1) ∧ (∃ k, y2 = ieee.f32ToF64 k h.y2) ∧
    ∃ k : Nat → Nat, y0 =
      ieee.fsub64 (k 8) (ieee.fsub64 (k 7) (ieee.fadd64 (k 6) (ieee.fadd64 (k 5)
        (ieee.fmul64 (k 0) q.b0 x0) (ieee.fmul64 (k 1) q.b1 x1)) (ieee.fmul64 (k 2) q.b2 x2))
        (ieee.fmul64 (k 3) q.a1 y1)) (ieee.fmul64 (k 4) q.a2 y2)

/-- The shift of a channel's history (42_biquad_process.md R170). -/
def historyShift (h : Chan) (x0 y0 : F64) (h' : Chan) : Prop :=
  h'.x2 = h.x1 ∧ (∃ k, h'.x1 = ieee.f64ToF32 k x0) ∧ h'.y2 = h.y1 ∧ (∃ k, h'.y1 = ieee.f64ToF32 k y0)

/-- The sample at `a` for the output `y0`: in F32 the very 32 bits that `Y1` takes (42_biquad_process.md R169), in S16 the
truncation of `p = y0 * 32767` where `p` is finite and -32769 < p < 32768 (R171, R172); out of that range nothing is said
of it (R173). -/
def sampleWritten (fmt : Word) (m : Memory) (a : Nat) (y0 : F64) (h' : Chan) : Prop :=
  (fmt = 5#32 ∧ read32 m a = h'.y1) ∨
  (fmt = 2#32 ∧ ∃ k, ∀ p, p = ieee.fmul64 k y0 0x40DFFFC000000000#64 →
    isFinite64 p = true → -32769 * (unit64 : Int) < val64 p → val64 p < 32768 * (unit64 : Int) →
    (read16 m a).toInt = ieee.truncZ p)

/-- The coefficients of `rbj_lowpass` (43_lowpass.md R204, R205) as a descriptor for a low-pass configuration. -/
def lowpassFrom (l : LpConfig) (d : BqDescr) : Prop :=
  ∃ k : Nat → Nat, ∃ w alpha : F64,
    w = ieee.fdiv64 (k 0) (ieee.fmul64 (k 1) 0x401921FB54442D18#64 (ieee.u32ToF64 l.fc)) (ieee.u32ToF64 l.fs) ∧
    alpha = ieee.fdiv64 (k 2) (ieee.sin64 w) 0x3FF6A09E667F3BCC#64 ∧
    d.fmt = l.fmt ∧ d.ch = l.ch ∧
    d.a0 = ieee.fadd64 (k 3) 0x3FF0000000000000#64 alpha ∧
    d.a1 = ieee.fmul64 (k 4) 0xC000000000000000#64 (ieee.cos64 w) ∧
    d.a2 = ieee.fsub64 (k 5) 0x3FF0000000000000#64 alpha ∧
    d.b1 = ieee.fsub64 (k 6) 0x3FF0000000000000#64 (ieee.cos64 w) ∧
    d.b0 = ieee.fdiv64 (k 7) d.b1 0x4000000000000000#64 ∧ d.b2 = d.b0

/-- An illegal word written to CMD (30_encoding.md R97): a nonzero upper half, a nonzero must-be-zero field, DV in format
P, or an OPC of 0x0, 0x4 or 0x8 to 0xF. -/
def illegalWord (d : DWord) : Prop :=
  d.extractLsb' 32 32 ≠ 0#32 ∨ d.extractLsb' 10 22 ≠ 0#22 ∨ d.extractLsb' 4 4 ≠ 0#4 ∨
  (d.getLsbD 9 = true ∧ (d.extractLsb' 0 4 = 3#4 ∨ d.extractLsb' 0 4 = 7#4)) ∨
  d.extractLsb' 0 4 = 0#4 ∨ d.extractLsb' 0 4 = 4#4 ∨ 8#4 ≤ d.extractLsb' 0 4

/-- When a command completes with INVALID_ARGUMENT (60_exceptions.md R231): `accepts` of a low-pass descriptor leaves out
a0, which cannot be zero (43_lowpass.md R210). -/
def cause (s : State) : Instr → Prop
  | .bqInit iv dv | .bqReinit iv dv =>
    iv = false ∨ dv = false ∨ ¬ knownFmt s.cd.fmt ∨ s.maxChannels < s.cd.ch.toNat ∨ isZero s.cd.a0
  | .lpfInit iv dv | .lpfReinit iv dv =>
    iv = false ∨ dv = false ∨ ¬ knownFmt s.ld.fmt ∨ s.maxChannels < s.ld.ch.toNat
  | .bqProcess iv | .lpfProcess iv =>
    iv = false ∨ s.argOut = 0#64 ∨ s.argIn = 0#64 ∨ (s.inst.pt = false ∧ ¬ knownFmt s.inst.fmt)
  | .wr _ _ | .rd _ | .bqConfigure _ _ _ _ _ _ _ _ | .lpfConfigure _ _ _ _ => False

/-- What a failing command changes besides STATUS (60_exceptions.md R231, R233). -/
def afterFailure (s : State) : Instr → State
  | .bqInit iv _ => if iv then clearedInstance s else s
  | .lpfInit iv _ => if iv then clearedContext s else s
  | .bqReinit _ _ | .lpfReinit _ _ | .bqProcess _ | .lpfProcess _ => s
  | .wr _ _ | .rd _ | .bqConfigure _ _ _ _ _ _ _ _ | .lpfConfigure _ _ _ _ => s

/-- A finite binary32. -/
def isFinite32 (a : F32) : Bool := decide (pat32 a < inf32)

/-- The value of a finite binary32 in units of 2^-149, its smallest subnormal. -/
def val32 (a : F32) : Int := if sign32 a then -(mag32 a : Int) else (mag32 a : Int)

/-- `r` is the exact value `n / d`, in units of 2^-1074, rounded once to binary64 (00_scope.md R10): no finite binary64 is
nearer, of two that are as near it is the one with the even pattern, and it is an infinity from half a unit in the last
place above the greatest finite value on; it has the sign of `n`, unless `n` is zero. -/
def rounded64 (r : F64) (n : Int) (d : Nat) : Prop :=
  isNan64 r = false ∧ (n ≠ 0 → sign64 r = decide (n < 0)) ∧
  (isInf64 r = true ↔ (2 ^ 54 - 1) * 2 ^ 2044 * d ≤ n.natAbs) ∧
  (isFinite64 r = true → ∀ r' : F64, isFinite64 r' = true →
    (val64 r * d - n).natAbs ≤ (val64 r' * d - n).natAbs ∧
    ((val64 r' * d - n).natAbs = (val64 r * d - n).natAbs → val64 r' = val64 r ∨ r.getLsbD 0 = false))

/-- The same for binary32: `r` is `n / d`, in units of 2^-149, rounded once (00_scope.md R10). -/
def rounded32 (r : F32) (n : Int) (d : Nat) : Prop :=
  isNan32 r = false ∧ (n ≠ 0 → sign32 r = decide (n < 0)) ∧
  (isInf32 r = true ↔ (2 ^ 25 - 1) * 2 ^ 252 * d ≤ n.natAbs) ∧
  (isFinite32 r = true → ∀ r' : F32, isFinite32 r' = true →
    (val32 r * d - n).natAbs ≤ (val32 r' * d - n).natAbs ∧
    ((val32 r' * d - n).natAbs = (val32 r * d - n).natAbs → val32 r' = val32 r ∨ r.getLsbD 0 = false))

/-- The normalised coefficients of a multiple of the identity that is not the identity (42_biquad_process.md R172,
41_biquad_init.md R145): unit gain on the filtering path, in the integer format. -/
structure ScaledIdentity (q : BqRegs) : Prop where
  fmt : q.fmt = 2#32
  filtering : q.pt = false
  b0 : q.b0 = 0x3FF0000000000000#64
  b1 : isZero q.b1
  b2 : isZero q.b2
  a1 : isZero q.a1
  a2 : isZero q.a2

/-- A channel's history without a NaN or an infinity. -/
def finiteHistory (h : Chan) : Prop :=
  isFinite32 h.x1 = true ∧ isFinite32 h.x2 = true ∧ isFinite32 h.y1 = true ∧ isFinite32 h.y2 = true

end Sys2Proof.Claims

open Sys2Proof Sys2Proof.Machine Sys2Proof.Claims

/-! ### Reset and invariants -/

/-- 10_state.md R37: after reset every register of the block holds zero, and memory is not reset. (Which MAX_CHANNELS the
reset state has is the model's choice, log 4; that its memory lists nothing, log 3.) -/
def Obligations.ResetLeavesEveryRegisterZero : Prop :=
  (∀ off, readOffset off State.reset = 0#64) ∧
  ∀ (s : State) (rest : List HostEvent), s.host = .reset :: rest → ∃ t, step s = .next t ∧
    (∀ off, readOffset off t = 0#64) ∧ t.status = 0#32 ∧ t.delay = List.replicate s.delay.length ⟨0#32, 0#32, 0#32, 0#32⟩ ∧
    t.mem = s.mem ∧ t.host = rest

/-- 10_state.md R36: the invariants hold after reset. -/
def Obligations.ResetStateMeetsInvariant : Prop := State.reset.Inv

/-- 10_state.md R36: every step keeps them, from every state that meets them. (For a PROCESS past the top of memory, whose
behaviour the spec leaves unspecified, this rests on the model's inference of log 8.) -/
def Obligations.EveryStepKeepsInvariant : Prop :=
  ∀ s t : State, s.Inv → step s = .next t → t.Inv

/-! ### Decoding, encoding, and the step -/

/-- 95_test_vectors.md 2.1: command words written out from 30_encoding.md R91 and R92. -/
def Obligations.DecodeReadsWrittenOutWords : Prop :=
  decode 0x0000000000000301#64 = .ok (.bqInit true true) ∧
  decode 0x0000000000000201#64 = .ok (.bqInit false true) ∧
  decode 0x0000000000000102#64 = .ok (.bqReinit true false) ∧
  decode 0x0000000000000103#64 = .ok (.bqProcess true) ∧
  decode 0x0000000000000305#64 = .ok (.lpfInit true true) ∧
  decode 0x0000000000000306#64 = .ok (.lpfReinit true true) ∧
  decode 0x0000000000000107#64 = .ok (.lpfProcess true) ∧
  decode 0x0000000000000303#64 = .error .descriptorBitInFormatP ∧
  decode 0x0000000000000304#64 = .error .reservedOpcode ∧
  decode 0x0000000000000311#64 = .error .zeroFieldNonzero ∧
  decode 0x0000000100000301#64 = .error .highHalfNonzero

/-- Decode and encode agree, on every well-formed instruction with every operand: a command, RD or WR is the one bus
transaction it encodes to (a WR to CMD of a word that decodes is that command, log 11), a pseudo-command the writes of
30_encoding.md R101, each a WR. -/
def Obligations.DecodeOfEncodedInstruction : Prop :=
  ∀ i : Instr, i.wellFormed = true →
    ((isPseudo i = false → (∀ v, i = .wr 0x000#16 v → ∃ e, decode v = .error e) →
      (encode i).map decodeAccess = [i]) ∧
    (∀ v j, i = .wr 0x000#16 v → decode v = .ok j → (encode i).map decodeAccess = [j]) ∧
    (isPseudo i = true → ∀ a ∈ encode i, ∃ off v, a = .write off v ∧ off.issuable = true ∧
      decodeAccess a = .wr off v))

/-- The other direction: a value that decodes has one meaning, and no bit of it is dropped. -/
def Obligations.EncodeOfDecodedWord : Prop :=
  ∀ (d : DWord) (i : Instr), decode d = .ok i → isCommand i = true ∧ encode i = [.write 0x000#16 d]

/-- 30_encoding.md R92: a word selects a command exactly when `(w & mask) = match`, and then IV is bit 8 and DV bit 9;
`d[63:32]` must be zero (R90). -/
def Obligations.DecoderAgreesWithMatchAndMask : Prop :=
  ∀ (d : DWord) (w : Word), w = d.setWidth 32 → ∀ iv dv : Bool,
    (decode d = .ok (.bqInit iv dv) ↔ d >>> 32 = 0#64 ∧ w &&& 0xFFFFFCFF#32 = 0x00000001#32 ∧
      w.getLsbD 8 = iv ∧ w.getLsbD 9 = dv) ∧
    (decode d = .ok (.bqReinit iv dv) ↔ d >>> 32 = 0#64 ∧ w &&& 0xFFFFFCFF#32 = 0x00000002#32 ∧
      w.getLsbD 8 = iv ∧ w.getLsbD 9 = dv) ∧
    (decode d = .ok (.bqProcess iv) ↔ d >>> 32 = 0#64 ∧ w &&& 0xFFFFFEFF#32 = 0x00000003#32 ∧ w.getLsbD 8 = iv) ∧
    (decode d = .ok (.lpfInit iv dv) ↔ d >>> 32 = 0#64 ∧ w &&& 0xFFFFFCFF#32 = 0x00000005#32 ∧
      w.getLsbD 8 = iv ∧ w.getLsbD 9 = dv) ∧
    (decode d = .ok (.lpfReinit iv dv) ↔ d >>> 32 = 0#64 ∧ w &&& 0xFFFFFCFF#32 = 0x00000006#32 ∧
      w.getLsbD 8 = iv ∧ w.getLsbD 9 = dv) ∧
    (decode d = .ok (.lpfProcess iv) ↔ d >>> 32 = 0#64 ∧ w &&& 0xFFFFFEFF#32 = 0x00000007#32 ∧ w.getLsbD 8 = iv)

/-- A step runs the instruction that the host's next register access decodes to, on the state without that event; so for a
command word placed by `withFetchWord` (log 1). -/
def Obligations.StepRunsDecodedInstruction : Prop :=
  (∀ (s : State) (a : BusAccess) (rest : List HostEvent), s.host = .bus a :: rest →
    step s = exec (decodeAccess a) { s with host := rest }) ∧
  ∀ (s : State) (nbits w : Nat) (i : Instr), decodeTableWord nbits w = some i →
    step (s.withFetchWord nbits w) = exec i s

/-- With no event pending a step changes nothing (log 1); the host's own memory accesses are seen by what follows them
(20_memory.md R70; log 13): a store changes its byte alone, a load answers the byte. -/
def Obligations.StepOfHostMemoryAccess : Prop :=
  (∀ s : State, s.host = [] → step s = .next s) ∧
  (∀ (s : State) (a : DWord) (b : Byte) (rest : List HostEvent), s.host = .memStore a b :: rest →
    ∃ t, step s = .next t ∧ readByte t.mem a.toNat = b ∧
      (∀ x, x ≠ a.toNat → readByte t.mem x = readByte s.mem x) ∧ t = { s with host := rest, mem := t.mem }) ∧
  ∀ (s : State) (a : DWord) (rest : List HostEvent), s.host = .memLoad a :: rest →
    step s = .next { s with host := rest, rdData := (readByte s.mem a.toNat).setWidth 64 }

/-! ### Register accesses -/

/-- 40_register_access.md R120 and R121: a WR to CMD runs the command its data decode to; a WR to an RW register stores
the bits of its field, whatever the value, and nothing else; a WR anywhere else does nothing. -/
def Obligations.HostWriteMeaning : Prop :=
  (∀ (d : DWord) (i : Instr) (s : State), decode d = .ok i → exec (.wr 0x000#16 d) s = exec i s) ∧
  (∀ (d : DWord) (e : DecodeError) (s : State), decode d = .error e →
    exec (.wr 0x000#16 d) s = .next (withResult 1#32 s)) ∧
  (∀ (off : Offset) (mask v : DWord) (s : State), (off, mask) ∈ rwFields → ∃ t, exec (.wr off v) s = .next t ∧
    readOffset off t = v &&& mask ∧ (∀ off', off' ≠ off → readOffset off' t = readOffset off' s) ∧
    t = { s with argOut := t.argOut, argIn := t.argIn, argCount := t.argCount, cd := t.cd, ld := t.ld }) ∧
  (∀ (off : Offset) (v : DWord) (s : State), off.issuable = true → off ≠ 0x000#16 → off ∉ rwFields.map (·.1) →
    exec (.wr off v) s = .next s)

/-- 40_register_access.md R122: an RD answers the register's field, zero-extended, and zero for CMD and every unmapped
offset; it changes no register (`rdData` is the answer itself, log 2). -/
def Obligations.HostReadMeaning : Prop :=
  (∀ (off : Offset) (v : DWord) (s : State), (off, v) ∈ readFields s →
    exec (.rd off) s = .next { s with rdData := v }) ∧
  (∀ (c : Nat) (off : Offset) (v : DWord) (s : State), c < 512 → (off, v) ∈ fileFields s c →
    exec (.rd off) s = .next { s with rdData := v }) ∧
  (∀ (off : Offset) (s : State), off.issuable = true → off ∉ (readFields s).map (·.1) →
    (∀ c, c < 512 → off ∉ (fileFields s c).map (·.1)) → exec (.rd off) s = .next { s with rdData := 0#64 })

/-- 30_encoding.md R99: only 8-byte-aligned accesses inside the block exist; the model refuses any other by name
(log 10). -/
def Obligations.UnissuableAccessIsRefused : Prop :=
  ∀ (off : Offset) (v : DWord) (s : State), off.toNat % 8 ≠ 0 ∨ 0x5000 ≤ off.toNat →
    exec (.wr off v) s = .refused (.accessCannotBeIssued off) ∧ exec (.rd off) s = .refused (.accessCannotBeIssued off)

/-- 40_register_access.md R123 and R124: the two `configure` operations fill their descriptor, without validation, and
touch nothing else. -/
def Obligations.ConfigureFillsDescriptor : Prop :=
  (∀ (fmt ch : DWord) (a0 a1 a2 b0 b1 b2 : F64) (s : State),
    exec (.bqConfigure fmt ch a0 a1 a2 b0 b1 b2) s =
      .next { s with cd := ⟨fmt.extractLsb' 0 32, ch.extractLsb' 0 32, a0, a1, a2, b0, b1, b2⟩ }) ∧
  ∀ (fmt ch fs fc : DWord) (s : State),
    exec (.lpfConfigure fmt ch fs fc) s =
      .next { s with ld := ⟨fmt.extractLsb' 0 32, ch.extractLsb' 0 32, fs.extractLsb' 0 32, fc.extractLsb' 0 32⟩ }

/-- 30_encoding.md R101: a pseudo-command is its writes, in any order: running them as host events gives what it gives. -/
def Obligations.ConfigureIsItsWritesInAnyOrder : Prop :=
  ∀ (i : Instr) (l : List BusAccess) (s : State), isPseudo i = true → l.Perm (encode i) →
    Sys2Proof.core.run l.length { s with host := l.map .bus ++ s.host } = exec i s

/-! ### Results and failures -/

/-- 60_exceptions.md R230: every command ends, and ends by writing SUCCESS or INVALID_ARGUMENT. -/
def Obligations.EveryCommandEndsWithResult : Prop :=
  ∀ (i : Instr) (s : State), isCommand i = true →
    ∃ t, exec i s = .next t ∧ (t.status = 0#32 ∨ t.status = 1#32)

/-- 60_exceptions.md R231: the causes, complete, and what each failure changes besides STATUS; an access that is no
command never fails and leaves STATUS. -/
def Obligations.FailureCausesComplete : Prop :=
  (∀ (i : Instr) (s : State), isCommand i = true →
    ∃ t, exec i s = .next t ∧ (t.status = 1#32 ↔ cause s i) ∧ (t.status = 0#32 ↔ ¬ cause s i) ∧
      (cause s i → t = withResult 1#32 (afterFailure s i))) ∧
  (∀ (d : DWord) (s : State), illegalWord d → exec (.wr 0x000#16 d) s = .next (withResult 1#32 s)) ∧
  ∀ (i : Instr) (s : State), i.wellFormed = true → isCommand i = false → (∀ d, i ≠ .wr 0x000#16 d) →
    ∃ t, exec i s = .next t ∧ t.status = s.status

/-- 30_encoding.md R97: which words are illegal, and that one changes STATUS.RESULT and nothing else; every other word is
one of the six commands. -/
def Obligations.IllegalWordChangesOnlyStatus : Prop :=
  ∀ (d : DWord),
    (illegalWord d → ∀ s : State, exec (.wr 0x000#16 d) s = .next (withResult 1#32 s)) ∧
    (¬ illegalWord d → ∃ i, isCommand i = true ∧ decodeAccess (.write 0x000#16 d) = i)

/-- 10_state.md R26: the state no command writes, and the state only some write: only PROCESS writes memory, only the
low-pass initialisations write LP_*, and MAX_CHANNELS is fixed. For a PROCESS past the top of memory the spec leaves all
behaviour unspecified (20_memory.md R67, U4): that its operands, instance, LP_* and MAX_CHANNELS stay there is the model's
inference (log 8, DEDUCED). -/
def Obligations.CommandFrame : Prop :=
  ∀ (i : Instr) (s t : State), isCommand i = true → exec i s = .next t →
    sameOperands s t ∧ t.delay.length = s.delay.length ∧
    ((∀ iv, ¬ processes iv i) → t.mem = s.mem) ∧
    ((∀ iv dv, i ≠ .lpfInit iv dv ∧ i ≠ .lpfReinit iv dv) → t.lp = s.lp) ∧
    (∀ iv, processes iv i → t.inst = s.inst)

/-! ### Initialisation -/

/-- 41_biquad_init.md R140: BQ_INIT clears the instance before any check but IV, then stores the descriptor normalised; the
delay line is left zero and LP_* untouched. -/
def Obligations.BqInitMeaning : Prop :=
  (∀ (dv : Bool) (s : State), exec (.bqInit false dv) s = .next (withResult 1#32 s)) ∧
  (∀ s : State, exec (.bqInit true false) s = .next (withResult 1#32 (clearedInstance s))) ∧
  (∀ s : State, ¬ acceptable s.cd s.maxChannels →
    exec (.bqInit true true) s = .next (withResult 1#32 (clearedInstance s))) ∧
  (∀ s : State, acceptable s.cd s.maxChannels → ∃ t, exec (.bqInit true true) s = .next t ∧
    normalisedFrom t.inst s.cd ∧
    t = { withResult 0#32 (clearedInstance s) with inst := t.inst, draws := t.draws })

/-- 41_biquad_init.md R141, with the identity test of R145: BQ_REINIT checks everything first, and on success stores the
descriptor normalised and leaves everything else, the delay line with it. -/
def Obligations.BqReinitMeaning : Prop :=
  (∀ (iv dv : Bool) (s : State), iv = false ∨ dv = false ∨ ¬ acceptable s.cd s.maxChannels →
    exec (.bqReinit iv dv) s = .next (withResult 1#32 s)) ∧
  (∀ s : State, acceptable s.cd s.maxChannels → ∃ t, exec (.bqReinit true true) s = .next t ∧
    normalisedFrom t.inst s.cd ∧ t = { withResult 0#32 s with inst := t.inst, draws := t.draws })

/-- 41_biquad_init.md R147 (and 43_lowpass.md R201): a REINIT, successful or not, leaves the delay line. -/
def Obligations.ReinitKeepsDelayLine : Prop :=
  ∀ (iv dv : Bool) (s : State), ∃ t u, exec (.bqReinit iv dv) s = .next t ∧ t.delay = s.delay ∧
    exec (.lpfReinit iv dv) s = .next u ∧ u.delay = s.delay

/-- 41_biquad_init.md R144: with the format and the channel count in order, BQ_REINIT refuses exactly +0.0 and -0.0 as
a0; every other pattern passes, NaNs, infinities and subnormals among them. -/
def Obligations.DivisionGuardRefusesExactlyZero : Prop :=
  ∀ s : State, knownFmt s.cd.fmt → s.cd.ch.toNat ≤ s.maxChannels →
    ∃ t, exec (.bqReinit true true) s = .next t ∧
      (t.status = 1#32 ↔ s.cd.a0 = 0x0000000000000000#64 ∨ s.cd.a0 = 0x8000000000000000#64)

/-- 41_biquad_init.md R146: a quotient by 1.0 is the numerator bit for bit, a -0.0 included, unless that is a NaN. -/
def Obligations.QuotientByOneIsExact : Prop :=
  ∀ (k : Nat) (a : F64), isNan64 a = false → ieee.fdiv64 k a 0x3FF0000000000000#64 = a

/-- 70_reset_and_hazards.md R262: on a zero-cleared context both PROCESS commands fail, a REINIT of either family with an
acceptable descriptor succeeds and does what the INIT of its family would, and BQ_INIT with a descriptor of format 0
fails, the context staying zero-cleared. (That REINIT and INIT give the same NaNs where a quotient is one rests on their
drawing alike, log 5.) -/
def Obligations.ReinitOfClearedContextIsInit : Prop :=
  (∀ s : State, s = clearedInstance s → acceptable s.cd s.maxChannels →
    ∃ t, exec (.bqReinit true true) s = .next t ∧ exec (.bqInit true true) s = .next t ∧ t.status = 0#32) ∧
  (∀ s : State, s = clearedContext s → knownFmt s.ld.fmt → s.ld.ch.toNat ≤ s.maxChannels →
    ∃ t, exec (.lpfReinit true true) s = .next t ∧ exec (.lpfInit true true) s = .next t ∧ t.status = 0#32) ∧
  (∀ (iv : Bool) (i : Instr) (s : State), processes iv i → s = clearedInstance s →
    exec i s = .next (withResult 1#32 s)) ∧
  ∀ s : State, s = clearedInstance s → s.cd.fmt = 0#32 → exec (.bqInit true true) s = .next (withResult 1#32 s)

/-! ### Processing -/

/-- 42_biquad_process.md R164: the passthrough path copies E bytes, or nothing in place; the result is SUCCESS and
everything else stays, the delay line with it. -/
def Obligations.PassthroughCopiesBytes : Prop :=
  ∀ (i : Instr) (s : State), processes true i → s.Inv → Runs s → s.inst.pt = true →
    (s.argOut = s.argIn → exec i s = .next (withResult 0#32 s)) ∧
    (s.argOut ≠ s.argIn → ∃ t, exec i s = .next t ∧
      (∀ j, j < bytesMoved s → readByte t.mem (s.argOut.toNat + j) = readByte s.mem (s.argIn.toNat + j)) ∧
      (∀ a, a < s.argOut.toNat ∨ s.argOut.toNat + bytesMoved s ≤ a → readByte t.mem a = readByte s.mem a) ∧
      t = { withResult 0#32 s with mem := t.mem })

/-- 42_biquad_process.md R165 to R173: the filtering path is, for each channel by itself, the recurrence of the filter
equation over that channel's samples as they stood before the command, in place or not: each output sample is written at
its own address, the history shifts at each frame, and the final history stays in the delay line. -/
def Obligations.FilterIsOneRecurrencePerChannel : Prop :=
  ∀ (i : Instr) (s : State), processes true i → s.Inv → Runs s → s.inst.pt = false →
    ∃ t, exec i s = .next t ∧ t.status = 0#32 ∧
    ∃ (H : Nat → Nat → Chan) (x y : Nat → Nat → F64),
      ∀ c, c < s.inst.ch.toNat → s.delay[c]? = some (H 0 c) ∧ t.delay[c]? = some (H s.argCount.toNat c) ∧
        ∀ n, n < s.argCount.toNat →
          sampleRead s.inst.fmt s.mem (sampleAt s s.argIn n c) (x n c) ∧
          filterEquation s.inst (H n c) (x n c) (y n c) ∧
          historyShift (H n c) (x n c) (y n c) (H (n + 1) c) ∧
          sampleWritten s.inst.fmt t.mem (sampleAt s s.argOut n c) (y n c) (H (n + 1) c)

/-- 42_biquad_process.md R161, 20_memory.md R61, 10_state.md R32: what a PROCESS leaves, whatever its outcome, in a state
that meets the invariants: the operand registers, the instance, the configuration copy, the history of channels not in
use, and every byte outside the output range; only a buffer past the top of the address space (log 8) may change other
bytes. -/
def Obligations.ProcessFrame : Prop :=
  ∀ (iv : Bool) (i : Instr) (s t : State), processes iv i → s.Inv → exec i s = .next t →
    sameOperands s t ∧ t.inst = s.inst ∧ t.lp = s.lp ∧ t.delay.length = s.delay.length ∧
    (∀ c, s.inst.ch.toNat ≤ c → t.delay[c]? = s.delay[c]?) ∧
    (pastTop s = false → ∀ a, a < s.argOut.toNat ∨ s.argOut.toNat + bytesMoved s ≤ a →
      readByte t.mem a = readByte s.mem a)

/-- 42_biquad_process.md R174: a stream may be cut at any frame boundary: two commands, the buffers advanced for the
second, leave the memory and the context that one command leaves. (That NaN results and out-of-range 16-bit samples, whose
bits the spec leaves open, come out the same rests on the two runs drawing alike: the model's choice, log 5 and log 6.) -/
def Obligations.StreamMayBeCutAnywhere : Prop :=
  ∀ (i : Instr) (s : State) (n1 n2 : DWord), processes true i → s.Inv → Runs s →
    s.argCount.toNat = n1.toNat + n2.toNat →
    ∀ moved, moved = n1.toNat * s.inst.ch.toNat * sampleBytes s.inst.fmt →
    s.argIn.toNat + moved < 2 ^ 64 → s.argOut.toNat + moved < 2 ^ 64 →
    ∃ t u v, exec i s = .next t ∧ exec i { s with argCount := n1 } = .next u ∧
      exec i { u with argCount := n2, argIn := BitVec.ofNat 64 (s.argIn.toNat + moved),
                      argOut := BitVec.ofNat 64 (s.argOut.toNat + moved) } = .next v ∧
      v.mem = t.mem ∧ v.inst = t.inst ∧ v.delay = t.delay ∧ v.lp = t.lp ∧ v.status = t.status

/-- 42_biquad_process.md R175: in place, a PROCESS leaves in the buffer the bytes it would have written to a disjoint
output buffer, and the same final context. (That NaN results and out-of-range 16-bit samples, whose bits the spec leaves
open, come out the same rests on the two runs drawing alike: the model's choice, log 5 and log 6.) -/
def Obligations.InPlaceEqualsTwoBuffers : Prop :=
  ∀ (i : Instr) (s : State), processes true i → s.Inv → Runs s → s.argOut ≠ s.argIn →
    ∃ t u, exec i s = .next t ∧ exec i { s with argOut := s.argIn } = .next u ∧
      (∀ j, j < bytesMoved s → readByte u.mem (s.argIn.toNat + j) = readByte t.mem (s.argOut.toNat + j)) ∧
      u.inst = t.inst ∧ u.delay = t.delay ∧ u.lp = t.lp ∧ u.status = t.status

/-- 42_biquad_process.md R176(a) and (b): no frames, or no channels: SUCCESS, and nothing else changes. -/
def Obligations.NoFramesOrNoChannelsChangesNothing : Prop :=
  ∀ (i : Instr) (s : State), processes true i → s.argOut ≠ 0#64 → s.argIn ≠ 0#64 →
    (s.inst.pt = true ∨ knownFmt s.inst.fmt) → (s.argCount = 0#64 ∨ s.inst.ch = 0#32) →
    exec i s = .next (withResult 0#32 s)

/-- 20_memory.md R67, R68 and 60_exceptions.md R238: buffers that overlap in part or leave the address space are no error:
the command completes with SUCCESS. (Their outcome is free in the model, log 7 and log 8.) -/
def Obligations.UnsupportedBuffersAreNoError : Prop :=
  ∀ (i : Instr) (s : State), processes true i → s.argOut ≠ 0#64 → s.argIn ≠ 0#64 →
    (s.inst.pt = true ∨ knownFmt s.inst.fmt) → (pastTop s = true ∨ partialOverlap s = true) →
    ∃ t, exec i s = .next t ∧ t.status = 0#32

/-- 42_biquad_process.md R168: an integer sample is scaled exactly, to s / 32768. -/
def Obligations.IntegerSampleIsScaledExactly : Prop :=
  ∀ (k a : Nat) (m : Memory) (x0 : F64), x0 = readSample ieee k 2#32 m a →
    isFinite64 x0 = true ∧ val64 x0 * 32768 = (read16 m a).toInt * (unit64 : Int)

/-- 42_biquad_process.md R172, its consequence for coefficients that are the identity after normalisation but not before:
a sample s comes out as trunc(s * 32767 / 32768). First the two conversions composed, for each of the 65536 samples; then a
PROCESS of either family, in place or not, on every frame of a channel whose history holds no NaN or infinity (a zero
coefficient times one is a NaN, R176(d)). -/
def Obligations.UnitGainTruncatesTowardZero : Prop :=
  (∀ (k k' a : Nat) (m : Memory) (x0 : F64), x0 = readSample ieee k 2#32 m a →
    (outI16 ieee k' x0).toInt = ((read16 m a).toInt * 32767).tdiv 32768) ∧
  ∀ (i : Instr) (s : State), processes true i → s.Inv → Runs s → ScaledIdentity s.inst →
    ∃ t, exec i s = .next t ∧ t.status = 0#32 ∧
      ∀ c, c < s.inst.ch.toNat → finiteHistory (s.chan c) → ∀ n, n < s.argCount.toNat →
        (read16 t.mem (sampleAt s s.argOut n c)).toInt =
          ((read16 s.mem (sampleAt s s.argIn n c)).toInt * 32767).tdiv 32768

/-- 42_biquad_process.md R170: in the float format the value stored in X1 is the input sample itself, bit for bit, unless
it is a NaN. -/
def Obligations.FloatSampleIsStoredExactly : Prop :=
  ∀ (k k' : Nat) (a : F32), isNan32 a = false → ieee.f64ToF32 k' (ieee.f32ToF64 k a) = a

/-- 70_reset_and_hazards.md R274: once a NaN is in Y1 or X1 of a channel, every later output of that channel is a NaN, and
Y1 stays one. -/
def Obligations.NanIsSticky : Prop :=
  ∀ (i : Instr) (s : State) (c : Nat), processes true i → s.Inv → Runs s → s.inst.pt = false → c < s.inst.ch.toNat →
    (isNan32 (s.chan c).y1 = true ∨ isNan32 (s.chan c).x1 = true) →
    ∃ t, exec i s = .next t ∧
      (∀ n, n < s.argCount.toNat → s.inst.fmt = 5#32 → isNan32 (read32 t.mem (sampleAt s s.argOut n c)) = true) ∧
      (s.argCount ≠ 0#64 → isNan32 (t.chan c).y1 = true)

/-- 43_lowpass.md R212 and 10_state.md R31, R35: PROCESS reads neither descriptor, nor the configuration copy, nor BQ_A0:
other values there change nothing it does. (Where the spec leaves the outcome open, in NaN bits, out-of-range 16-bit
samples, partially overlapping buffers and buffers past the top of memory, that the two runs agree is the model's: its free
values are drawn without looking at those registers, log 5, log 6, log 7 and log 8.) -/
def Obligations.ProcessIgnoresDescriptors : Prop :=
  ∀ (iv : Bool) (i : Instr) (s : State) (cd : BqDescr) (ld lp : LpConfig) (a0 : F64), processes iv i →
    ∃ t, exec i s = .next t ∧
      exec i { s with cd := cd, ld := ld, lp := lp, inst := { s.inst with a0 := a0 } } =
        .next { t with cd := cd, ld := ld, lp := lp, inst := { t.inst with a0 := a0 } }

/-! ### The low-pass commands -/

/-- 43_lowpass.md R200: LPF_INIT clears the whole context before any check but IV, then stores the derived coefficients
normalised and copies the configuration; CD_* is untouched. An acceptable low-pass descriptor needs no check of a0
(R210). -/
def Obligations.LpfInitMeaning : Prop :=
  (∀ (dv : Bool) (s : State), exec (.lpfInit false dv) s = .next (withResult 1#32 s)) ∧
  (∀ s : State, exec (.lpfInit true false) s = .next (withResult 1#32 (clearedContext s))) ∧
  (∀ s : State, ¬ (knownFmt s.ld.fmt ∧ s.ld.ch.toNat ≤ s.maxChannels) →
    exec (.lpfInit true true) s = .next (withResult 1#32 (clearedContext s))) ∧
  (∀ s : State, knownFmt s.ld.fmt → s.ld.ch.toNat ≤ s.maxChannels → ∃ t d, exec (.lpfInit true true) s = .next t ∧
    lowpassFrom s.ld d ∧ normalisedFrom t.inst d ∧
    t = { withResult 0#32 (clearedContext s) with inst := t.inst, lp := s.ld, draws := t.draws })

/-- 43_lowpass.md R201: LPF_REINIT checks everything first; on success it stores the derived coefficients and the
configuration copy and leaves everything else. -/
def Obligations.LpfReinitMeaning : Prop :=
  (∀ (iv dv : Bool) (s : State),
    iv = false ∨ dv = false ∨ ¬ (knownFmt s.ld.fmt ∧ s.ld.ch.toNat ≤ s.maxChannels) →
    exec (.lpfReinit iv dv) s = .next (withResult 1#32 s)) ∧
  (∀ s : State, knownFmt s.ld.fmt → s.ld.ch.toNat ≤ s.maxChannels → ∃ t d, exec (.lpfReinit true true) s = .next t ∧
    lowpassFrom s.ld d ∧ normalisedFrom t.inst d ∧
    t = { withResult 0#32 s with inst := t.inst, lp := s.ld, draws := t.draws })

/-- 43_lowpass.md R202: `LPF_PROCESS(iv) = BQ_PROCESS(iv)`. -/
def Obligations.LpfProcessIsBqProcess : Prop :=
  ∀ (iv : Bool) (s : State), exec (.lpfProcess iv) s = exec (.bqProcess iv) s

/-- 43_lowpass.md R210: whatever the two frequencies, the derived a0 is not zero, so the a0 guard never refuses a low-pass
descriptor. -/
def Obligations.LowpassA0IsNeverZero : Prop :=
  ∀ (l : LpConfig) (d : BqDescr), lowpassFrom l d → ¬ isZero d.a0

/-- 43_lowpass.md R208(a): a zero cutoff gives 1.0, -2.0, 1.0, +0.0, +0.0, +0.0 and no passthrough, at every sample rate
but zero, by LPF_INIT and by LPF_REINIT. -/
def Obligations.ZeroCutoffCoefficients : Prop :=
  ∀ (i : Instr) (s : State), (i = .lpfInit true true ∨ i = .lpfReinit true true) →
    knownFmt s.ld.fmt → s.ld.ch.toNat ≤ s.maxChannels → s.ld.fc = 0#32 → s.ld.fs ≠ 0#32 →
    ∃ t, exec i s = .next t ∧ t.status = 0#32 ∧
      t.inst = ⟨s.ld.fmt, s.ld.ch, false, 0x3FF0000000000000#64, 0xC000000000000000#64, 0x3FF0000000000000#64,
        0x0000000000000000#64, 0x0000000000000000#64, 0x0000000000000000#64⟩

/-- 43_lowpass.md R208(b) and (c): a zero sample rate makes every coefficient a NaN, and still succeeds, by LPF_INIT and by
LPF_REINIT. -/
def Obligations.ZeroSampleRateGivesNanCoefficients : Prop :=
  ∀ (i : Instr) (s : State), (i = .lpfInit true true ∨ i = .lpfReinit true true) →
    knownFmt s.ld.fmt → s.ld.ch.toNat ≤ s.maxChannels → s.ld.fs = 0#32 →
    ∃ t, exec i s = .next t ∧ t.status = 0#32 ∧ t.inst.pt = false ∧
      isNan64 t.inst.a0 = true ∧ isNan64 t.inst.a1 = true ∧ isNan64 t.inst.a2 = true ∧
      isNan64 t.inst.b0 = true ∧ isNan64 t.inst.b1 = true ∧ isNan64 t.inst.b2 = true

/-- 43_lowpass.md R206, P1, P2 and P3 (P4 is in the bracket of log 9, P5 in their being functions). -/
def Obligations.SineAndCosineProperties : Prop :=
  ieee.sin64 0x0000000000000000#64 = 0x0000000000000000#64 ∧
  ieee.cos64 0x0000000000000000#64 = 0x3FF0000000000000#64 ∧
  (∀ w : F64, isFinite64 w = true →
    isFinite64 (ieee.sin64 w) = true ∧ (val64 (ieee.sin64 w)).natAbs ≤ unit64 ∧
    isFinite64 (ieee.cos64 w) = true ∧ (val64 (ieee.cos64 w)).natAbs ≤ unit64) ∧
  ∀ w : F64, isFinite64 w = false → isNan64 (ieee.sin64 w) = true ∧ isNan64 (ieee.cos64 w) = true

/-! ### Memory and arithmetic -/

/-- 20_memory.md R62: little-endian: bits 8i+7 to 8i of what is read at `a` are the byte at `a + i`, and the same bits of
what is stored go there. -/
def Obligations.SamplesAreLittleEndian : Prop :=
  (∀ (m : Memory) (a i : Nat), i < 2 → (read16 m a).extractLsb' (8 * i) 8 = readByte m (a + i)) ∧
  (∀ (m : Memory) (a i : Nat), i < 4 → (read32 m a).extractLsb' (8 * i) 8 = readByte m (a + i)) ∧
  (∀ (m : Memory) (a i : Nat) (v : BitVec 16), a + 2 ≤ 2 ^ 64 → i < 2 →
    readByte (write16 m a v) (a + i) = v.extractLsb' (8 * i) 8) ∧
  (∀ (m : Memory) (a i : Nat) (v : BitVec 32), a + 4 ≤ 2 ^ 64 → i < 4 →
    readByte (write32 m a v) (a + i) = v.extractLsb' (8 * i) 8)

/-- Two memories in canonical form that read the same at every address are the same data (20_memory.md R60). -/
def Obligations.EqualReadsAreEqualMemories : Prop :=
  ∀ m m' : Memory, m.wf → m'.wf → (∀ a, readByte m a = readByte m' a) → m = m'

/-- 00_scope.md R10: sum, difference, product and quotient of finite operands are the exact result rounded once, to
nearest, ties to even, with overflow to an infinity. So is the narrowing to binary32, which fixes every Y1 and every F32
output (42_biquad_process.md R169, R170, 90_conflicts.md C7), on every binary64: too large a magnitude to an infinity, a
tiny one to a subnormal or a zero, the sign kept, a NaN to some NaN. (R10 names IEEE 754; the overflow bounds and the signs
are what that standard says, log 21.) -/
def Obligations.ArithmeticRoundsToNearest : Prop :=
  (∀ (k : Nat) (a b : F64), isFinite64 a = true → isFinite64 b = true →
    rounded64 (ieee.fadd64 k a b) (val64 a + val64 b) 1 ∧
    rounded64 (ieee.fsub64 k a b) (val64 a - val64 b) 1 ∧
    rounded64 (ieee.fmul64 k a b) (val64 a * val64 b) unit64 ∧
    (¬ isZero b → rounded64 (ieee.fdiv64 k a b) (val64 a * unit64 * (val64 b).sign) (val64 b).natAbs)) ∧
  ∀ (k : Nat) (a : F64), ∃ r, r = ieee.f64ToF32 k a ∧
    (isNan64 a = true → isNan32 r = true) ∧
    (isNan64 a = false → sign32 r = sign64 a) ∧
    (isInf64 a = true → isInf32 r = true) ∧
    (isFinite64 a = true → rounded32 r (val64 a) unit32)

/-- 00_scope.md R10, 42_biquad_process.md R166: the widening of a binary32 and the conversions of integers are exact. (That a
NaN widens to some NaN, and no more, is the model's inference, log 12.) -/
def Obligations.WideningIsExact : Prop :=
  (∀ (k : Nat) (a : F32), (isNan32 a = true → isNan64 (ieee.f32ToF64 k a) = true) ∧
    (isNan32 a = false → sign64 (ieee.f32ToF64 k a) = sign32 a) ∧
    (isInf32 a = true → isInf64 (ieee.f32ToF64 k a) = true) ∧
    (isFinite32 a = true → isFinite64 (ieee.f32ToF64 k a) = true ∧ val64 (ieee.f32ToF64 k a) = val32 a * unit32)) ∧
  (∀ h : BitVec 16, isFinite64 (ieee.i16ToF64 h) = true ∧ val64 (ieee.i16ToF64 h) = h.toInt * unit64) ∧
  ∀ u : Word, isFinite64 (ieee.u32ToF64 u) = true ∧ val64 (ieee.u32ToF64 u) = (u.toNat : Int) * unit64
end

