-- ==== Sys2Proof/Laws/Float.lean ====
section
/-! SUPPORT. The laws of the floating-point primitives: NaNs, exact results, and how a NaN spreads. -/

namespace Sys2Proof.Machine

/-! ### Packing and unpacking -/

theorem unit64_pos : 0 < unit64 := by unfold unit64; positivity

theorem unit32_pos : 0 < unit32 := by unfold unit32; positivity

theorem pat64_pack64 (s : Bool) (p : Nat) (h : p < 2 ^ 63) : pat64 (pack64 s p) = p := by
  unfold pat64 pack64
  rw [BitVec.toNat_ofNat]
  cases s <;> simp <;> omega

theorem sign64_eq (a : F64) : sign64 a = decide (2 ^ 63 ≤ a.toNat) := BitVec.msb_eq_decide a

theorem sign64_pack64 (s : Bool) (p : Nat) (h : p < 2 ^ 63) : sign64 (pack64 s p) = s := by
  rw [sign64_eq]
  unfold pack64
  rw [BitVec.toNat_ofNat]
  cases s <;> simp <;> omega

/-- A binary64 is its sign and the rest of its pattern. -/
theorem pack64_sign64_pat64 (a : F64) : pack64 (sign64 a) (pat64 a) = a := by
  apply BitVec.eq_of_toNat_eq
  have := a.isLt
  unfold pack64 pat64
  rw [BitVec.toNat_ofNat, sign64_eq]
  simp only [decide_eq_true_eq]
  split <;> omega

theorem pat64_lt (a : F64) : pat64 a < 2 ^ 63 := Nat.mod_lt _ (Nat.two_pow_pos 63)

theorem pat32_pack32 (s : Bool) (p : Nat) (h : p < 2 ^ 31) : pat32 (pack32 s p) = p := by
  unfold pat32 pack32
  rw [BitVec.toNat_ofNat]
  cases s <;> simp <;> omega

theorem sign32_eq (a : F32) : sign32 a = decide (2 ^ 31 ≤ a.toNat) := BitVec.msb_eq_decide a

theorem pack32_sign32_pat32 (a : F32) : pack32 (sign32 a) (pat32 a) = a := by
  apply BitVec.eq_of_toNat_eq
  have := a.isLt
  unfold pack32 pat32
  rw [BitVec.toNat_ofNat, sign32_eq]
  simp only [decide_eq_true_eq]
  split <;> omega

/-! ### Every pattern is a NaN, an infinity or finite -/

theorem isNan64_eq_false {a : F64} : isNan64 a = false ↔ pat64 a ≤ inf64 := by simp [isNan64]

theorem isFinite64_iff {a : F64} : isFinite64 a = true ↔ pat64 a < inf64 := by simp [isFinite64]

theorem isNan64_of_finite {a : F64} (h : isFinite64 a = true) : isNan64 a = false := by
  simp [isFinite64, isNan64] at *; omega

theorem isInf64_of_finite {a : F64} (h : isFinite64 a = true) : isInf64 a = false := by
  simp [isFinite64, isInf64] at *; omega

theorem isFinite64_of_not {a : F64} (h1 : isNan64 a = false) (h2 : isInf64 a = false) : isFinite64 a = true := by
  simp [isFinite64, isNan64, isInf64] at *; omega

/-- `forceNan64` gives a NaN. -/
@[simp] theorem isNan64_forceNan64 (b : F64) : isNan64 (forceNan64 b) = true := by
  unfold forceNan64
  simp only
  have hge : inf64 ≤ pat64 (b ||| 0x7FF0000000000000#64) := by
    unfold pat64
    rw [BitVec.toNat_or, Nat.or_mod_two_pow]
    exact Nat.right_le_or
  split
  · assumption
  · rename_i h
    have he : pat64 (b ||| 0x7FF0000000000000#64) = inf64 := by
      have := isNan64_eq_false.mp (Bool.eq_false_iff.mpr h)
      omega
    unfold isNan64
    have : pat64 ((b ||| 0x7FF0000000000000#64) ||| 0x0008000000000000#64) = inf64 ||| 0x0008000000000000 := by
      unfold pat64 at he ⊢
      rw [BitVec.toNat_or, Nat.or_mod_two_pow, he]
      rfl
    rw [this]
    decide

/-- Every NaN is what `forceNan64` makes of some bits: the free NaN can be any. -/
theorem forceNan64_of_isNan64 {b : F64} (h : isNan64 b = true) : forceNan64 b = b := by
  have hq : b ||| 0x7FF0000000000000#64 = b := by
    have h1 : inf64 < pat64 b := by simpa [isNan64] using h
    have hmask : ∀ x : Nat, x < 2 ^ 63 → 0x7FF0000000000000 ≤ x → x / 2 ^ 52 = 0x7FF := by
      intro x hx hl; omega
    have he := hmask _ (pat64_lt b) (Nat.le_of_lt h1)
    apply BitVec.eq_of_getLsbD_eq
    intro i hi
    rw [BitVec.getLsbD_or]
    by_cases h52 : 52 ≤ i ∧ i < 63
    · have : b.getLsbD i = true := by
        have hb : (pat64 b / 2 ^ 52).testBit (i - 52) = true := by
          rw [he]
          obtain ⟨h1, h2⟩ := h52
          have : i - 52 < 11 := by omega
          generalize i - 52 = j at this
          interval_cases j <;> decide
        rw [Nat.testBit_div_two_pow, show i - 52 + 52 = i by omega] at hb
        unfold pat64 at hb
        rw [Nat.testBit_mod_two_pow] at hb
        simpa [BitVec.getLsbD] using (Bool.and_eq_true _ _ ▸ hb).2
      simp [this]
    · have : (0x7FF0000000000000#64).getLsbD i = false := by
        have h64 : i < 64 := hi
        rcases Nat.lt_or_ge i 52 with h | h
        · interval_cases i <;> decide
        · have : i = 63 := by omega
          subst this; decide
      simp [this]
  unfold forceNan64
  simp [hq, h]

@[simp] theorem isNan32_forceNan32 (b : F32) : isNan32 (forceNan32 b) = true := by
  unfold forceNan32
  simp only
  have hge : inf32 ≤ pat32 (b ||| 0x7F800000#32) := by
    unfold pat32
    rw [BitVec.toNat_or, Nat.or_mod_two_pow]
    exact Nat.right_le_or
  split
  · assumption
  · rename_i h
    have he : pat32 (b ||| 0x7F800000#32) = inf32 := by
      simp [isNan32] at h
      omega
    unfold isNan32
    have : pat32 ((b ||| 0x7F800000#32) ||| 0x00400000#32) = inf32 ||| 0x00400000 := by
      unfold pat32 at he ⊢
      rw [BitVec.toNat_or, Nat.or_mod_two_pow, he]
      rfl
    rw [this]
    decide

@[simp] theorem isNan64_freeNan64 (k : Nat) : isNan64 (freeNan64 k) = true := isNan64_forceNan64 _

@[simp] theorem isNan32_freeNan32 (k : Nat) : isNan32 (freeNan32 k) = true := isNan32_forceNan32 _

/-! ### How a NaN spreads -/

theorem isNan64_ieeeNeg (a : F64) : isNan64 (ieeeNeg a) = isNan64 a := by
  unfold isNan64 ieeeNeg pat64
  rw [BitVec.toNat_xor, Nat.xor_mod_two_pow]
  simp

theorem ieeeAdd_nan_left {k : Nat} {a : F64} (b : F64) (h : isNan64 a = true) : isNan64 (ieeeAdd k a b) = true := by
  simp [ieeeAdd, h]

theorem ieeeAdd_nan_right {k : Nat} (a : F64) {b : F64} (h : isNan64 b = true) : isNan64 (ieeeAdd k a b) = true := by
  simp [ieeeAdd, h]

theorem ieeeSub_nan_left {k : Nat} {a : F64} (b : F64) (h : isNan64 a = true) : isNan64 (ieeeSub k a b) = true :=
  ieeeAdd_nan_left _ h

theorem ieeeSub_nan_right {k : Nat} (a : F64) {b : F64} (h : isNan64 b = true) : isNan64 (ieeeSub k a b) = true :=
  ieeeAdd_nan_right _ (by rwa [isNan64_ieeeNeg])

theorem ieeeMul_nan_left {k : Nat} {a : F64} (b : F64) (h : isNan64 a = true) : isNan64 (ieeeMul k a b) = true := by
  simp [ieeeMul, h]

theorem ieeeMul_nan_right {k : Nat} (a : F64) {b : F64} (h : isNan64 b = true) : isNan64 (ieeeMul k a b) = true := by
  simp [ieeeMul, h]

theorem ieeeDiv_nan_left {k : Nat} {a : F64} (b : F64) (h : isNan64 a = true) : isNan64 (ieeeDiv k a b) = true := by
  simp [ieeeDiv, h]

theorem ieeeDiv_nan_right {k : Nat} (a : F64) {b : F64} (h : isNan64 b = true) : isNan64 (ieeeDiv k a b) = true := by
  simp [ieeeDiv, h]

theorem ieeeF32ToF64_nan {k : Nat} {a : F32} (h : isNan32 a = true) : isNan64 (ieeeF32ToF64 k a) = true := by
  simp [ieeeF32ToF64, h]

theorem ieeeF64ToF32_nan {k : Nat} {a : F64} (h : isNan64 a = true) : isNan32 (ieeeF64ToF32 k a) = true := by
  simp [ieeeF64ToF32, h]

/-! ### IEEE equality -/

/-- IEEE equality with a value that is neither a zero nor a NaN is equality of patterns. -/
theorem ieeeEq_nonzero {a b : F64} (hb : isNan64 b = false) (hz : isZero64 b = false) :
    ieeeEq a b = true ↔ a = b := by
  constructor
  · intro h; simp [ieeeEq, hb, hz] at h; exact h.2
  · rintro rfl; simp [ieeeEq, hb]

/-- The two zeros are the patterns without a bit below the sign. -/
theorem isZero64_iff (a : F64) : isZero64 a = true ↔ a = 0x0000000000000000#64 ∨ a = 0x8000000000000000#64 := by
  unfold isZero64 pat64
  simp only [decide_eq_true_eq]
  constructor
  · intro h
    have := a.isLt
    have : a.toNat = 0 ∨ a.toNat = 2 ^ 63 := by omega
    rcases this with h | h
    · exact .inl (BitVec.eq_of_toNat_eq (by simpa using h))
    · exact .inr (BitVec.eq_of_toNat_eq (by simpa using h))
  · rintro (rfl | rfl) <;> rfl

/-- IEEE equality with +0.0: exactly the two zeros (41_biquad_init.md R144). -/
theorem ieeeEq_zero (a : F64) :
    ieeeEq a 0x0000000000000000#64 = true ↔ a = 0x0000000000000000#64 ∨ a = 0x8000000000000000#64 := by
  rw [← isZero64_iff]
  have hz : isZero64 0x0000000000000000#64 = true := by decide
  have hn : isNan64 0x0000000000000000#64 = false := by decide
  constructor
  · intro h
    simp only [ieeeEq, hz, hn, Bool.and_true, Bool.not_false, Bool.and_eq_true, Bool.or_eq_true,
      decide_eq_true_eq] at h
    rcases h.2 with rfl | h
    · exact hz
    · exact h
  · intro h
    have : isNan64 a = false := by
      simp [isZero64] at h; simp [isNan64, h]
    simp [ieeeEq, h, hz, hn, this]

/-! ### Rounding -/

theorem nearestEven_exact (q d : Nat) (hd : 0 < d) : nearestEven (q * d) d = q := by
  simp [nearestEven, Nat.mul_div_cancel _ hd, hd]

theorem patternOf_le (r : Nat → Nat → Nat) (fb top n d : Nat) : patternOf r fb top n d ≤ top := by
  simp [patternOf]

theorem isNan64_round64 (s : Bool) (n d : Nat) : isNan64 (round64 s n d) = false := by
  have := patternOf_le nearestEven 52 inf64 n d
  rw [isNan64_eq_false, round64, pat64_pack64 _ _ (by simp [inf64] at *; omega)]
  exact this

/-- A finite magnitude is found again: rounding what a pattern stands for gives that pattern. -/
theorem patternOf_magOf (fb top p d : Nat) (hp : p < top) (hd : 0 < d) :
    patternOf nearestEven fb top (magOf fb p * d) d = p := by
  have hpow : 0 < 2 ^ fb := Nat.two_pow_pos fb
  have hmod : p % 2 ^ fb < 2 ^ fb := Nat.mod_lt _ hpow
  have hdm : 2 ^ fb * (p / 2 ^ fb) + p % 2 ^ fb = p := Nat.div_add_mod p (2 ^ fb)
  unfold patternOf
  simp only [Nat.mul_div_cancel _ hd]
  unfold magOf
  generalize hf : p % 2 ^ fb = f at *
  generalize he : p / 2 ^ fb = e at *
  have h2 : 2 ^ (fb + 1) = 2 * 2 ^ fb := by rw [Nat.pow_succ, Nat.mul_comm]
  rcases e with _ | _ | e
  · have hlt : p < 2 ^ (fb + 1) := by omega
    rw [if_pos rfl, if_pos hlt]
    simp only [Nat.zero_mul, Nat.pow_zero, Nat.mul_one, Nat.zero_add, nearestEven_exact _ _ hd]
    omega
  · have : (2 ^ fb + f) * 2 ^ (0 + 1 - 1) = p := by simp; omega
    rw [if_neg (Nat.succ_ne_zero 0), this, if_pos (by omega)]
    simp only [Nat.zero_mul, Nat.pow_zero, Nat.mul_one, Nat.zero_add, nearestEven_exact _ _ hd]
    omega
  · have hk : e + 1 + 1 - 1 = e + 1 := by omega
    rw [if_neg (Nat.succ_ne_zero (e + 1)), hk]
    have hge : 2 ^ (fb + 1) ≤ (2 ^ fb + f) * 2 ^ (e + 1) := by
      rw [h2, Nat.pow_succ]
      have := Nat.two_pow_pos e
      nlinarith
    rw [if_neg (by omega)]
    have hlog : ((2 ^ fb + f) * 2 ^ (e + 1)).log2 = fb + (e + 1) := by
      rw [Nat.log2_eq_iff (by positivity)]
      constructor
      · rw [Nat.pow_add]; exact Nat.mul_le_mul_right _ (by omega)
      · rw [show fb + (e + 1) + 1 = (fb + 1) + (e + 1) by omega, Nat.pow_add 2 (fb + 1)]
        exact Nat.mul_lt_mul_of_pos_right (by omega) (Nat.two_pow_pos _)
    rw [hlog, show fb + (e + 1) - fb = e + 1 by omega]
    rw [show (2 ^ fb + f) * 2 ^ (e + 1) * d = (2 ^ fb + f) * (d * 2 ^ (e + 1)) by ring,
      nearestEven_exact _ _ (by positivity)]
    have : (e + 1) * 2 ^ fb + (2 ^ fb + f) = p := by rw [← hdm]; ring
    omega

/-- Magnitudes rise with patterns. -/
theorem magOf_lt_succ (fb p : Nat) : magOf fb p < magOf fb (p + 1) := by
  have hpow : 0 < 2 ^ fb := Nat.two_pow_pos fb
  have hmod : p % 2 ^ fb < 2 ^ fb := Nat.mod_lt _ hpow
  have hdm : 2 ^ fb * (p / 2 ^ fb) + p % 2 ^ fb = p := Nat.div_add_mod p (2 ^ fb)
  by_cases hc : p % 2 ^ fb + 1 < 2 ^ fb
  · have e1 : (p + 1) / 2 ^ fb = p / 2 ^ fb := by
      rw [Nat.div_eq_iff hpow]; constructor
      · rw [Nat.mul_comm]; omega
      · have : p / 2 ^ fb * 2 ^ fb = 2 ^ fb * (p / 2 ^ fb) := Nat.mul_comm _ _
        omega
    have e2 : (p + 1) % 2 ^ fb = p % 2 ^ fb + 1 := by
      have := Nat.div_add_mod (p + 1) (2 ^ fb)
      rw [e1] at this; omega
    unfold magOf
    rw [e1, e2]
    split
    · omega
    · exact Nat.mul_lt_mul_of_pos_right (by omega) (Nat.two_pow_pos _)
  · have hm : p % 2 ^ fb = 2 ^ fb - 1 := by omega
    have e1 : (p + 1) / 2 ^ fb = p / 2 ^ fb + 1 := by
      rw [Nat.div_eq_iff hpow]; constructor
      · rw [Nat.add_mul, Nat.mul_comm]; omega
      · rw [Nat.add_mul, Nat.mul_comm]; omega
    have e2 : (p + 1) % 2 ^ fb = 0 := by
      have := Nat.div_add_mod (p + 1) (2 ^ fb)
      rw [e1, Nat.mul_add] at this; omega
    unfold magOf
    rw [e1, e2]
    simp only [Nat.add_eq_zero_iff, Nat.one_ne_zero, and_false, if_false, Nat.add_zero, Nat.add_sub_cancel]
    split
    · rename_i h0; rw [h0]; simp only [Nat.pow_zero, Nat.mul_one]; rw [h0] at hdm; omega
    · rename_i h0
      obtain ⟨e, he⟩ := Nat.exists_eq_succ_of_ne_zero h0
      rw [hm, he]
      simp only [Nat.succ_eq_add_one, Nat.add_sub_cancel]
      rw [Nat.pow_succ, ← Nat.mul_assoc]
      have := Nat.two_pow_pos e
      have : (2 ^ fb + (2 ^ fb - 1)) * 2 ^ e < 2 ^ fb * 2 * 2 ^ e :=
        Nat.mul_lt_mul_of_pos_right (by omega) this
      calc _ < 2 ^ fb * 2 * 2 ^ e := this
        _ = 2 ^ fb * 2 ^ e * 2 := by ring

theorem magOf_strictMono (fb : Nat) : StrictMono (magOf fb) := strictMono_nat_of_lt_succ (magOf_lt_succ fb)

/-- Every multiple of a power of two with few enough significant bits is what some pattern stands for. -/
theorem exists_magOf (fb m j : Nat) (hm : m < 2 ^ (fb + 1)) : ∃ p, magOf fb p = m * 2 ^ j := by
  induction j generalizing m with
  | zero =>
    refine ⟨m, ?_⟩
    have hpow : 0 < 2 ^ fb := Nat.two_pow_pos fb
    have h2 : 2 ^ (fb + 1) = 2 * 2 ^ fb := by rw [Nat.pow_succ, Nat.mul_comm]
    have hdm := Nat.div_add_mod m (2 ^ fb)
    unfold magOf
    split
    · simp
    · rename_i h0
      have h1 : m / 2 ^ fb < 2 := by
        rw [Nat.div_lt_iff_lt_mul hpow]; omega
      have : m / 2 ^ fb = 1 := by
        generalize m / 2 ^ fb = q at *
        omega
      rw [this] at hdm ⊢
      simp; omega
  | succ j ih =>
    by_cases hs : 2 * m < 2 ^ (fb + 1)
    · obtain ⟨p, hp⟩ := ih (2 * m) hs
      exact ⟨p, by rw [hp, Nat.pow_succ]; ring⟩
    · have hpow : 0 < 2 ^ fb := Nat.two_pow_pos fb
      have h2 : 2 ^ (fb + 1) = 2 * 2 ^ fb := by rw [Nat.pow_succ, Nat.mul_comm]
      refine ⟨(j + 1 + 1) * 2 ^ fb + (m - 2 ^ fb), ?_⟩
      have hlt : m - 2 ^ fb < 2 ^ fb := by omega
      have e1 : ((j + 1 + 1) * 2 ^ fb + (m - 2 ^ fb)) / 2 ^ fb = j + 1 + 1 := by
        rw [Nat.mul_comm, Nat.mul_add_div hpow, Nat.div_eq_of_lt hlt, Nat.add_zero]
      have e2 : ((j + 1 + 1) * 2 ^ fb + (m - 2 ^ fb)) % 2 ^ fb = m - 2 ^ fb := by
        rw [Nat.mul_comm, Nat.mul_add_mod, Nat.mod_eq_of_lt hlt]
      unfold magOf
      rw [e1, e2, if_neg (by omega), show j + 1 + 1 - 1 = j + 1 by omega, show 2 ^ fb + (m - 2 ^ fb) = m by omega]

/-- A result that its format can hold is not rounded. -/
theorem magOf_patternOf (fb top m j d N : Nat) (hm : m < 2 ^ (fb + 1)) (hN : N = m * 2 ^ j) (htop : N < magOf fb top)
    (hd : 0 < d) : magOf fb (patternOf nearestEven fb top (N * d) d) = N ∧
      patternOf nearestEven fb top (N * d) d < top := by
  obtain ⟨p, hp⟩ := exists_magOf fb m j hm
  rw [← hN] at hp
  have hlt : p < top := by
    rw [← hp] at htop
    exact (magOf_strictMono fb).lt_iff_lt.mp htop
  rw [← hp, patternOf_magOf fb top p d hlt hd]
  exact ⟨rfl, hlt⟩

/-! ### Nearest -/

/-- `nearestEven n d` is a natural nearest to `n / d`. -/
theorem nearestEven_nearest (n d m : Nat) (hd : 0 < d) :
    ((nearestEven n d * d : Nat) - n : Int).natAbs ≤ ((m * d : Nat) - n : Int).natAbs := by
  have hdm := Nat.div_add_mod n d
  have hr := Nat.mod_lt n hd
  rw [Nat.mul_comm] at hdm
  have h2 : m ≤ n / d ∨ n / d + 1 ≤ m := by omega
  have hm : m * d ≤ n / d * d ∨ n / d * d + d ≤ m * d := by
    rcases h2 with h | h
    · exact .inl (Nat.mul_le_mul_right d h)
    · right; have := Nat.mul_le_mul_right d h; rwa [Nat.add_mul, Nat.one_mul] at this
  unfold nearestEven
  simp only
  split
  · omega
  · split
    · rw [Nat.add_mul, Nat.one_mul]; omega
    · have : n / d % 2 = 0 ∨ n / d % 2 = 1 := by omega
      rcases this with h | h <;> rw [h] <;> simp only [Nat.add_zero, Nat.add_mul, Nat.one_mul] <;> omega

theorem nearestEven_bounds (n d : Nat) : n / d ≤ nearestEven n d ∧ nearestEven n d ≤ n / d + 1 := by
  unfold nearestEven
  simp only
  split
  · omega
  · split <;> omega

/-- Below the second binade a pattern stands for itself; in binade `k + 1` for its mantissa times `2 ^ k`. -/
theorem magOf_binade (fb k q : Nat) (h1 : k = 0 ∨ 2 ^ fb ≤ q) (h2 : q ≤ 2 ^ (fb + 1)) :
    magOf fb (k * 2 ^ fb + q) = q * 2 ^ k := by
  have hpow : 0 < 2 ^ fb := Nat.two_pow_pos fb
  have hp : 2 ^ (fb + 1) = 2 * 2 ^ fb := by rw [Nat.pow_succ, Nat.mul_comm]
  have hq := Nat.div_add_mod q (2 ^ fb)
  have hm := Nat.mod_lt q hpow
  have e1 : (k * 2 ^ fb + q) / 2 ^ fb = k + q / 2 ^ fb := by
    rw [Nat.mul_comm, Nat.mul_add_div hpow]
  have e2 : (k * 2 ^ fb + q) % 2 ^ fb = q % 2 ^ fb := by rw [Nat.mul_comm, Nat.mul_add_mod]
  unfold magOf
  rw [e1, e2]
  have hd : q / 2 ^ fb ≤ 2 := by
    rw [Nat.div_le_iff_le_mul_add_pred hpow]; omega
  generalize q / 2 ^ fb = e at *
  generalize q % 2 ^ fb = f at *
  rcases (by omega : e = 0 ∨ e = 1 ∨ e = 2) with rfl | rfl | rfl
  · have hk : k = 0 := by omega
    subst hk
    simp
  · rw [if_neg (by omega), show k + 1 - 1 = k by omega]
    congr 1; omega
  · have : f = 0 := by omega
    subst this
    rw [if_neg (by omega), show k + 2 - 1 = k + 1 by omega, Nat.pow_succ, ← hq]; ring

/-- A pattern from binade `k + 1` on stands for a multiple of `2 ^ k`. -/
theorem magOf_dvd (fb k p : Nat) (h : k = 0 ∨ (k + 1) * 2 ^ fb ≤ p) : 2 ^ k ∣ magOf fb p := by
  rcases h with rfl | h
  · simp
  · have hpow : 0 < 2 ^ fb := Nat.two_pow_pos fb
    have : k + 1 ≤ p / 2 ^ fb := (Nat.le_div_iff_mul_le hpow).mpr h
    unfold magOf
    rw [if_neg (by omega)]
    exact Dvd.dvd.mul_left (Nat.pow_dvd_pow 2 (by omega)) _

/-- On a tie `nearestEven` gives the even neighbour. -/
theorem nearestEven_tie (n d m : Nat) (hd : 0 < d)
    (h : ((m * d : Nat) - n : Int).natAbs = ((nearestEven n d * d : Nat) - n : Int).natAbs) :
    m = nearestEven n d ∨ nearestEven n d % 2 = 0 := by
  have hdm := Nat.div_add_mod n d
  have hr := Nat.mod_lt n hd
  rw [Nat.mul_comm] at hdm
  have hm : (m = n / d ∨ m = n / d + 1) ∨ m * d + d ≤ n / d * d ∨ n / d * d + 2 * d ≤ m * d := by
    rcases (by omega : (m = n / d ∨ m = n / d + 1) ∨ m + 1 ≤ n / d ∨ n / d + 2 ≤ m) with h | h | h
    · exact .inl h
    · right; left; have := Nat.mul_le_mul_right d h; rwa [Nat.add_mul, Nat.one_mul] at this
    · right; right; have := Nat.mul_le_mul_right d h; rwa [Nat.add_mul] at this
  have hs : (n / d + 1) * d = n / d * d + d := by rw [Nat.add_mul, Nat.one_mul]
  unfold nearestEven at h ⊢
  simp only at h ⊢
  split
  · rename_i hlt
    rw [if_pos hlt] at h
    rcases hm with (rfl | rfl) | hm | hm
    · exact .inl rfl
    · rw [hs] at h; omega
    · omega
    · omega
  · rename_i hlt
    rw [if_neg hlt] at h
    split
    · rename_i hgt
      rw [if_pos hgt, hs] at h
      rcases hm with (rfl | rfl) | hm | hm
      · omega
      · exact .inl rfl
      · omega
      · omega
    · omega

/-- The binade of a rounding: the quotient on its grid, and the pattern from it. -/
theorem patternOf_binade (fb top n d : Nat) :
    ∃ k, patternOf nearestEven fb top n d = min (k * 2 ^ fb + nearestEven n (d * 2 ^ k)) top ∧
      n / (d * 2 ^ k) < 2 ^ (fb + 1) ∧ (k = 0 ∨ 2 ^ fb ≤ n / (d * 2 ^ k)) := by
  refine ⟨if n / d < 2 ^ (fb + 1) then 0 else (n / d).log2 - fb, rfl, ?_⟩
  rw [← Nat.div_div_eq_div_mul]
  split
  · simpa
  · rename_i hge
    have hp : 2 ^ (fb + 1) = 2 * 2 ^ fb := by rw [Nat.pow_succ, Nat.mul_comm]
    have hne : n / d ≠ 0 := by
      have := Nat.two_pow_pos (fb + 1); omega
    have hl := (Nat.log2_eq_iff hne).mp rfl
    have hlog : fb + 1 ≤ (n / d).log2 := (Nat.le_log2 hne).mpr (by omega)
    generalize hk : (n / d).log2 - fb = k
    have e : (n / d).log2 = fb + k := by omega
    rw [e] at hl
    have hk2 := Nat.two_pow_pos k
    refine ⟨?_, .inr ?_⟩
    · rw [Nat.div_lt_iff_lt_mul hk2, ← Nat.pow_add, show fb + 1 + k = fb + k + 1 by omega]; exact hl.2
    · rw [Nat.le_div_iff_mul_le hk2, ← Nat.pow_add]; exact hl.1

/-- What a rounding that does not overflow stands for is as near to the exact quotient as anything a pattern can stand
for, and of two that are as near its pattern is the even one. -/
theorem patternOf_nearest (fb top n d p : Nat) (hd : 0 < d) (hfb : 0 < fb)
    (htop : patternOf nearestEven fb top n d < top) :
    ((magOf fb (patternOf nearestEven fb top n d) * d : Nat) - n : Int).natAbs ≤
        ((magOf fb p * d : Nat) - n : Int).natAbs ∧
      (((magOf fb p * d : Nat) - n : Int).natAbs =
          ((magOf fb (patternOf nearestEven fb top n d) * d : Nat) - n : Int).natAbs →
        magOf fb p = magOf fb (patternOf nearestEven fb top n d) ∨ patternOf nearestEven fb top n d % 2 = 0) := by
  have hpow : 0 < 2 ^ fb := Nat.two_pow_pos fb
  have hp : 2 ^ (fb + 1) = 2 * 2 ^ fb := by rw [Nat.pow_succ, Nat.mul_comm]
  obtain ⟨k, hk, hlt, hge⟩ := patternOf_binade fb top n d
  rw [hk] at htop ⊢
  rw [Nat.min_eq_left (by omega)]
  have hb := nearestEven_bounds n (d * 2 ^ k)
  have hd2 : 0 < d * 2 ^ k := Nat.mul_pos hd (Nat.two_pow_pos k)
  rw [magOf_binade _ _ _ (by omega) (by omega)]
  have hq : nearestEven n (d * 2 ^ k) * 2 ^ k * d = nearestEven n (d * 2 ^ k) * (d * 2 ^ k) := by ring
  rw [hq]
  by_cases hg : k = 0 ∨ (k + 1) * 2 ^ fb ≤ p
  · obtain ⟨m, hm⟩ := magOf_dvd fb k p hg
    rw [hm, show 2 ^ k * m * d = m * (d * 2 ^ k) by ring]
    refine ⟨nearestEven_nearest n (d * 2 ^ k) m hd2, fun h => ?_⟩
    rcases nearestEven_tie n (d * 2 ^ k) m hd2 h with h | h
    · exact .inl (by rw [h, Nat.mul_comm])
    · right
      obtain ⟨f, rfl⟩ := Nat.exists_eq_succ_of_ne_zero (Nat.pos_iff_ne_zero.mp hfb)
      rw [Nat.succ_eq_add_one, Nat.pow_succ, ← Nat.mul_assoc]; omega
  · push Not at hg
    have hlow : magOf fb p < 2 ^ fb * 2 ^ k := by
      rw [← magOf_binade fb k (2 ^ fb) (.inr (le_refl _)) (by omega), ← Nat.succ_mul]
      exact magOf_strictMono fb hg.2
    have h2 := nearestEven_nearest n (d * 2 ^ k) (2 ^ fb) hd2
    have h3 := (Nat.le_div_iff_mul_le hd2).mp (hge.resolve_left hg.1)
    have h4 := Nat.mul_lt_mul_of_pos_right hlow hd
    rw [show 2 ^ fb * 2 ^ k * d = 2 ^ fb * (d * 2 ^ k) by ring] at h4
    omega

/-- A rounding overflows exactly from half a unit in the last place above the greatest finite value on. -/
theorem patternOf_overflow (fb K n d : Nat) (hd : 0 < d) :
    patternOf nearestEven fb ((K + 3) * 2 ^ fb) n d = (K + 3) * 2 ^ fb ↔ (2 ^ (fb + 2) - 1) * 2 ^ K * d ≤ n := by
  have hpow : 0 < 2 ^ fb := Nat.two_pow_pos fb
  have hp : 2 ^ (fb + 1) = 2 * 2 ^ fb := by rw [Nat.pow_succ, Nat.mul_comm]
  have hp2 : 2 ^ (fb + 2) = 4 * 2 ^ fb := by rw [Nat.pow_add, Nat.mul_comm]
  obtain ⟨k, hk, hlt, hge⟩ := patternOf_binade fb ((K + 3) * 2 ^ fb) n d
  have hb := nearestEven_bounds n (d * 2 ^ k)
  have hd2 : 0 < d * 2 ^ k := Nat.mul_pos hd (Nat.two_pow_pos k)
  have hdK : 0 < 2 ^ K * d := Nat.mul_pos (Nat.two_pow_pos K) hd
  rw [hk, min_eq_right_iff, Nat.mul_assoc, Nat.sub_mul, Nat.one_mul, hp2]
  have hn := (Nat.div_lt_iff_lt_mul hd2).mp hlt
  rcases Nat.lt_trichotomy k (K + 1) with h | h | h
  · have h1 : k * 2 ^ fb ≤ K * 2 ^ fb := Nat.mul_le_mul_right _ (by omega)
    have h2 : d * 2 ^ k ≤ 2 ^ K * d := by
      rw [Nat.mul_comm]; exact Nat.mul_le_mul_right _ (Nat.pow_le_pow_right (by omega) (by omega))
    have h3 : 2 ^ (fb + 1) * (d * 2 ^ k) ≤ 2 ^ (fb + 1) * (2 ^ K * d) := Nat.mul_le_mul_left _ h2
    rw [Nat.add_mul]
    constructor
    · intro h; omega
    · intro h
      have h5 : 4 * 2 ^ fb * (2 ^ K * d) = 2 * (2 ^ (fb + 1) * (2 ^ K * d)) := by rw [hp]; ring
      have h6 : 2 ^ K * d ≤ 2 ^ (fb + 1) * (2 ^ K * d) := Nat.le_mul_of_pos_left _ (by omega)
      omega
  · subst h
    have hD : d * 2 ^ (K + 1) = 2 * (2 ^ K * d) := by rw [Nat.pow_succ]; ring
    rw [hD] at hb hn hlt hge ⊢
    generalize 2 ^ K * d = D at *
    have hdm := Nat.div_add_mod n (2 * D)
    have hr := Nat.mod_lt n (show 0 < 2 * D by omega)
    have e1 : (K + 3) * 2 ^ fb = (K + 1) * 2 ^ fb + 2 ^ (fb + 1) := by rw [hp]; ring
    have e2 : 4 * 2 ^ fb * D = 2 ^ (fb + 1) * (2 * D) := by rw [hp]; ring
    rw [e1, e2]
    have hM : n / (2 * D) + 1 ≤ 2 ^ (fb + 1) := hlt
    rw [Nat.add_le_add_iff_left]
    unfold nearestEven
    simp only
    have hev : 2 ^ (fb + 1) % 2 = 0 := by rw [hp]; omega
    constructor
    · intro h
      have hq : n / (2 * D) + 1 = 2 ^ (fb + 1) := by
        split at h
        · omega
        · split at h <;> omega
      rw [← hq, Nat.add_mul, Nat.one_mul, Nat.mul_comm (n / (2 * D))]
      split at h
      · omega
      · omega
    · intro h
      have hq : n / (2 * D) + 1 = 2 ^ (fb + 1) := by
        by_contra hne
        have h7 : n / (2 * D) + 1 + 1 ≤ 2 ^ (fb + 1) := by omega
        have h8 := Nat.mul_le_mul_right (2 * D) h7
        rw [Nat.add_mul, Nat.add_mul, Nat.one_mul, Nat.mul_comm (n / (2 * D))] at h8
        omega
      rw [← hq, Nat.add_mul, Nat.one_mul, Nat.mul_comm (n / (2 * D))] at h
      have hodd : n / (2 * D) % 2 = 1 := by omega
      rw [if_neg (by omega)]
      split <;> omega
  · have h1 : (K + 2) * 2 ^ fb ≤ k * 2 ^ fb := Nat.mul_le_mul_right _ (by omega)
    have h2 : 2 ^ fb ≤ n / (d * 2 ^ k) := hge.resolve_left (by omega)
    have h3 := (Nat.le_div_iff_mul_le hd2).mp h2
    have h4 : 2 ^ fb * (4 * (2 ^ K * d)) ≤ 2 ^ fb * (d * 2 ^ k) := by
      apply Nat.mul_le_mul_left
      have : 2 ^ (K + 2) ≤ 2 ^ k := Nat.pow_le_pow_right (by omega) (by omega)
      calc 4 * (2 ^ K * d) = d * 2 ^ (K + 2) := by rw [Nat.pow_add]; ring
        _ ≤ d * 2 ^ k := Nat.mul_le_mul_left _ this
    have e : 4 * 2 ^ fb * (2 ^ K * d) = 2 ^ fb * (4 * (2 ^ K * d)) := by ring
    rw [Nat.add_mul] at *
    constructor
    · intro _; omega
    · intro _; omega

/-! ### Sine and cosine (43_lowpass.md R206) -/

theorem holdIn_le_one (b : Bracket) (raw : F64) : pat64 (holdIn b raw) ≤ one64 := by
  unfold holdIn
  split
  · rename_i h; omega
  · rw [pat64_pack64 _ _ (by simp [one64])]; omega

/-- P2, on patterns. -/
theorem sin64_le_one {w : F64} (h : isFinite64 w = true) : pat64 (sin64 w) ≤ one64 := by
  unfold sin64
  simp only [h, Bool.not_true, Bool.false_eq_true, if_false]
  split
  · rw [pat64_pack64 _ _ (by omega)]; exact Nat.zero_le _
  · exact holdIn_le_one _ _

theorem cos64_le_one {w : F64} (h : isFinite64 w = true) : pat64 (cos64 w) ≤ one64 := by
  unfold cos64
  simp only [h, Bool.not_true, Bool.false_eq_true, if_false]
  split
  · rw [pat64_pack64 _ _ (by simp [one64])]
  · exact holdIn_le_one _ _

/-- P3. -/
theorem sin64_nan {w : F64} (h : isFinite64 w = false) : isNan64 (sin64 w) = true := by simp [sin64, h]

theorem cos64_nan {w : F64} (h : isFinite64 w = false) : isNan64 (cos64 w) = true := by simp [cos64, h]

end Sys2Proof.Machine
end

