-- ==== Sys2Proof/Laws/Biquad.lean ====
section
/-! SUPPORT. What an initialisation checks, and everything it can leave. -/

namespace Sys2Proof.Machine

theorem supportedFmt_iff (fmt : Word) : supportedFmt fmt = true ↔ fmt = 2#32 ∨ fmt = 5#32 := by
  simp [supportedFmt, Config.fmtS16, Config.fmtF32]

/-- The a0 guard refuses the two zeros and nothing else (41_biquad_init.md R144). -/
theorem zeroA0_iff (a0 : F64) : zeroA0 ieee a0 = true ↔ a0 = 0x0000000000000000#64 ∨ a0 = 0x8000000000000000#64 :=
  ieeeEq_zero a0

/-- The three checks of `reinit_core` (41_biquad_init.md R142, R143, R144). -/
theorem validDescr_iff (maxCh : Nat) (d : BqDescr) :
    validDescr ieee maxCh d = true ↔ (d.fmt = 2#32 ∨ d.fmt = 5#32) ∧ d.ch.toNat ≤ maxCh ∧
      ¬ (d.a0 = 0x0000000000000000#64 ∨ d.a0 = 0x8000000000000000#64) := by
  rw [← supportedFmt_iff, ← zeroA0_iff]
  simp [validDescr, channelsFit, and_assoc]

/-- The identity test (41_biquad_init.md R145). -/
theorem identityTest_iff (d : BqDescr) :
    identityTest ieee d = true ↔ d.a0 = 0x3FF0000000000000#64 ∧
      (d.a1 = 0x0000000000000000#64 ∨ d.a1 = 0x8000000000000000#64) ∧
      (d.a2 = 0x0000000000000000#64 ∨ d.a2 = 0x8000000000000000#64) ∧ d.b0 = 0x3FF0000000000000#64 ∧
      (d.b1 = 0x0000000000000000#64 ∨ d.b1 = 0x8000000000000000#64) ∧
      (d.b2 = 0x0000000000000000#64 ∨ d.b2 = 0x8000000000000000#64) := by
  have h1 : ∀ a : F64, ieeeEq a 0x3FF0000000000000#64 = true ↔ a = 0x3FF0000000000000#64 := fun a =>
    ieeeEq_nonzero (by decide) (by decide)
  simp only [identityTest, ieee, Bool.and_eq_true, h1, ieeeEq_zero, and_assoc]

/-- Everything an initialisation from `CD_*` can leave. -/
theorem reinitFromCd_cases (N : Numerics) (s : State) :
    (validDescr N s.maxChannels s.cd = true ∧ reinitFromCd N s = succeed (storeNormalised N s.cd s)) ∨
    (validDescr N s.maxChannels s.cd = false ∧ reinitFromCd N s = raiseInvalid s) := by
  unfold reinitFromCd reinitCore
  cases validDescr N s.maxChannels s.cd <;> simp

/-- Everything an initialisation from `LD_*` can leave. -/
theorem reinitFromLd_cases (N : Numerics) (s : State) :
    (validDescr N s.maxChannels (lowpassDescr N s.draws s.ld) = true ∧
      reinitFromLd N s = succeed (copyConfig (storeNormalised N (lowpassDescr N s.draws s.ld) s))) ∨
    (validDescr N s.maxChannels (lowpassDescr N s.draws s.ld) = false ∧ reinitFromLd N s = raiseInvalid s) := by
  unfold reinitFromLd reinitCore
  cases validDescr N s.maxChannels (lowpassDescr N s.draws s.ld) <;> simp

end Sys2Proof.Machine
end

