-- ==== Sys2Proof/Laws/Decode.lean ====
section
/-! SUPPORT. What the decoder can answer, and what the step and a write to CMD do with it. -/

namespace Sys2Proof.Laws

/-- Everything a decoded command word can be: its must-be-zero fields are zero, and the opcode names the command, whose
bits are IV and DV. -/
theorem decodeWord_ok_cases {w : Word} {i : Instr} (h : decodeWord w = .ok i) :
    w.extractLsb' 10 22 = 0#22 ∧ w.extractLsb' 4 4 = 0#4 ∧
    (((cmdOpc w).toNat = 1 ∧ i = .bqInit (cmdIv w) (cmdDv w)) ∨
     ((cmdOpc w).toNat = 2 ∧ i = .bqReinit (cmdIv w) (cmdDv w)) ∨
     ((cmdOpc w).toNat = 3 ∧ cmdDv w = false ∧ i = .bqProcess (cmdIv w)) ∨
     ((cmdOpc w).toNat = 5 ∧ i = .lpfInit (cmdIv w) (cmdDv w)) ∨
     ((cmdOpc w).toNat = 6 ∧ i = .lpfReinit (cmdIv w) (cmdDv w)) ∨
     ((cmdOpc w).toNat = 7 ∧ cmdDv w = false ∧ i = .lpfProcess (cmdIv w))) := by
  unfold decodeWord at h
  split at h
  · cases h
  · rename_i hz
    rw [not_or, not_not, not_not] at hz
    refine ⟨hz.1, hz.2, ?_⟩
    unfold decodeOpcode at h
    split at h
    · rename_i ho; cases h; exact .inl ⟨ho, rfl⟩
    · rename_i ho; cases h; exact .inr (.inl ⟨ho, rfl⟩)
    · rename_i ho
      split at h
      · cases h
      · rename_i hd; cases h; exact .inr (.inr (.inl ⟨ho, by simpa using hd, rfl⟩))
    · rename_i ho; cases h; exact .inr (.inr (.inr (.inl ⟨ho, rfl⟩)))
    · rename_i ho; cases h; exact .inr (.inr (.inr (.inr (.inl ⟨ho, rfl⟩))))
    · rename_i ho
      split at h
      · cases h
      · rename_i hd; cases h; exact .inr (.inr (.inr (.inr (.inr ⟨ho, by simpa using hd, rfl⟩))))
    · cases h

/-- A value that decodes has a zero upper half, and a lower half that decodes. -/
theorem decode_ok {d : DWord} {i : Instr} (h : decode d = .ok i) :
    d.extractLsb' 32 32 = 0#32 ∧ decodeWord (d.extractLsb' 0 32) = .ok i := by
  unfold decode at h
  split at h
  · cases h
  · rename_i hh; exact ⟨not_not.mp hh, h⟩

/-- The decoder answers none of the instructions that are no command. -/
theorem decode_ok_isCommand {d : DWord} {i : Instr} (h : decode d = .ok i) :
    (∀ off v, i ≠ .wr off v) ∧ (∀ off, i ≠ .rd off) ∧
    (∀ fmt ch a0 a1 a2 b0 b1 b2, i ≠ .bqConfigure fmt ch a0 a1 a2 b0 b1 b2) ∧
    (∀ fmt ch fs fc, i ≠ .lpfConfigure fmt ch fs fc) := by
  obtain ⟨-, -, h⟩ := decodeWord_ok_cases (decode_ok h).2
  rcases h with ⟨-, rfl⟩ | ⟨-, rfl⟩ | ⟨-, -, rfl⟩ | ⟨-, rfl⟩ | ⟨-, rfl⟩ | ⟨-, -, rfl⟩ <;> simp

open Sys2Proof.Machine

/-- A write to CMD of a word that decodes runs that command. -/
theorem runCommand_ok {d : DWord} {i : Instr} (h : decode d = .ok i) (s : State) : runCommand d s = exec i s := by
  have hc := decode_ok_isCommand h
  unfold runCommand
  rw [h]
  cases i with
  | wr off v => exact absurd rfl (hc.1 off v)
  | rd off => exact absurd rfl (hc.2.1 off)
  | bqConfigure fmt ch a0 a1 a2 b0 b1 b2 => exact absurd rfl (hc.2.2.1 fmt ch a0 a1 a2 b0 b1 b2)
  | lpfConfigure fmt ch fs fc => exact absurd rfl (hc.2.2.2 fmt ch fs fc)
  | bqInit | bqReinit | bqProcess | lpfInit | lpfReinit | lpfProcess => rfl

/-- A write to CMD of an illegal word fails and does nothing else. -/
theorem runCommand_error {d : DWord} {e : DecodeError} (h : decode d = .error e) (s : State) :
    runCommand d s = .next (raiseInvalid s) := by
  unfold runCommand; rw [h]

/-- What a WR at an issuable offset other than CMD's does. -/
theorem execWr_register {off : Offset} {v : DWord} {s : State} (h : off.issuable = true) (h0 : off ≠ 0x000#16) :
    execWr off v s = .next (writeOffset off v s) := by
  simp [execWr, h, h0]

/-- What a WR to CMD does. -/
theorem execWr_cmd {v : DWord} {s : State} : execWr 0x000#16 v s = runCommand v s := by
  have : Offset.issuable 0x000#16 = true := by decide
  simp [execWr, this]

/-- What an RD at an issuable offset does. -/
theorem execRd_issuable {off : Offset} {s : State} (h : off.issuable = true) :
    execRd off s = .next (returnData (readOffset off s) s) := by
  simp [execRd, h]

end Sys2Proof.Laws
end

