-- ==== Sys2Proof/Laws/Memory.lean ====
section
/-! SUPPORT. The laws of memory: what a read gives after a store, and that every operation keeps the canonical form. -/

namespace Sys2Proof.Machine

/-! ### One byte -/

theorem readByte_putCell (m : Memory) (a : Nat) (b : Byte) (x : Nat) :
    readByte (putCell m a b) x = if a = x then b else readByte m x := by
  induction m with
  | nil => simp [putCell, readByte]
  | cons p m ih =>
    obtain ⟨k, c⟩ := p
    simp only [putCell]
    split
    · simp [readByte]
    · split
      · subst_vars; simp only [readByte]; split <;> rfl
      · simp only [readByte, ih]
        by_cases hk : k = x
        · have : a ≠ x := by omega
          simp [hk, this]
        · simp [hk]

theorem readByte_dropCell (m : Memory) (a x : Nat) :
    readByte (dropCell m a) x = if a = x then initByte else readByte m x := by
  induction m with
  | nil => simp [dropCell, readByte]
  | cons p m ih =>
    obtain ⟨k, c⟩ := p
    simp only [dropCell]
    split
    · rename_i h
      subst h
      rw [ih]
      by_cases hx : k = x <;> simp [readByte, hx]
    · rename_i h
      simp only [readByte, ih]
      by_cases hk : k = x
      · have : a ≠ x := by omega
        simp [hk, this]
      · simp [hk]

/-- A read after a store: the byte stored at its address, every other byte as before. -/
theorem readByte_writeByte (m : Memory) (a : Nat) (b : Byte) (x : Nat) (ha : a < 2 ^ 64) :
    readByte (writeByte m a b) x = if a = x then b else readByte m x := by
  unfold writeByte
  rw [if_pos ha]
  split
  · rename_i hb; rw [readByte_dropCell, hb]
  · rw [readByte_putCell]

/-- A store leaves every other byte alone, wherever it goes. -/
theorem readByte_writeByte_other (m : Memory) (a : Nat) (b : Byte) (x : Nat) (h : a ≠ x) :
    readByte (writeByte m a b) x = readByte m x := by
  by_cases ha : a < 2 ^ 64
  · rw [readByte_writeByte _ _ _ _ ha, if_neg h]
  · rw [writeByte, if_neg ha]

/-! ### The canonical form -/

theorem Memory.wf_nil : Memory.wf [] := by simp [Memory.wf]

theorem Memory.wf_tail {p : Host.Cell} {m : Memory} (h : Memory.wf (p :: m)) : Memory.wf m :=
  ⟨(List.pairwise_cons.mp h.1).2, fun q hq => h.2 q (List.mem_cons_of_mem _ hq)⟩

theorem mem_putCell {m : Memory} {a : Nat} {b : Byte} {q : Host.Cell} (h : q ∈ putCell m a b) :
    q = (a, b) ∨ q ∈ m := by
  induction m with
  | nil => simpa [putCell] using h
  | cons p m ih =>
    obtain ⟨k, c⟩ := p
    simp only [putCell] at h
    split at h
    · simpa using h
    · split at h
      · rcases List.mem_cons.mp h with h | h
        · exact .inl h
        · exact .inr (List.mem_cons_of_mem _ h)
      · rcases List.mem_cons.mp h with h | h
        · exact .inr (by simp [h])
        · exact (ih h).imp id (List.mem_cons_of_mem _)

theorem mem_dropCell {m : Memory} {a : Nat} {q : Host.Cell} (h : q ∈ dropCell m a) : q ∈ m := by
  induction m with
  | nil => simp [dropCell] at h
  | cons p m ih =>
    obtain ⟨k, c⟩ := p
    simp only [dropCell] at h
    split at h
    · exact List.mem_cons_of_mem _ (ih h)
    · rcases List.mem_cons.mp h with h | h
      · simp [h]
      · exact List.mem_cons_of_mem _ (ih h)

theorem Memory.wf_putCell {m : Memory} {a : Nat} {b : Byte} (h : Memory.wf m) (ha : a < 2 ^ 64) (hb : b ≠ initByte) :
    Memory.wf (putCell m a b) := by
  refine ⟨?_, fun q hq => ?_⟩
  · induction m with
    | nil => simp [putCell]
    | cons p m ih =>
      obtain ⟨k, c⟩ := p
      have hp := List.pairwise_cons.mp h.1
      simp only [putCell]
      split
      · rename_i hlt
        refine List.pairwise_cons.mpr ⟨fun q hq => ?_, h.1⟩
        rcases List.mem_cons.mp hq with hq | hq
        · simpa [hq] using hlt
        · exact Nat.lt_trans hlt (hp.1 q hq)
      · split
        · rename_i _ he
          exact List.pairwise_cons.mpr ⟨fun q hq => by simpa [he] using hp.1 q hq, hp.2⟩
        · refine List.pairwise_cons.mpr ⟨fun q hq => ?_, ih (Memory.wf_tail h)⟩
          rcases mem_putCell hq with hq | hq
          · simp only [hq]; omega
          · exact hp.1 q hq
  · rcases mem_putCell hq with hq | hq
    · simpa [hq] using ⟨ha, hb⟩
    · exact h.2 q hq

theorem Memory.wf_dropCell {m : Memory} {a : Nat} (h : Memory.wf m) : Memory.wf (dropCell m a) := by
  refine ⟨?_, fun q hq => h.2 q (mem_dropCell hq)⟩
  induction m with
  | nil => simp [dropCell]
  | cons p m ih =>
    obtain ⟨k, c⟩ := p
    have hp := List.pairwise_cons.mp h.1
    simp only [dropCell]
    split
    · exact ih (Memory.wf_tail h)
    · exact List.pairwise_cons.mpr ⟨fun q hq => hp.1 q (mem_dropCell hq), ih (Memory.wf_tail h)⟩

theorem Memory.wf_writeByte {m : Memory} {a : Nat} {b : Byte} (h : Memory.wf m) : Memory.wf (writeByte m a b) := by
  unfold writeByte
  split
  · split
    · exact Memory.wf_dropCell h
    · rename_i ha hb; exact Memory.wf_putCell h ha hb
  · exact h

theorem Memory.wf_write16 {m : Memory} {a : Nat} {v : BitVec 16} (h : Memory.wf m) : Memory.wf (write16 m a v) :=
  Memory.wf_writeByte (Memory.wf_writeByte h)

theorem Memory.wf_write32 {m : Memory} {a : Nat} {v : BitVec 32} (h : Memory.wf m) : Memory.wf (write32 m a v) :=
  Memory.wf_write16 (Memory.wf_write16 h)

theorem Memory.wf_copyBytes {src dst : Nat} (n : Nat) : ∀ (i : Nat) (m : Memory), Memory.wf m →
    Memory.wf (copyBytes src dst n i m) := by
  induction n with
  | zero => exact fun _ _ h => h
  | succ n ih => exact fun i m h => ih _ _ (Memory.wf_writeByte h)

theorem Memory.wf_fillBytes {f : Nat → Byte} {dst : Nat} (n : Nat) : ∀ (i : Nat) (m : Memory), Memory.wf m →
    Memory.wf (fillBytes f dst n i m) := by
  induction n with
  | zero => exact fun _ _ h => h
  | succ n ih => exact fun i m h => ih _ _ (Memory.wf_writeByte h)

theorem Memory.wf_storeCells (l : List (Nat × Byte)) : ∀ m : Memory, Memory.wf m → Memory.wf (storeCells l m) := by
  induction l with
  | nil => exact fun _ h => h
  | cons p l ih => exact fun m h => ih _ (Memory.wf_writeByte h)

/-! ### Samples: little-endian, and nothing outside their bytes -/

theorem readByte_write16_other (m : Memory) (a : Nat) (v : BitVec 16) (x : Nat) (h : x < a ∨ a + 2 ≤ x) :
    readByte (write16 m a v) x = readByte m x := by
  unfold write16
  rw [readByte_writeByte_other _ _ _ _ (by omega), readByte_writeByte_other _ _ _ _ (by omega)]

theorem readByte_write32_other (m : Memory) (a : Nat) (v : BitVec 32) (x : Nat) (h : x < a ∨ a + 4 ≤ x) :
    readByte (write32 m a v) x = readByte m x := by
  unfold write32
  rw [readByte_write16_other _ _ _ _ (by omega), readByte_write16_other _ _ _ _ (by omega)]

theorem read16_write16 (m : Memory) (a : Nat) (v : BitVec 16) (h : a + 2 ≤ 2 ^ 64) :
    read16 (write16 m a v) a = v := by
  have e1 : readByte (write16 m a v) (a + 1) = v.extractLsb' 8 8 := by
    rw [write16, readByte_writeByte _ _ _ _ (by omega), if_pos rfl]
  have e0 : readByte (write16 m a v) a = v.extractLsb' 0 8 := by
    rw [write16, readByte_writeByte_other _ _ _ _ (by omega), readByte_writeByte _ _ _ _ (by omega), if_pos rfl]
  rw [read16, e1, e0]
  ext i hi
  simp only [BitVec.getElem_append, BitVec.getElem_extractLsb']
  split
  · simp [BitVec.getLsbD_eq_getElem hi]
  · rw [show 8 + (i - 8) = i by omega, BitVec.getLsbD_eq_getElem hi]

theorem read16_congr {m m' : Memory} {a : Nat} (h0 : readByte m a = readByte m' a)
    (h1 : readByte m (a + 1) = readByte m' (a + 1)) : read16 m a = read16 m' a := by
  simp [read16, h0, h1]

theorem read32_congr {m m' : Memory} {a : Nat} (h : ∀ x, a ≤ x → x < a + 4 → readByte m x = readByte m' x) :
    read32 m a = read32 m' a := by
  unfold read32
  rw [read16_congr (h _ (by omega) (by omega)) (h _ (by omega) (by omega)),
    read16_congr (h _ (by omega) (by omega)) (h _ (by omega) (by omega))]

theorem read32_write32 (m : Memory) (a : Nat) (v : BitVec 32) (h : a + 4 ≤ 2 ^ 64) :
    read32 (write32 m a v) a = v := by
  unfold read32 write32
  rw [read16_write16 _ _ _ (by omega)]
  rw [read16_congr (m' := write16 m a (v.extractLsb' 0 16)) (readByte_write16_other _ _ _ _ (by omega))
    (readByte_write16_other _ _ _ _ (by omega)), read16_write16 _ _ _ (by omega)]
  ext i hi
  simp only [BitVec.getElem_append, BitVec.getElem_extractLsb']
  split
  · simp [BitVec.getLsbD_eq_getElem hi]
  · rw [show 16 + (i - 16) = i by omega, BitVec.getLsbD_eq_getElem hi]

/-! ### Ranges -/

theorem readByte_copyBytes_outside {src dst : Nat} (n : Nat) : ∀ (i : Nat) (m : Memory) (x : Nat),
    x < dst + i ∨ dst + i + n ≤ x → readByte (copyBytes src dst n i m) x = readByte m x := by
  induction n with
  | zero => exact fun _ _ _ _ => rfl
  | succ n ih =>
    intro i m x hx
    rw [copyBytes, ih _ _ _ (by omega), readByte_writeByte_other _ _ _ _ (by omega)]

/-- A copy between ranges that do not meet reads the source as it was before. -/
theorem readByte_copyBytes {src dst : Nat} (n : Nat) : ∀ (i : Nat) (m : Memory) (j : Nat),
    i ≤ j → j < i + n → dst + i + n ≤ 2 ^ 64 → (src + i + n ≤ dst + i ∨ dst + i + n ≤ src + i) →
    readByte (copyBytes src dst n i m) (dst + j) = readByte m (src + j) := by
  induction n with
  | zero => intro i m j h1 h2; omega
  | succ n ih =>
    intro i m j h1 h2 htop hd
    rw [copyBytes]
    by_cases hj : j = i
    · subst hj
      rw [readByte_copyBytes_outside _ _ _ _ (by omega), readByte_writeByte _ _ _ _ (by omega), if_pos rfl]
    · rw [ih _ _ _ (by omega) (by omega) (by omega) (by omega), readByte_writeByte_other _ _ _ _ (by omega)]

theorem readByte_fillBytes_outside {f : Nat → Byte} {dst : Nat} (n : Nat) : ∀ (i : Nat) (m : Memory) (x : Nat),
    x < dst + i ∨ dst + i + n ≤ x → readByte (fillBytes f dst n i m) x = readByte m x := by
  induction n with
  | zero => exact fun _ _ _ _ => rfl
  | succ n ih =>
    intro i m x hx
    rw [fillBytes, ih _ _ _ (by omega), readByte_writeByte_other _ _ _ _ (by omega)]

end Sys2Proof.Machine
end

