-- ==== Sys2Proof/Laws/State.lean ====
section
/-! SUPPORT. What each named update leaves in each field of State, and what a register write leaves. -/

namespace Sys2Proof.Machine

/-! ### `complete` -/

@[simp] theorem complete_status (code : Word) (s : State) : (complete code s).status = code := rfl
@[simp] theorem complete_argOut (code : Word) (s : State) : (complete code s).argOut = s.argOut := rfl
@[simp] theorem complete_argIn (code : Word) (s : State) : (complete code s).argIn = s.argIn := rfl
@[simp] theorem complete_argCount (code : Word) (s : State) : (complete code s).argCount = s.argCount := rfl
@[simp] theorem complete_cd (code : Word) (s : State) : (complete code s).cd = s.cd := rfl
@[simp] theorem complete_ld (code : Word) (s : State) : (complete code s).ld = s.ld := rfl
@[simp] theorem complete_inst (code : Word) (s : State) : (complete code s).inst = s.inst := rfl
@[simp] theorem complete_delay (code : Word) (s : State) : (complete code s).delay = s.delay := rfl
@[simp] theorem complete_lp (code : Word) (s : State) : (complete code s).lp = s.lp := rfl
@[simp] theorem complete_mem (code : Word) (s : State) : (complete code s).mem = s.mem := rfl
@[simp] theorem complete_host (code : Word) (s : State) : (complete code s).host = s.host := rfl
@[simp] theorem complete_rdData (code : Word) (s : State) : (complete code s).rdData = s.rdData := rfl
@[simp] theorem complete_draws (code : Word) (s : State) : (complete code s).draws = s.draws := rfl
@[simp] theorem complete_maxChannels (code : Word) (s : State) : (complete code s).maxChannels = s.maxChannels := rfl

/-! ### `succeed` -/

@[simp] theorem succeed_status (s : State) : (succeed s).status = Config.success := rfl
@[simp] theorem succeed_argOut (s : State) : (succeed s).argOut = s.argOut := rfl
@[simp] theorem succeed_argIn (s : State) : (succeed s).argIn = s.argIn := rfl
@[simp] theorem succeed_argCount (s : State) : (succeed s).argCount = s.argCount := rfl
@[simp] theorem succeed_cd (s : State) : (succeed s).cd = s.cd := rfl
@[simp] theorem succeed_ld (s : State) : (succeed s).ld = s.ld := rfl
@[simp] theorem succeed_inst (s : State) : (succeed s).inst = s.inst := rfl
@[simp] theorem succeed_delay (s : State) : (succeed s).delay = s.delay := rfl
@[simp] theorem succeed_lp (s : State) : (succeed s).lp = s.lp := rfl
@[simp] theorem succeed_mem (s : State) : (succeed s).mem = s.mem := rfl
@[simp] theorem succeed_host (s : State) : (succeed s).host = s.host := rfl
@[simp] theorem succeed_rdData (s : State) : (succeed s).rdData = s.rdData := rfl
@[simp] theorem succeed_draws (s : State) : (succeed s).draws = s.draws := rfl
@[simp] theorem succeed_maxChannels (s : State) : (succeed s).maxChannels = s.maxChannels := rfl

/-! ### `raiseInvalid` -/

@[simp] theorem raiseInvalid_status (s : State) : (raiseInvalid s).status = Config.invalidArgument := rfl
@[simp] theorem raiseInvalid_argOut (s : State) : (raiseInvalid s).argOut = s.argOut := rfl
@[simp] theorem raiseInvalid_argIn (s : State) : (raiseInvalid s).argIn = s.argIn := rfl
@[simp] theorem raiseInvalid_argCount (s : State) : (raiseInvalid s).argCount = s.argCount := rfl
@[simp] theorem raiseInvalid_cd (s : State) : (raiseInvalid s).cd = s.cd := rfl
@[simp] theorem raiseInvalid_ld (s : State) : (raiseInvalid s).ld = s.ld := rfl
@[simp] theorem raiseInvalid_inst (s : State) : (raiseInvalid s).inst = s.inst := rfl
@[simp] theorem raiseInvalid_delay (s : State) : (raiseInvalid s).delay = s.delay := rfl
@[simp] theorem raiseInvalid_lp (s : State) : (raiseInvalid s).lp = s.lp := rfl
@[simp] theorem raiseInvalid_mem (s : State) : (raiseInvalid s).mem = s.mem := rfl
@[simp] theorem raiseInvalid_host (s : State) : (raiseInvalid s).host = s.host := rfl
@[simp] theorem raiseInvalid_rdData (s : State) : (raiseInvalid s).rdData = s.rdData := rfl
@[simp] theorem raiseInvalid_draws (s : State) : (raiseInvalid s).draws = s.draws := rfl
@[simp] theorem raiseInvalid_maxChannels (s : State) : (raiseInvalid s).maxChannels = s.maxChannels := rfl

/-! ### `zeroInstance` -/

@[simp] theorem zeroInstance_status (s : State) : (zeroInstance s).status = s.status := rfl
@[simp] theorem zeroInstance_argOut (s : State) : (zeroInstance s).argOut = s.argOut := rfl
@[simp] theorem zeroInstance_argIn (s : State) : (zeroInstance s).argIn = s.argIn := rfl
@[simp] theorem zeroInstance_argCount (s : State) : (zeroInstance s).argCount = s.argCount := rfl
@[simp] theorem zeroInstance_cd (s : State) : (zeroInstance s).cd = s.cd := rfl
@[simp] theorem zeroInstance_ld (s : State) : (zeroInstance s).ld = s.ld := rfl
@[simp] theorem zeroInstance_inst (s : State) : (zeroInstance s).inst = BqRegs.zero := rfl
@[simp] theorem zeroInstance_delay (s : State) : (zeroInstance s).delay = List.replicate s.maxChannels Chan.zero := rfl
@[simp] theorem zeroInstance_lp (s : State) : (zeroInstance s).lp = s.lp := rfl
@[simp] theorem zeroInstance_mem (s : State) : (zeroInstance s).mem = s.mem := rfl
@[simp] theorem zeroInstance_host (s : State) : (zeroInstance s).host = s.host := rfl
@[simp] theorem zeroInstance_rdData (s : State) : (zeroInstance s).rdData = s.rdData := rfl
@[simp] theorem zeroInstance_draws (s : State) : (zeroInstance s).draws = s.draws := rfl
@[simp] theorem zeroInstance_maxChannels (s : State) : (zeroInstance s).maxChannels = s.maxChannels := by
  simp [State.maxChannels]

/-! ### `zeroContext` -/

@[simp] theorem zeroContext_status (s : State) : (zeroContext s).status = s.status := rfl
@[simp] theorem zeroContext_argOut (s : State) : (zeroContext s).argOut = s.argOut := rfl
@[simp] theorem zeroContext_argIn (s : State) : (zeroContext s).argIn = s.argIn := rfl
@[simp] theorem zeroContext_argCount (s : State) : (zeroContext s).argCount = s.argCount := rfl
@[simp] theorem zeroContext_cd (s : State) : (zeroContext s).cd = s.cd := rfl
@[simp] theorem zeroContext_ld (s : State) : (zeroContext s).ld = s.ld := rfl
@[simp] theorem zeroContext_inst (s : State) : (zeroContext s).inst = BqRegs.zero := rfl
@[simp] theorem zeroContext_delay (s : State) : (zeroContext s).delay = List.replicate s.maxChannels Chan.zero := rfl
@[simp] theorem zeroContext_lp (s : State) : (zeroContext s).lp = LpConfig.zero := rfl
@[simp] theorem zeroContext_mem (s : State) : (zeroContext s).mem = s.mem := rfl
@[simp] theorem zeroContext_host (s : State) : (zeroContext s).host = s.host := rfl
@[simp] theorem zeroContext_rdData (s : State) : (zeroContext s).rdData = s.rdData := rfl
@[simp] theorem zeroContext_draws (s : State) : (zeroContext s).draws = s.draws := rfl
@[simp] theorem zeroContext_maxChannels (s : State) : (zeroContext s).maxChannels = s.maxChannels := by
  simp [State.maxChannels]

/-! ### `resetBlock` -/

@[simp] theorem resetBlock_status (s : State) : (resetBlock s).status = 0#32 := rfl
@[simp] theorem resetBlock_argOut (s : State) : (resetBlock s).argOut = 0#64 := rfl
@[simp] theorem resetBlock_argIn (s : State) : (resetBlock s).argIn = 0#64 := rfl
@[simp] theorem resetBlock_argCount (s : State) : (resetBlock s).argCount = 0#64 := rfl
@[simp] theorem resetBlock_cd (s : State) : (resetBlock s).cd = BqDescr.zero := rfl
@[simp] theorem resetBlock_ld (s : State) : (resetBlock s).ld = LpConfig.zero := rfl
@[simp] theorem resetBlock_inst (s : State) : (resetBlock s).inst = BqRegs.zero := rfl
@[simp] theorem resetBlock_delay (s : State) : (resetBlock s).delay = List.replicate s.maxChannels Chan.zero := rfl
@[simp] theorem resetBlock_lp (s : State) : (resetBlock s).lp = LpConfig.zero := rfl
@[simp] theorem resetBlock_mem (s : State) : (resetBlock s).mem = s.mem := rfl
@[simp] theorem resetBlock_host (s : State) : (resetBlock s).host = s.host := rfl
@[simp] theorem resetBlock_rdData (s : State) : (resetBlock s).rdData = s.rdData := rfl
@[simp] theorem resetBlock_draws (s : State) : (resetBlock s).draws = s.draws := rfl
@[simp] theorem resetBlock_maxChannels (s : State) : (resetBlock s).maxChannels = s.maxChannels := by
  simp [State.maxChannels]

/-! ### `returnData` -/

@[simp] theorem returnData_status (v : DWord) (s : State) : (returnData v s).status = s.status := rfl
@[simp] theorem returnData_argOut (v : DWord) (s : State) : (returnData v s).argOut = s.argOut := rfl
@[simp] theorem returnData_argIn (v : DWord) (s : State) : (returnData v s).argIn = s.argIn := rfl
@[simp] theorem returnData_argCount (v : DWord) (s : State) : (returnData v s).argCount = s.argCount := rfl
@[simp] theorem returnData_cd (v : DWord) (s : State) : (returnData v s).cd = s.cd := rfl
@[simp] theorem returnData_ld (v : DWord) (s : State) : (returnData v s).ld = s.ld := rfl
@[simp] theorem returnData_inst (v : DWord) (s : State) : (returnData v s).inst = s.inst := rfl
@[simp] theorem returnData_delay (v : DWord) (s : State) : (returnData v s).delay = s.delay := rfl
@[simp] theorem returnData_lp (v : DWord) (s : State) : (returnData v s).lp = s.lp := rfl
@[simp] theorem returnData_mem (v : DWord) (s : State) : (returnData v s).mem = s.mem := rfl
@[simp] theorem returnData_host (v : DWord) (s : State) : (returnData v s).host = s.host := rfl
@[simp] theorem returnData_rdData (v : DWord) (s : State) : (returnData v s).rdData = v := rfl
@[simp] theorem returnData_draws (v : DWord) (s : State) : (returnData v s).draws = s.draws := rfl
@[simp] theorem returnData_maxChannels (v : DWord) (s : State) : (returnData v s).maxChannels = s.maxChannels := rfl

/-! ### `popHost` -/

@[simp] theorem popHost_status (rest : List HostEvent) (s : State) : (popHost rest s).status = s.status := rfl
@[simp] theorem popHost_argOut (rest : List HostEvent) (s : State) : (popHost rest s).argOut = s.argOut := rfl
@[simp] theorem popHost_argIn (rest : List HostEvent) (s : State) : (popHost rest s).argIn = s.argIn := rfl
@[simp] theorem popHost_argCount (rest : List HostEvent) (s : State) : (popHost rest s).argCount = s.argCount := rfl
@[simp] theorem popHost_cd (rest : List HostEvent) (s : State) : (popHost rest s).cd = s.cd := rfl
@[simp] theorem popHost_ld (rest : List HostEvent) (s : State) : (popHost rest s).ld = s.ld := rfl
@[simp] theorem popHost_inst (rest : List HostEvent) (s : State) : (popHost rest s).inst = s.inst := rfl
@[simp] theorem popHost_delay (rest : List HostEvent) (s : State) : (popHost rest s).delay = s.delay := rfl
@[simp] theorem popHost_lp (rest : List HostEvent) (s : State) : (popHost rest s).lp = s.lp := rfl
@[simp] theorem popHost_mem (rest : List HostEvent) (s : State) : (popHost rest s).mem = s.mem := rfl
@[simp] theorem popHost_host (rest : List HostEvent) (s : State) : (popHost rest s).host = rest := rfl
@[simp] theorem popHost_rdData (rest : List HostEvent) (s : State) : (popHost rest s).rdData = s.rdData := rfl
@[simp] theorem popHost_draws (rest : List HostEvent) (s : State) : (popHost rest s).draws = s.draws := rfl
@[simp] theorem popHost_maxChannels (rest : List HostEvent) (s : State) : (popHost rest s).maxChannels = s.maxChannels := rfl

/-! ### `hostStore` -/

@[simp] theorem hostStore_status (a : DWord) (b : Byte) (s : State) : (hostStore a b s).status = s.status := rfl
@[simp] theorem hostStore_argOut (a : DWord) (b : Byte) (s : State) : (hostStore a b s).argOut = s.argOut := rfl
@[simp] theorem hostStore_argIn (a : DWord) (b : Byte) (s : State) : (hostStore a b s).argIn = s.argIn := rfl
@[simp] theorem hostStore_argCount (a : DWord) (b : Byte) (s : State) : (hostStore a b s).argCount = s.argCount := rfl
@[simp] theorem hostStore_cd (a : DWord) (b : Byte) (s : State) : (hostStore a b s).cd = s.cd := rfl
@[simp] theorem hostStore_ld (a : DWord) (b : Byte) (s : State) : (hostStore a b s).ld = s.ld := rfl
@[simp] theorem hostStore_inst (a : DWord) (b : Byte) (s : State) : (hostStore a b s).inst = s.inst := rfl
@[simp] theorem hostStore_delay (a : DWord) (b : Byte) (s : State) : (hostStore a b s).delay = s.delay := rfl
@[simp] theorem hostStore_lp (a : DWord) (b : Byte) (s : State) : (hostStore a b s).lp = s.lp := rfl
@[simp] theorem hostStore_mem (a : DWord) (b : Byte) (s : State) : (hostStore a b s).mem = writeByte s.mem a.toNat b := rfl
@[simp] theorem hostStore_host (a : DWord) (b : Byte) (s : State) : (hostStore a b s).host = s.host := rfl
@[simp] theorem hostStore_rdData (a : DWord) (b : Byte) (s : State) : (hostStore a b s).rdData = s.rdData := rfl
@[simp] theorem hostStore_draws (a : DWord) (b : Byte) (s : State) : (hostStore a b s).draws = s.draws := rfl
@[simp] theorem hostStore_maxChannels (a : DWord) (b : Byte) (s : State) : (hostStore a b s).maxChannels = s.maxChannels := rfl

/-! ### `storeNormalised` -/

@[simp] theorem storeNormalised_status (N : Numerics) (d : BqDescr) (s : State) : (storeNormalised N d s).status = s.status := rfl
@[simp] theorem storeNormalised_argOut (N : Numerics) (d : BqDescr) (s : State) : (storeNormalised N d s).argOut = s.argOut := rfl
@[simp] theorem storeNormalised_argIn (N : Numerics) (d : BqDescr) (s : State) : (storeNormalised N d s).argIn = s.argIn := rfl
@[simp] theorem storeNormalised_argCount (N : Numerics) (d : BqDescr) (s : State) : (storeNormalised N d s).argCount = s.argCount := rfl
@[simp] theorem storeNormalised_cd (N : Numerics) (d : BqDescr) (s : State) : (storeNormalised N d s).cd = s.cd := rfl
@[simp] theorem storeNormalised_ld (N : Numerics) (d : BqDescr) (s : State) : (storeNormalised N d s).ld = s.ld := rfl
@[simp] theorem storeNormalised_inst (N : Numerics) (d : BqDescr) (s : State) : (storeNormalised N d s).inst = normalised N s.draws d := rfl
@[simp] theorem storeNormalised_delay (N : Numerics) (d : BqDescr) (s : State) : (storeNormalised N d s).delay = s.delay := rfl
@[simp] theorem storeNormalised_lp (N : Numerics) (d : BqDescr) (s : State) : (storeNormalised N d s).lp = s.lp := rfl
@[simp] theorem storeNormalised_mem (N : Numerics) (d : BqDescr) (s : State) : (storeNormalised N d s).mem = s.mem := rfl
@[simp] theorem storeNormalised_host (N : Numerics) (d : BqDescr) (s : State) : (storeNormalised N d s).host = s.host := rfl
@[simp] theorem storeNormalised_rdData (N : Numerics) (d : BqDescr) (s : State) : (storeNormalised N d s).rdData = s.rdData := rfl
@[simp] theorem storeNormalised_draws (N : Numerics) (d : BqDescr) (s : State) : (storeNormalised N d s).draws = s.draws + 1 := rfl
@[simp] theorem storeNormalised_maxChannels (N : Numerics) (d : BqDescr) (s : State) : (storeNormalised N d s).maxChannels = s.maxChannels := rfl

/-! ### `copyConfig` -/

@[simp] theorem copyConfig_status (s : State) : (copyConfig s).status = s.status := rfl
@[simp] theorem copyConfig_argOut (s : State) : (copyConfig s).argOut = s.argOut := rfl
@[simp] theorem copyConfig_argIn (s : State) : (copyConfig s).argIn = s.argIn := rfl
@[simp] theorem copyConfig_argCount (s : State) : (copyConfig s).argCount = s.argCount := rfl
@[simp] theorem copyConfig_cd (s : State) : (copyConfig s).cd = s.cd := rfl
@[simp] theorem copyConfig_ld (s : State) : (copyConfig s).ld = s.ld := rfl
@[simp] theorem copyConfig_inst (s : State) : (copyConfig s).inst = s.inst := rfl
@[simp] theorem copyConfig_delay (s : State) : (copyConfig s).delay = s.delay := rfl
@[simp] theorem copyConfig_lp (s : State) : (copyConfig s).lp = s.ld := rfl
@[simp] theorem copyConfig_mem (s : State) : (copyConfig s).mem = s.mem := rfl
@[simp] theorem copyConfig_host (s : State) : (copyConfig s).host = s.host := rfl
@[simp] theorem copyConfig_rdData (s : State) : (copyConfig s).rdData = s.rdData := rfl
@[simp] theorem copyConfig_draws (s : State) : (copyConfig s).draws = s.draws := rfl
@[simp] theorem copyConfig_maxChannels (s : State) : (copyConfig s).maxChannels = s.maxChannels := rfl

/-! ### A register write leaves everything but the operands and the descriptors -/

@[simp] theorem writeReg_status (v : DWord) (s : State) (r : Reg) : (writeReg v s r).status = s.status := by cases r <;> rfl
@[simp] theorem writeReg_inst (v : DWord) (s : State) (r : Reg) : (writeReg v s r).inst = s.inst := by cases r <;> rfl
@[simp] theorem writeReg_delay (v : DWord) (s : State) (r : Reg) : (writeReg v s r).delay = s.delay := by cases r <;> rfl
@[simp] theorem writeReg_lp (v : DWord) (s : State) (r : Reg) : (writeReg v s r).lp = s.lp := by cases r <;> rfl
@[simp] theorem writeReg_mem (v : DWord) (s : State) (r : Reg) : (writeReg v s r).mem = s.mem := by cases r <;> rfl
@[simp] theorem writeReg_host (v : DWord) (s : State) (r : Reg) : (writeReg v s r).host = s.host := by cases r <;> rfl
@[simp] theorem writeReg_rdData (v : DWord) (s : State) (r : Reg) : (writeReg v s r).rdData = s.rdData := by cases r <;> rfl
@[simp] theorem writeReg_draws (v : DWord) (s : State) (r : Reg) : (writeReg v s r).draws = s.draws := by cases r <;> rfl
@[simp] theorem writeOffset_status (off : Offset) (v : DWord) (s : State) : (writeOffset off v s).status = s.status := by
  unfold writeOffset; split <;> simp
@[simp] theorem writeOffset_inst (off : Offset) (v : DWord) (s : State) : (writeOffset off v s).inst = s.inst := by
  unfold writeOffset; split <;> simp
@[simp] theorem writeOffset_delay (off : Offset) (v : DWord) (s : State) : (writeOffset off v s).delay = s.delay := by
  unfold writeOffset; split <;> simp
@[simp] theorem writeOffset_lp (off : Offset) (v : DWord) (s : State) : (writeOffset off v s).lp = s.lp := by
  unfold writeOffset; split <;> simp
@[simp] theorem writeOffset_mem (off : Offset) (v : DWord) (s : State) : (writeOffset off v s).mem = s.mem := by
  unfold writeOffset; split <;> simp
@[simp] theorem writeOffset_host (off : Offset) (v : DWord) (s : State) : (writeOffset off v s).host = s.host := by
  unfold writeOffset; split <;> simp
@[simp] theorem writeOffset_rdData (off : Offset) (v : DWord) (s : State) : (writeOffset off v s).rdData = s.rdData := by
  unfold writeOffset; split <;> simp
@[simp] theorem writeOffset_draws (off : Offset) (v : DWord) (s : State) : (writeOffset off v s).draws = s.draws := by
  unfold writeOffset; split <;> simp
@[simp] theorem writeOffset_maxChannels (off : Offset) (v : DWord) (s : State) :
    (writeOffset off v s).maxChannels = s.maxChannels := by
  simp [State.maxChannels]

end Sys2Proof.Machine
end

