-- ==== Sys2Proof/Laws/Process.lean ====
section
/-! SUPPORT. What the loops of PROCESS leave, how they compose, and what each path of the command can answer. -/

namespace Sys2Proof.Machine

/-! ### One filter step -/

@[simp] theorem filterStep_status (N : Numerics) (n c : Nat) (s : State) : (filterStep N n c s).status = s.status := rfl
@[simp] theorem filterStep_argOut (N : Numerics) (n c : Nat) (s : State) : (filterStep N n c s).argOut = s.argOut := rfl
@[simp] theorem filterStep_argIn (N : Numerics) (n c : Nat) (s : State) : (filterStep N n c s).argIn = s.argIn := rfl
@[simp] theorem filterStep_inst (N : Numerics) (n c : Nat) (s : State) : (filterStep N n c s).inst = s.inst := rfl
@[simp] theorem filterStep_draws (N : Numerics) (n c : Nat) (s : State) : (filterStep N n c s).draws = s.draws + 1 := rfl
@[simp] theorem filterStep_delay_length (N : Numerics) (n c : Nat) (s : State) :
    (filterStep N n c s).delay.length = s.delay.length := by
  simp [filterStep]

/-- A filter step is memory, the delay line and the draw counter; everything else stays. -/
theorem filterStep_frame (N : Numerics) (n c : Nat) (s : State) :
    filterStep N n c s =
      { s with mem := (filterStep N n c s).mem, delay := (filterStep N n c s).delay, draws := s.draws + 1 } := rfl

/-- A filter step on channel `c` touches no other channel's history. -/
theorem filterStep_delay_other (N : Numerics) (n c j : Nat) (s : State) (h : c ≠ j) :
    (filterStep N n c s).delay[j]? = s.delay[j]? := by
  simp [filterStep, h]

/-- What a filter step leaves in the history of its channel. -/
theorem filterStep_delay_self (N : Numerics) (n c : Nat) (s : State) (h : c < s.delay.length) :
    (filterStep N n c s).delay[c]? =
      some (shiftHistory N s.draws (s.chan c)
        (readSample N s.draws s.inst.fmt s.mem (sampleAddr s.argIn s.inst.fmt s.inst.ch n c))
        (filterOutput N s.draws s.inst (s.chan c)
          (readSample N s.draws s.inst.fmt s.mem (sampleAddr s.argIn s.inst.fmt s.inst.ch n c)))) := by
  simp [filterStep, h]

theorem wf_writeSample {N : Numerics} {k : Nat} {fmt : Word} {m : Memory} {a : Nat} {y0 : F64} (h : Memory.wf m) :
    Memory.wf (writeSample N k fmt m a y0) := by
  unfold writeSample
  split
  · exact Memory.wf_write32 h
  · exact Memory.wf_write16 h

/-- A sample store touches only the sample's own bytes. -/
theorem readByte_writeSample_other {N : Numerics} {k : Nat} {fmt : Word} {m : Memory} {a x : Nat} {y0 : F64}
    (hf : supportedFmt fmt = true) (h : x < a ∨ a + bytesPerSample fmt ≤ x) :
    readByte (writeSample N k fmt m a y0) x = readByte m x := by
  unfold writeSample
  unfold bytesPerSample at h
  split
  · rename_i h5
    rw [h5] at h
    exact readByte_write32_other _ _ _ _ (by simpa [Config.fmtF32, Config.fmtS16] using h)
  · rename_i h5
    have h2 : fmt = Config.fmtS16 := by
      simp only [supportedFmt, Bool.or_eq_true, beq_iff_eq] at hf
      exact hf.resolve_right h5
    exact readByte_write16_other _ _ _ _ (by simpa [h2] using h)

/-! ### The loops -/

/-- What every filter step keeps, the inner loop keeps. -/
theorem runChannels_keeps {N : Numerics} {n : Nat} {P : State → Prop} (hstep : ∀ c s, P s → P (filterStep N n c s)) :
    ∀ (j c : Nat) (s : State), P s → P (runChannels N n j c s) := by
  intro j
  induction j with
  | zero => exact fun _ _ h => h
  | succ j ih => exact fun c s h => ih _ _ (hstep c s h)

/-- What every filter step keeps, the outer loop keeps. -/
theorem runFrames_keeps {N : Numerics} {P : State → Prop} (hstep : ∀ n c s, P s → P (filterStep N n c s)) :
    ∀ (j n : Nat) (s : State), P s → P (runFrames N j n s) := by
  intro j
  induction j with
  | zero => exact fun _ _ h => h
  | succ j ih => exact fun n s h => ih _ _ (runChannels_keeps (hstep n) _ _ _ h)

/-- The loops leave everything but memory, the delay line and the draw counter. -/
theorem runFrames_frame (N : Numerics) (j n : Nat) (s : State) :
    runFrames N j n s =
      { s with mem := (runFrames N j n s).mem, delay := (runFrames N j n s).delay,
               draws := (runFrames N j n s).draws } := by
  refine runFrames_keeps
    (P := fun t => t = { s with mem := t.mem, delay := t.delay, draws := t.draws }) (fun n c t h => ?_) j n s rfl
  rw [filterStep_frame, h]

theorem runChannels_frame (N : Numerics) (n j c : Nat) (s : State) :
    runChannels N n j c s =
      { s with mem := (runChannels N n j c s).mem, delay := (runChannels N n j c s).delay,
               draws := (runChannels N n j c s).draws } := by
  refine runChannels_keeps
    (P := fun t => t = { s with mem := t.mem, delay := t.delay, draws := t.draws }) (fun c t h => ?_) j c s rfl
  rw [filterStep_frame, h]

@[simp] theorem runChannels_inst (N : Numerics) (n j c : Nat) (s : State) : (runChannels N n j c s).inst = s.inst := by
  rw [runChannels_frame]

@[simp] theorem runFrames_inst (N : Numerics) (j n : Nat) (s : State) : (runFrames N j n s).inst = s.inst := by
  rw [runFrames_frame]

/-- The loops leave MAX_CHANNELS. -/
@[simp] theorem runFrames_delay_length (N : Numerics) (j n : Nat) (s : State) :
    (runFrames N j n s).delay.length = s.delay.length :=
  runFrames_keeps (P := fun t => t.delay.length = s.delay.length) (fun n c t h => by simp [h]) j n s rfl

theorem wf_runFrames {N : Numerics} {j n : Nat} {s : State} (h : Memory.wf s.mem) : Memory.wf (runFrames N j n s).mem :=
  runFrames_keeps (P := fun t => Memory.wf t.mem) (fun _ _ _ h => wf_writeSample h) j n s h

/-- The outer loop over some frames and then some more. -/
theorem runFrames_add (N : Numerics) (j1 j2 : Nat) : ∀ (n : Nat) (s : State),
    runFrames N (j1 + j2) n s = runFrames N j2 (n + j1) (runFrames N j1 n s) := by
  induction j1 with
  | zero => intro n s; simp [runFrames]
  | succ j1 ih =>
    intro n s
    rw [show j1 + 1 + j2 = (j1 + j2) + 1 by omega, runFrames, runFrames, ih]
    rw [show n + 1 + j1 = n + (j1 + 1) by omega]

/-- The inner loop over some channels and then one more. -/
theorem runChannels_succ (N : Numerics) (n j : Nat) : ∀ (c : Nat) (s : State),
    runChannels N n (j + 1) c s = filterStep N n (c + j) (runChannels N n j c s) := by
  induction j with
  | zero => intro c s; simp [runChannels]
  | succ j ih =>
    intro c s
    rw [runChannels, ih, runChannels, show c + 1 + j = c + (j + 1) by omega]

/-- No channels: the loops do nothing. -/
theorem runFrames_noChannels (N : Numerics) (j : Nat) : ∀ (n : Nat) (s : State), s.inst.ch.toNat = 0 →
    runFrames N j n s = s := by
  induction j with
  | zero => exact fun _ _ _ => rfl
  | succ j ih =>
    intro n s h
    rw [runFrames, h, runChannels, ih _ _ h]

/-! ### The paths and the command -/

@[simp] theorem freeHistory_length (s : State) : (freeHistory s).length = s.delay.length := by simp [freeHistory]

/-- Channels not in use keep their history whatever the buffers. -/
theorem freeHistory_unused (s : State) (c : Nat) (h : s.inst.ch.toNat ≤ c) : (freeHistory s)[c]? = s.delay[c]? := by
  simp only [freeHistory, List.getElem?_mapIdx]
  cases s.delay[c]? with
  | none => rfl
  | some x => simp [Nat.not_lt.mpr h]

/-- Every path of PROCESS, on whatever buffers, leaves all but memory, the delay line and the draw counter. -/
theorem onBuffers_frame {path : State → State} {s : State}
    (hp : path s = { s with mem := (path s).mem, delay := (path s).delay, draws := (path s).draws }) :
    onBuffers path s =
      { s with mem := (onBuffers path s).mem, delay := (onBuffers path s).delay, draws := (onBuffers path s).draws } := by
  unfold onBuffers
  split
  · rfl
  · split
    · rfl
    · exact hp

theorem passthroughPath_frame (s : State) :
    passthroughPath s =
      { s with mem := (passthroughPath s).mem, delay := (passthroughPath s).delay, draws := (passthroughPath s).draws } := by
  unfold passthroughPath
  split <;> rfl

theorem filterPath_frame (N : Numerics) (s : State) :
    filterPath N s =
      { s with mem := (filterPath N s).mem, delay := (filterPath N s).delay, draws := (filterPath N s).draws } :=
  runFrames_frame N _ _ s

/-- Everything a PROCESS can do: it fails, or it runs one of its two paths and succeeds. -/
theorem processWith_cases (N : Numerics) (iv : Bool) (s : State) :
    (processWith N iv s = raiseInvalid s ∧
      (nullOperand iv s = true ∨ (s.inst.pt = false ∧ supportedFmt s.inst.fmt = false))) ∨
    (processWith N iv s = succeed (onBuffers passthroughPath s) ∧ nullOperand iv s = false ∧ s.inst.pt = true) ∨
    (processWith N iv s = succeed (onBuffers (filterPath N) s) ∧ nullOperand iv s = false ∧ s.inst.pt = false ∧
      supportedFmt s.inst.fmt = true) := by
  unfold processWith
  cases nullOperand iv s <;> cases s.inst.pt <;> cases supportedFmt s.inst.fmt <;> simp

/-- On buffers the host grants, the path runs. -/
theorem onBuffers_granted {path : State → State} {s : State} (h : s.BuffersGranted) : onBuffers path s = path s := by
  simp [onBuffers, h.inside, h.apart]

/-- Every outcome of PROCESS keeps MAX_CHANNELS. -/
theorem processWith_delay_length (N : Numerics) (iv : Bool) (s : State) :
    (processWith N iv s).delay.length = s.delay.length := by
  have hb : ∀ path : State → State, (path s).delay.length = s.delay.length →
      (onBuffers path s).delay.length = s.delay.length := by
    intro path hp
    unfold onBuffers
    split
    · simp [unspecifiedPastTop]
    · split
      · simp [unspecifiedOverlap]
      · exact hp
  rcases processWith_cases N iv s with ⟨h, -⟩ | ⟨h, -⟩ | ⟨h, -⟩ <;> rw [h]
  · rfl
  · exact hb _ (by unfold passthroughPath; split <;> rfl)
  · exact hb _ (runFrames_delay_length N _ _ s)

/-- Every outcome of PROCESS keeps the canonical form of memory. -/
theorem wf_processWith {N : Numerics} {iv : Bool} {s : State} (hm : Memory.wf s.mem) :
    Memory.wf (processWith N iv s).mem := by
  have hb : ∀ path : State → State, Memory.wf (path s).mem → Memory.wf (onBuffers path s).mem := by
    intro path hp
    unfold onBuffers
    split
    · exact Memory.wf_storeCells _ _ hm
    · split
      · exact Memory.wf_fillBytes _ _ _ hm
      · exact hp
  rcases processWith_cases N iv s with ⟨h, -⟩ | ⟨h, -⟩ | ⟨h, -⟩ <;> rw [h]
  · exact hm
  · refine hb _ ?_
    unfold passthroughPath
    split
    · exact hm
    · exact Memory.wf_copyBytes _ _ _ hm
  · exact hb _ (wf_runFrames hm)

end Sys2Proof.Machine
end

