-- ==== Sys2Proof/Laws/Filter.lean ====
section
/-! SUPPORT. What the filtering path of PROCESS leaves, said once: one recurrence per channel (42_biquad_process.md R165). -/

namespace Sys2Proof.Machine

/-! ### The two loops as one recurrence per channel -/

/-- The draw of frame `n`, channel `c` of a filtering command that starts in `s`. -/
def drawAt (s : State) (n c : Nat) : Nat := s.draws + (n * s.inst.ch.toNat + c)

/-- The input sample of frame `n`, channel `c`, as memory held it before the command. -/
def inputAt (N : Numerics) (s : State) (n c : Nat) : F64 :=
  readSample N (drawAt s n c) s.inst.fmt s.mem (sampleAddr s.argIn s.inst.fmt s.inst.ch n c)

/-- The history of channel `c` before frame `n`. -/
def historyAt (N : Numerics) (s : State) (c : Nat) : Nat → Chan
  | 0 => s.chan c
  | n + 1 =>
    let h := historyAt N s c n
    shiftHistory N (drawAt s n c) h (inputAt N s n c) (filterOutput N (drawAt s n c) s.inst h (inputAt N s n c))

/-- The output of frame `n`, channel `c`. -/
def outputAt (N : Numerics) (s : State) (n c : Nat) : F64 :=
  filterOutput N (drawAt s n c) s.inst (historyAt N s c n) (inputAt N s n c)

/-- The sample of an output, as memory holds it. -/
def holdsSample (N : Numerics) (k : Nat) (fmt : Word) (m : Memory) (a : Nat) (y0 : F64) : Prop :=
  if fmt = Config.fmtF32 then read32 m a = outF32 N k y0 else read16 m a = outI16 N k y0

theorem bytesPerSample_cases {fmt : Word} (hf : supportedFmt fmt = true) :
    (fmt = Config.fmtF32 ∧ bytesPerSample fmt = 4) ∨ (fmt ≠ Config.fmtF32 ∧ bytesPerSample fmt = 2) := by
  simp only [supportedFmt, Bool.or_eq_true, beq_iff_eq] at hf
  rcases hf with rfl | rfl
  · exact .inr (by decide)
  · exact .inl (by decide)

theorem readSample_congr {N : Numerics} {k : Nat} {fmt : Word} {m m' : Memory} {a : Nat} (hf : supportedFmt fmt = true)
    (h : ∀ x, a ≤ x → x < a + bytesPerSample fmt → readByte m x = readByte m' x) :
    readSample N k fmt m a = readSample N k fmt m' a := by
  unfold readSample
  rcases bytesPerSample_cases hf with ⟨e, hb⟩ | ⟨e, hb⟩
  · rw [if_pos e, if_pos e, read32_congr fun x h1 h2 => h x h1 (by omega)]
  · rw [if_neg e, if_neg e, read16_congr (h _ (by omega) (by omega)) (h _ (by omega) (by omega))]

theorem holdsSample_congr {N : Numerics} {k : Nat} {fmt : Word} {m m' : Memory} {a : Nat} {y0 : F64}
    (hf : supportedFmt fmt = true)
    (h : ∀ x, a ≤ x → x < a + bytesPerSample fmt → readByte m x = readByte m' x)
    (hs : holdsSample N k fmt m' a y0) : holdsSample N k fmt m a y0 := by
  unfold holdsSample at *
  rcases bytesPerSample_cases hf with ⟨e, hb⟩ | ⟨e, hb⟩
  · rw [if_pos e] at *; rw [read32_congr fun x h1 h2 => h x h1 (by omega)]; exact hs
  · rw [if_neg e] at *; rw [read16_congr (h _ (by omega) (by omega)) (h _ (by omega) (by omega))]; exact hs

theorem holdsSample_writeSample {N : Numerics} {k : Nat} {fmt : Word} {m : Memory} {a : Nat} {y0 : F64}
    (hf : supportedFmt fmt = true) (ha : a + bytesPerSample fmt ≤ 2 ^ 64) :
    holdsSample N k fmt (writeSample N k fmt m a y0) a y0 := by
  unfold holdsSample writeSample
  rcases bytesPerSample_cases hf with ⟨e, hb⟩ | ⟨e, hb⟩
  · rw [if_pos e, if_pos e]; exact read32_write32 _ _ _ (by omega)
  · rw [if_neg e, if_neg e]; exact read16_write16 _ _ _ (by omega)

/-- A sample lies inside its buffer. -/
theorem sampleAddr_inside (A : DWord) (fmt ch : Word) {F n c : Nat} (hn : n < F) (hc : c < ch.toNat) :
    sampleAddr A fmt ch n c + bytesPerSample fmt ≤ A.toNat + F * bytesPerFrame fmt ch := by
  unfold sampleAddr bytesPerFrame
  have h1 : n * ch.toNat + c + 1 ≤ F * ch.toNat := by
    have : (n + 1) * ch.toNat ≤ F * ch.toNat := Nat.mul_le_mul_right _ hn
    rw [Nat.add_mul] at this; omega
  have h2 := Nat.mul_le_mul_right (bytesPerSample fmt) h1
  rw [Nat.add_mul, Nat.one_mul, Nat.mul_assoc] at h2
  omega

/-- Two samples of one buffer do not meet. -/
theorem sampleAddr_apart (A : DWord) (fmt ch : Word) {n c n' c' : Nat} (hc : c < ch.toNat) (hc' : c' < ch.toNat)
    (h : n ≠ n' ∨ c ≠ c') :
    sampleAddr A fmt ch n c + bytesPerSample fmt ≤ sampleAddr A fmt ch n' c' ∨
    sampleAddr A fmt ch n' c' + bytesPerSample fmt ≤ sampleAddr A fmt ch n c := by
  have key : ∀ n c n' c' : Nat, c < ch.toNat → (n < n' ∨ (n = n' ∧ c < c')) →
      sampleAddr A fmt ch n c + bytesPerSample fmt ≤ sampleAddr A fmt ch n' c' := by
    intro n c n' c' hc h
    have h1 : n * ch.toNat + c + 1 ≤ n' * ch.toNat + c' := by
      rcases h with h | ⟨rfl, h⟩
      · have : (n + 1) * ch.toNat ≤ n' * ch.toNat := Nat.mul_le_mul_right _ h
        rw [Nat.add_mul] at this; omega
      · omega
    have h2 := Nat.mul_le_mul_right (bytesPerSample fmt) h1
    rw [Nat.add_mul _ 1, Nat.one_mul] at h2
    unfold sampleAddr; omega
  rcases Nat.lt_trichotomy n n' with hn | hn | hn
  · exact .inl (key _ _ _ _ hc (.inl hn))
  · rcases Nat.lt_trichotomy c c' with hl | hl | hl
    · exact .inl (key _ _ _ _ hc (.inr ⟨hn, hl⟩))
    · omega
    · exact .inr (key _ _ _ _ hc' (.inr ⟨hn.symm, hl⟩))
  · exact .inr (key _ _ _ _ hc' (.inl hn))

/-- Where the loops stand: frame `n`, channel `c` of the command that started in `s` comes next. -/
structure FilterAt (N : Numerics) (s : State) (n c : Nat) (t : State) : Prop where
  inst : t.inst = s.inst
  argIn : t.argIn = s.argIn
  argOut : t.argOut = s.argOut
  draws : t.draws = drawAt s n c
  length : t.delay.length = s.delay.length
  history : ∀ c', c' < s.inst.ch.toNat → t.chan c' = historyAt N s c' (if c' < c then n + 1 else n)
  unused : ∀ c', s.inst.ch.toNat ≤ c' → t.delay[c']? = s.delay[c']?
  input : ∀ n' c', n' < s.argCount.toNat → c' < s.inst.ch.toNat → (n < n' ∨ (n = n' ∧ c ≤ c')) →
    ∀ x, sampleAddr s.argIn s.inst.fmt s.inst.ch n' c' ≤ x →
      x < sampleAddr s.argIn s.inst.fmt s.inst.ch n' c' + bytesPerSample s.inst.fmt →
      readByte t.mem x = readByte s.mem x
  output : ∀ n' c', c' < s.inst.ch.toNat → (n' < n ∨ (n' = n ∧ c' < c)) →
    holdsSample N (drawAt s n' c') s.inst.fmt t.mem (sampleAddr s.argOut s.inst.fmt s.inst.ch n' c')
      (outputAt N s n' c')
  outside : ∀ x, x < s.argOut.toNat ∨ s.argOut.toNat + extent s ≤ x → readByte t.mem x = readByte s.mem x

/-- The buffers of a command whose loops run: granted, and of a supported format, for channels that the block has. -/
structure FilterReady (s : State) : Prop where
  fmt : supportedFmt s.inst.fmt = true
  channels : s.inst.ch.toNat ≤ s.delay.length
  granted : s.BuffersGranted

theorem FilterAt.step {N : Numerics} {s t : State} {n c : Nat} (hr : FilterReady s) (hn : n < s.argCount.toNat)
    (hc : c < s.inst.ch.toNat) (h : FilterAt N s n c t) : FilterAt N s n (c + 1) (filterStep N n c t) := by
  have hE : s.argOut.toNat + extent s ≤ 2 ^ 64 ∧ (s.argOut = s.argIn ∨ s.argIn.toNat + extent s ≤ s.argOut.toNat ∨
      s.argOut.toNat + extent s ≤ s.argIn.toNat) := by
    have h1 := hr.granted.inside
    have h2 := hr.granted.apart
    simp only [pastTop, partialOverlap, decide_eq_false_iff_not, not_and_or, not_lt, not_or, not_not] at h1 h2
    refine ⟨?_, ?_⟩
    · have := s.argOut.isLt; omega
    · rcases h2 with h2 | h2 | h2
      · exact .inl h2
      · exact .inr (.inr (by omega))
      · exact .inr (.inl (by omega))
  have hin := sampleAddr_inside s.argIn s.inst.fmt s.inst.ch hn hc
  have hout := sampleAddr_inside s.argOut s.inst.fmt s.inst.ch hn hc
  change _ ≤ _ + extent s at hin hout
  have hA : s.argOut.toNat ≤ sampleAddr s.argOut s.inst.fmt s.inst.ch n c := by unfold sampleAddr; omega
  have hx0 : readSample N t.draws t.inst.fmt t.mem (sampleAddr t.argIn t.inst.fmt t.inst.ch n c) = inputAt N s n c := by
    rw [h.inst, h.argIn, h.draws, inputAt]
    exact readSample_congr hr.fmt (h.input n c hn hc (.inr ⟨rfl, le_refl c⟩))
  have hh : t.chan c = historyAt N s c n := by rw [h.history c hc, if_neg (by omega)]
  have hy0 : filterOutput N t.draws t.inst (t.chan c) (inputAt N s n c) = outputAt N s n c := by
    rw [h.inst, h.draws, hh]; rfl
  have hmem : (filterStep N n c t).mem =
      writeSample N (drawAt s n c) s.inst.fmt t.mem (sampleAddr s.argOut s.inst.fmt s.inst.ch n c) (outputAt N s n c) := by
    simp only [filterStep]; rw [hx0, hy0, h.inst, h.argOut, h.draws]
  have hdel : (filterStep N n c t).delay =
      t.delay.set c (historyAt N s c (n + 1)) := by
    simp only [filterStep]; rw [hx0, hy0, hh, h.draws]; rfl
  refine ⟨h.inst, h.argIn, h.argOut, ?_, by simp [h.length], fun c' hc' => ?_, fun c' hc' => ?_,
    fun n' c' hn' hc' hlt x hx1 hx2 => ?_,
    fun n' c' hc' hlt => ?_, fun x hx => ?_⟩
  · simp only [filterStep_draws, h.draws, drawAt]; omega
  · unfold State.chan
    rw [hdel, List.getD_eq_getElem?_getD, List.getElem?_set]
    by_cases he : c = c'
    · subst he
      rw [if_pos rfl, if_pos (by rw [h.length]; exact Nat.lt_of_lt_of_le hc hr.channels), if_pos (by omega)]
      rfl
    · rw [if_neg he, ← List.getD_eq_getElem?_getD]
      have := h.history c' hc'
      unfold State.chan at this
      rw [this]
      congr 1
      by_cases hl : c' < c
      · rw [if_pos hl, if_pos (by omega)]
      · rw [if_neg hl, if_neg (by omega)]
  · rw [filterStep_delay_other _ _ _ _ _ (by omega)]
    exact h.unused c' hc'
  · rw [hmem]
    rw [readByte_writeSample_other hr.fmt]
    · exact h.input n' c' hn' hc' (by omega) x hx1 hx2
    · have hin' := sampleAddr_inside s.argIn s.inst.fmt s.inst.ch hn' hc'
      change _ ≤ _ + extent s at hin'
      have hA' : s.argIn.toNat ≤ sampleAddr s.argIn s.inst.fmt s.inst.ch n' c' := by unfold sampleAddr; omega
      rcases hE.2 with he | he | he
      · rw [he]
        rcases sampleAddr_apart s.argIn s.inst.fmt s.inst.ch hc hc' (n := n) (n' := n') (by omega) with h1 | h1 <;> omega
      · omega
      · omega
  · rw [hmem]
    by_cases he : n' = n ∧ c' = c
    · obtain ⟨rfl, rfl⟩ := he
      exact holdsSample_writeSample hr.fmt (by omega)
    · refine holdsSample_congr hr.fmt (fun x h1 h2 => readByte_writeSample_other hr.fmt ?_) (h.output n' c' hc' (by omega))
      rcases sampleAddr_apart s.argOut s.inst.fmt s.inst.ch hc hc' (n := n) (n' := n') (by omega) with h3 | h3 <;> omega
  · rw [hmem, readByte_writeSample_other hr.fmt (by omega)]
    exact h.outside x hx

theorem FilterAt.channels {N : Numerics} {s : State} {n : Nat} (hr : FilterReady s) (hn : n < s.argCount.toNat) :
    ∀ (j c : Nat) (t : State), c + j = s.inst.ch.toNat → FilterAt N s n c t →
      FilterAt N s n s.inst.ch.toNat (runChannels N n j c t) := by
  intro j
  induction j with
  | zero => rintro c t rfl h; exact h
  | succ j ih => intro c t hj h; exact ih (c + 1) _ (by omega) (h.step hr hn (by omega))

theorem FilterAt.nextFrame {N : Numerics} {s t : State} {n : Nat} (h : FilterAt N s n s.inst.ch.toNat t) :
    FilterAt N s (n + 1) 0 t := by
  refine ⟨h.inst, h.argIn, h.argOut, ?_, h.length, fun c' hc' => ?_, h.unused, fun n' c' hn' hc' hlt => ?_,
    fun n' c' hc' hlt => ?_, h.outside⟩
  · rw [h.draws, drawAt, drawAt, Nat.add_mul]; omega
  · rw [h.history c' hc', if_pos hc', if_neg (by omega)]
  · exact h.input n' c' hn' hc' (by omega)
  · exact h.output n' c' hc' (by omega)

theorem FilterAt.frames {N : Numerics} {s : State} (hr : FilterReady s) :
    ∀ (j n : Nat) (t : State), n + j = s.argCount.toNat → FilterAt N s n 0 t →
      FilterAt N s s.argCount.toNat 0 (runFrames N j n t) := by
  intro j
  induction j with
  | zero => rintro n t rfl h; exact h
  | succ j ih =>
    intro n t hj h
    rw [runFrames, h.inst]
    exact ih (n + 1) _ (by omega) (FilterAt.channels hr (by omega) _ _ _ (by omega) h).nextFrame

theorem FilterAt.start (N : Numerics) (s : State) : FilterAt N s 0 0 s :=
  ⟨rfl, rfl, rfl, by simp [drawAt], rfl, fun _ _ => rfl, fun _ _ => rfl, fun _ _ _ _ _ _ _ _ => rfl, fun _ _ _ h => by omega,
    fun _ _ => rfl⟩

/-- What the filtering path leaves: each channel's recurrence, run over its samples as they stood before. -/
theorem filterPath_spec (N : Numerics) {s : State} (hr : FilterReady s) :
    FilterAt N s s.argCount.toNat 0 (filterPath N s) :=
  FilterAt.frames hr _ _ _ (by omega) (FilterAt.start N s)

end Sys2Proof.Machine
end

