-- ==== Sys2Proof/Tests/Slice0.lean ====
section
/-! SUPPORT. The model's own tests. Every expected value is from spec/95_test_vectors.md or from an encoding table of
spec/, never from the model; after them a witness for the hypotheses of every statement that has any. -/

namespace Sys2Proof.Tests

set_option Elab.async false

open Sys2Proof Sys2Proof.Machine Sys2Proof.Claims

/-! ### Helpers -/

/-- The next state of an outcome; the reset state where there is none. -/
def after : Host.Outcome State Fault Refusal → State
  | .next t => t
  | .fault _ => State.reset
  | .refused _ => State.reset

/-- Whether an outcome is a next state. -/
def isNext : Host.Outcome State Fault Refusal → Bool
  | .next _ => true
  | .fault _ => false
  | .refused _ => false

/-- 32-bit words stored one after another. -/
def words (a : Nat) : List F32 → Memory → Memory
  | [], m => m
  | v :: l, m => words (a + 4) l (write32 m a v)

/-- 16-bit samples stored one after another. -/
def halves (a : Nat) : List Int → Memory → Memory
  | [], m => m
  | v :: l, m => halves (a + 2) l (write16 m a (BitVec.ofInt 16 v))

/-- The first `n` words from an address on. -/
def wordsAt (m : Memory) (a : Nat) : Nat → List F32
  | 0 => []
  | n + 1 => read32 m a :: wordsAt m (a + 4) n

/-- The first `n` samples from an address on, as signed integers. -/
def halvesAt (m : Memory) (a : Nat) : Nat → List Int
  | 0 => []
  | n + 1 => (read16 m a).toInt :: halvesAt m (a + 2) n

/-- The descriptor of V10, and what V10 says the instance is after BQ_INIT. -/
def v10Descr : BqDescr :=
  ⟨5#32, 1#32, 0x4000000000000000#64, 0x3FF0000000000000#64, 0x3FE0000000000000#64, 0x3FF0000000000000#64,
    0x4000000000000000#64, 0x3FF0000000000000#64⟩

def v10Inst : BqRegs :=
  ⟨5#32, 1#32, false, 0x4000000000000000#64, 0x3FE0000000000000#64, 0x3FD0000000000000#64, 0x3FE0000000000000#64,
    0x3FF0000000000000#64, 0x3FE0000000000000#64⟩

/-- A block with the instance of V10, buffers at 0x1000 and 0x2000. -/
def v10State : State :=
  { State.reset with cd := v10Descr, inst := v10Inst, argIn := 0x1000#64, argOut := 0x2000#64, argCount := 4#64 }

/-- The scaled identity of V12 in S16, with the nine samples of V24. -/
def v24State : State :=
  { v10State with
    inst := ⟨2#32, 1#32, false, 0x4000000000000000#64, 0#64, 0#64, 0x3FF0000000000000#64, 0#64, 0#64⟩
    argCount := 9#64
    mem := halves 0x1000 [32767, 1, -1, -32768, 0, 16384, -16384, 12345, -12345] [] }

/-- The numerics with the sine and cosine that V32 and V37 state. -/
def withTrig (s c : F64) : Numerics := { ieee with sin64 := fun _ => s, cos64 := fun _ => c }

/-- The instance of V32, and the history of V31 beside it. -/
def v32Inst : BqRegs :=
  ⟨5#32, 1#32, false, 0x3FF17A0B52F0842A#64, 0xBFFD0BA31754D255#64, 0x3FEA979908A13372#64, 0x3F700A5B3EF1D8DC#64,
    0x3F800A5B3EF1D8DC#64, 0x3F700A5B3EF1D8DC#64⟩

def v31Delay : List Chan := ⟨0#32, 0#32, 0x3D1BBECA#32, 0x3CE39E59#32⟩ :: List.replicate 7 Chan.zero

/-! ### Well-formedness: an ill-formed term for each check -/

theorem test_wellFormed_refuses_misaligned_offset :
    (Instr.wr 0x044#16 0#64).wellFormed = false ∧ (Instr.rd 0x001#16).wellFormed = false := by decide +kernel

theorem test_wellFormed_refuses_offset_outside_block :
    (Instr.wr 0x5000#16 0#64).wellFormed = false ∧ (Instr.rd 0xFFF8#16).wellFormed = false := by decide +kernel

theorem test_wellFormed_accepts_last_offset :
    (Instr.wr 0x4FF8#16 0#64).wellFormed = true ∧ (Instr.rd 0x4FF8#16).wellFormed = true := by decide +kernel

/-! ### Decoding (V1 to V8): words written out from 30_encoding.md R91, R92 -/

theorem test_decode_bqInit :
    decode 0x0000000000000301#64 = .ok (.bqInit true true) ∧ decode 0x0000000000000101#64 = .ok (.bqInit true false) ∧
    decode 0x0000000000000201#64 = .ok (.bqInit false true) ∧
    decode 0x0000000000000001#64 = .ok (.bqInit false false) := by decide +kernel

theorem test_decode_bqReinit :
    decode 0x0000000000000302#64 = .ok (.bqReinit true true) ∧
    decode 0x0000000000000102#64 = .ok (.bqReinit true false) := by decide +kernel

theorem test_decode_bqProcess :
    decode 0x0000000000000103#64 = .ok (.bqProcess true) ∧ decode 0x0000000000000003#64 = .ok (.bqProcess false) := by
  decide +kernel

theorem test_decode_lpf :
    decode 0x0000000000000305#64 = .ok (.lpfInit true true) ∧ decode 0x0000000000000306#64 = .ok (.lpfReinit true true) ∧
    decode 0x0000000000000107#64 = .ok (.lpfProcess true) := by decide +kernel

theorem test_decode_rejects_bit9_in_format_P :
    decode 0x0000000000000303#64 = .error .descriptorBitInFormatP ∧
    decode 0x0000000000000203#64 = .error .descriptorBitInFormatP ∧
    decode 0x0000000000000307#64 = .error .descriptorBitInFormatP := by decide +kernel

theorem test_decode_rejects_reserved_opcodes :
    decode 0x0000000000000300#64 = .error .reservedOpcode ∧ decode 0x0000000000000304#64 = .error .reservedOpcode ∧
    decode 0x0000000000000308#64 = .error .reservedOpcode ∧ decode 0x000000000000030F#64 = .error .reservedOpcode ∧
    decode 0x0000000000000000#64 = .error .reservedOpcode := by decide +kernel

theorem test_decode_rejects_nonzero_fields :
    decode 0x0000000000000311#64 = .error .zeroFieldNonzero ∧ decode 0x0000000000000381#64 = .error .zeroFieldNonzero ∧
    decode 0x0000000000000701#64 = .error .zeroFieldNonzero ∧ decode 0x0000000080000301#64 = .error .zeroFieldNonzero ∧
    decode 0x0000000100000301#64 = .error .highHalfNonzero ∧
    decode 0xFFFFFFFFFFFFFFFF#64 = .error .highHalfNonzero := by decide +kernel

/-- 30_encoding.md R99: a host access is WR or RD. -/
theorem test_decode_access :
    decodeAccess (.write 0x050#16 0x3FF0000000000000#64) = .wr 0x050#16 0x3FF0000000000000#64 ∧
    decodeAccess (.read 0x008#16) = .rd 0x008#16 ∧ decodeAccess (.write 0x000#16 0x103#64) = .bqProcess true := by
  decide +kernel

/-- Program P1, lines 1 to 8. -/
theorem test_encode_bqConfigure :
    encode (.bqConfigure 5#64 1#64 0x4000000000000000#64 0x3FF0000000000000#64 0x3FE0000000000000#64
        0x3FF0000000000000#64 0x4000000000000000#64 0x3FF0000000000000#64) =
      [.write 0x040#16 5#64, .write 0x048#16 1#64, .write 0x050#16 0x4000000000000000#64,
        .write 0x058#16 0x3FF0000000000000#64, .write 0x060#16 0x3FE0000000000000#64,
        .write 0x068#16 0x3FF0000000000000#64, .write 0x070#16 0x4000000000000000#64,
        .write 0x078#16 0x3FF0000000000000#64] := by decide +kernel

/-- Program P4, lines 1 to 4. -/
theorem test_encode_lpfConfigure :
    encode (.lpfConfigure 2#64 2#64 0xBB80#64 0x3E8#64) =
      [.write 0x080#16 2#64, .write 0x088#16 2#64, .write 0x090#16 0xBB80#64, .write 0x098#16 0x3E8#64] := by
  decide +kernel

theorem test_decodeTableWord : decodeTableWord 32 0x301 = some (.bqInit true true) := by decide +kernel

/-- A command word placed for the fetch runs as the next step after reset (V20c: BQ_INIT null, desc fails). -/
theorem test_withFetchWord : (after (step (State.reset.withFetchWord 32 0x201))).status = 1#32 := by decide +kernel

/-! ### BQ_INIT -/

/-- V10. -/
theorem test_bqInit_normalises :
    (after (exec (.bqInit true true) { State.reset with cd := v10Descr })).inst = v10Inst ∧
    (after (exec (.bqInit true true) { State.reset with cd := v10Descr })).status = 0#32 := by decide +kernel

/-- V14: a0 = -0.0, on the instance of V10. -/
theorem test_bqInit_zero_a0_clears :
    let t := after (exec (.bqInit true true) { v10State with cd := { v10Descr with a0 := 0x8000000000000000#64 } })
    t.status = 1#32 ∧ t.inst = BqRegs.zero := by decide +kernel

/-! ### BQ_REINIT -/

/-- V13: negative zeros count as zero, and -0.0 / 1.0 stays -0.0. -/
theorem test_bqReinit_identity :
    let t := after (exec (.bqReinit true true)
      { v10State with
        cd := ⟨5#32, 1#32, 0x3FF0000000000000#64, 0x8000000000000000#64, 0#64, 0x3FF0000000000000#64,
          0x8000000000000000#64, 0#64⟩
        delay := v31Delay })
    t.status = 0#32 ∧ t.inst.pt = true ∧ t.inst.a1 = 0x8000000000000000#64 ∧ t.delay = v31Delay := by decide +kernel

/-- V16: one channel more than MAX_CHANNELS = 8, on the instance of V10. -/
theorem test_bqReinit_too_many_channels :
    let t := after (exec (.bqReinit true true) { v10State with cd := { v10Descr with ch := 9#32 } })
    t.status = 1#32 ∧ t.inst = v10Inst := by decide +kernel

/-! ### BQ_PROCESS -/

/-- V21. -/
theorem test_bqProcess_impulse_response :
    let t := after (exec (.bqProcess true) { v10State with mem := words 0x1000 [0x3F800000#32, 0#32, 0#32, 0#32] [] })
    wordsAt t.mem 0x2000 4 = [0x3F000000#32, 0x3F400000#32, 0x00000000#32, 0xBE400000#32] ∧
    t.chan 0 = ⟨0x00000000#32, 0x00000000#32, 0xBE400000#32, 0x00000000#32⟩ := by decide +kernel

/-- V24. -/
theorem test_bqProcess_integer_samples :
    halvesAt (after (exec (.bqProcess true) v24State)).mem 0x2000 9 =
      [32766, 0, 0, -32767, 0, 16383, -16383, 12344, -12344] ∧
    (after (exec (.bqProcess true) v24State)).chan 0 = ⟨0xBEC0E400#32, 0x3EC0E400#32, 0xBEC0E400#32, 0x3EC0E400#32⟩ := by
  decide +kernel

/-! ### LPF_INIT -/

/-- V32, with the sine and cosine that it states. -/
theorem test_lpfInit_coefficients :
    (lpfInitWith (withTrig 0x3FC0B5150F6DA2D0#64 0x3FEFB9EA92EC689B#64) true true
      { State.reset with ld := ⟨5#32, 1#32, 48000#32, 1000#32⟩ }).inst = v32Inst := by decide +kernel

/-- V38: LD_FMT = 3 on a live context. -/
theorem test_lpfInit_failure_clears_context :
    let t := after (exec (.lpfInit true true)
      { v10State with ld := ⟨3#32, 1#32, 48000#32, 2000#32⟩, lp := ⟨5#32, 1#32, 48000#32, 2000#32⟩, delay := v31Delay })
    t.status = 1#32 ∧ t.inst = BqRegs.zero ∧ t.lp = LpConfig.zero ∧ t.chan 0 = Chan.zero := by decide +kernel

/-! ### LPF_REINIT -/

/-- V37, with the sine and cosine that it states. -/
theorem test_lpfReinit_keeps_history :
    let t := lpfReinitWith (withTrig 0x3FD0907DC1930690#64 0x3FEEE8DD4748BF15#64) true true
      { State.reset with
        inst := v32Inst, delay := v31Delay, ld := ⟨5#32, 1#32, 48000#32, 2000#32⟩
        lp := ⟨5#32, 1#32, 48000#32, 1000#32⟩ }
    t.delay = v31Delay ∧ t.lp.fc = 2000#32 ∧
    t.inst = ⟨5#32, 1#32, false, 0x3FF2ED9EBA16132B#64, 0xBFFA20BD700C2C3E#64, 0x3FE61962E9BF338F#64,
      0x3F8D7E809A6DB126#64, 0x3F9D7E809A6DB126#64, 0x3F8D7E809A6DB126#64⟩ := by decide +kernel

/-- V38. -/
theorem test_lpfReinit_failure_changes_nothing :
    let s : State := { v10State with
      ld := ⟨3#32, 1#32, 48000#32, 2000#32⟩, lp := ⟨5#32, 1#32, 48000#32, 2000#32⟩, delay := v31Delay }
    after (exec (.lpfReinit true true) s) = { s with status := 1#32 } := by decide +kernel

/-! ### LPF_PROCESS -/

/-- V31. -/
theorem test_lpfProcess_impulse_response :
    let t := after (exec (.lpfProcess true)
      { v10State with inst := v32Inst, mem := words 0x1000 [0x3F800000#32, 0#32, 0#32, 0#32] [] })
    wordsAt t.mem 0x2000 4 = [0x3B8052DA#32, 0x3C74CC9A#32, 0x3CE39E59#32, 0x3D1BBECA#32] ∧ t.delay = v31Delay := by
  decide +kernel

/-- Program P3, lines 6 to 7: passthrough copies the NaN's payload and the sign of zero. -/
theorem test_lpfProcess_passthrough :
    let t := after (exec (.lpfProcess true)
      { v10State with
        inst := { v10Inst with pt := true }, argCount := 2#64, delay := v31Delay
        mem := words 0x1000 [0x7FC12345#32, 0x80000000#32] [] })
    wordsAt t.mem 0x2000 2 = [0x7FC12345#32, 0x80000000#32] ∧ t.delay = v31Delay := by decide +kernel

/-! ### WR, RD and the pseudo-commands -/

/-- V41. -/
theorem test_wr_masks_field :
    (after (exec (.wr 0x040#16 0xFFFFFFFF00000005#64) State.reset)).cd.fmt = 5#32 ∧
    (after (exec (.wr 0x090#16 0x000000010000BB80#64) State.reset)).ld.fs = 0xBB80#32 := by decide +kernel

/-- V42 and V43: read-only and unmapped registers ignore the write. -/
theorem test_wr_read_only :
    after (exec (.wr 0x1000#16 0x3F800000#64) v10State) = v10State ∧
    after (exec (.wr 0x110#16 1#64) v10State) = v10State ∧
    after (exec (.wr 0x028#16 0x1234#64) v10State) = v10State := by decide +kernel

/-- V10 read back (BQ_A1 is 0.5), and V31's Y2[0] at 0x4000. -/
theorem test_rd_registers :
    (after (exec (.rd 0x120#16) v10State)).rdData = 0x3FE0000000000000#64 ∧
    (after (exec (.rd 0x4000#16) { v10State with delay := v31Delay })).rdData = 0x3CE39E59#64 := by decide +kernel

/-- V43, MAX_CHANNELS = 8: CMD, X1[8] and the last offset read as zero. -/
theorem test_rd_unmapped :
    (after (exec (.rd 0x000#16) { v10State with rdData := 1#64 })).rdData = 0#64 ∧
    (after (exec (.rd 0x1040#16) { v10State with rdData := 1#64 })).rdData = 0#64 ∧
    (after (exec (.rd 0x4FF8#16) { v10State with rdData := 1#64 })).rdData = 0#64 := by decide +kernel

theorem test_bqConfigure :
    (after (exec (.bqConfigure 0xFFFFFFFF00000005#64 1#64 0x4000000000000000#64 0x3FF0000000000000#64
      0x3FE0000000000000#64 0x3FF0000000000000#64 0x4000000000000000#64 0x3FF0000000000000#64) State.reset)).cd =
      v10Descr := by decide +kernel

theorem test_lpfConfigure :
    (after (exec (.lpfConfigure 5#64 1#64 0x000000010000BB80#64 0x3E8#64) State.reset)).ld =
      ⟨5#32, 1#32, 48000#32, 1000#32⟩ := by decide +kernel

/-! ### Arithmetic -/

/-- V20: 1/3, 0.1/3 and -1/3, correctly rounded. -/
theorem test_div_rounds :
    ieeeDiv 0 0x3FF0000000000000#64 0x4008000000000000#64 = 0x3FD5555555555555#64 ∧
    ieeeDiv 0 0x3FB999999999999A#64 0x4008000000000000#64 = 0x3FA1111111111111#64 ∧
    ieeeDiv 0 0xBFF0000000000000#64 0x4008000000000000#64 = 0xBFD5555555555555#64 := by decide +kernel

/-- V20b: overflow to an infinity, gradual underflow. -/
theorem test_div_extremes :
    ieeeDiv 0 0x3FF0000000000000#64 0x0000000000000001#64 = 0x7FF0000000000000#64 ∧
    ieeeDiv 0 0#64 0x0000000000000001#64 = 0#64 := by decide +kernel

/-- V30(d): 1e30 times the binary32 1e10 overflows binary32. -/
theorem test_narrowing_overflows :
    ieeeF64ToF32 0 (ieeeMul 0 0x46293E5939A08CEA#64 (ieeeF32ToF64 0 0x501502F9#32)) = 0x7F800000#32 := by decide +kernel

/-- V30(e): 2^-140 stays a subnormal. -/
theorem test_narrowing_underflows :
    ieeeF64ToF32 0 (ieeeMul 0 0x3D70000000000000#64 (ieeeF32ToF64 0 0x0D800000#32)) = 0x00000200#32 := by decide +kernel

/-- V24: -16383.5, 16383.5 and the scaled output of -1 lose their fraction toward zero. -/
theorem test_trunc :
    ieeeTruncZ 0xC0CFFF8000000000#64 = -16383 ∧ ieeeTruncZ 0x40CFFF8000000000#64 = 16383 ∧
    ieeeTruncZ 0xBFEFFFC000000000#64 = 0 := by decide +kernel

/-- V32: `2*PI` and the angular cutoff; 43_lowpass.md R205: Q is 1/sqrt(2) rounded. -/
theorem test_angularCutoff :
    ieeeMul 0 constTwo constPi = 0x401921FB54442D18#64 ∧
    angularCutoff ieee 0 48000#32 1000#32 = 0x3FC0C152382D7365#64 ∧
    ieeeDiv 0 0x3FF0000000000000#64 0x3FF6A09E667F3BCD#64 = constQ := by decide +kernel

/-! ### The bracket of SIN64 and COS64 (log 9) -/

/-- Whether a bracket holds a value. -/
def holds (b : Bracket) (v : F64) : Bool := sign64 v == b.sign && decide (b.lo ≤ pat64 v ∧ pat64 v ≤ b.hi)

/-- Whether a bracket is two neighbouring values at most. -/
def narrow (b : Bracket) : Bool := decide (b.hi ≤ b.lo + 1)

/-- V32 and V37. -/
theorem test_brackets_below_quarter_turn :
    (holds (sinBracket 0x3FC0C152382D7365#64) 0x3FC0B5150F6DA2D0#64 && narrow (sinBracket 0x3FC0C152382D7365#64)) ∧
    (holds (cosBracket 0x3FC0C152382D7365#64) 0x3FEFB9EA92EC689B#64 && narrow (cosBracket 0x3FC0C152382D7365#64)) ∧
    (holds (sinBracket 0x3FD0C152382D7365#64) 0x3FD0907DC1930690#64 && narrow (sinBracket 0x3FD0C152382D7365#64)) ∧
    (holds (cosBracket 0x3FD0C152382D7365#64) 0x3FEEE8DD4748BF15#64 && narrow (cosBracket 0x3FD0C152382D7365#64)) := by
  decide +kernel

/-- V35: at PI, 2*PI and three quarter turns. -/
theorem test_brackets_at_and_above_nyquist :
    (holds (sinBracket 0x400921FB54442D18#64) 0x3CA1A62633145C07#64 && narrow (sinBracket 0x400921FB54442D18#64)) ∧
    (holds (cosBracket 0x400921FB54442D18#64) 0xBFF0000000000000#64 && narrow (cosBracket 0x400921FB54442D18#64)) ∧
    (holds (sinBracket 0x401921FB54442D18#64) 0xBCB1A62633145C07#64 && narrow (sinBracket 0x401921FB54442D18#64)) ∧
    (holds (sinBracket 0x4012D97C7F3321D2#64) 0xBFF0000000000000#64 && narrow (sinBracket 0x4012D97C7F3321D2#64)) ∧
    (holds (cosBracket 0x4012D97C7F3321D2#64) 0xBCAA79394C9E8A0A#64 && narrow (cosBracket 0x4012D97C7F3321D2#64)) := by
  decide +kernel

/-- The arctangent of 1/m in fixed point, `t` being the next power of 1/m. -/
def arctanSeries (m : Nat) : Nat → Nat → Nat → Nat
  | 0, _, _ => 0
  | n + 1, j, t => t / j - arctanSeries m n (j + 2) (t / (m * m))

/-- π/2 = 8 arctan(1/5) - 2 arctan(1/239) (Machin), to within the rounding of the series. -/
theorem test_halfPi :
    ((8 * arctanSeries 5 300 1 (2 ^ fixBits / 5) - 2 * arctanSeries 239 100 1 (2 ^ fixBits / 239) : Int)
      - halfPiFix).natAbs < 5000 := by decide +kernel

/-! ### Witnesses: states and operands that meet the hypotheses of the statements -/

/-- The state of V21 with its input, which the host grants. -/
def runF32 : State := { v10State with mem := words 0x1000 [0x3F800000#32, 0#32, 0#32, 0#32] [] }

/-- The same in place. -/
def runInPlace : State := { runF32 with argOut := 0x1000#64 }

/-- S16, two channels, the output ending at the top of the address space, the input right below it. -/
def runAtTop : State :=
  { v24State with
    inst := { v24State.inst with ch := 2#32 }, argCount := 3#64
    argIn := 0xFFFFFFFFFFFFFFE8#64, argOut := 0xFFFFFFFFFFFFFFF4#64 }

/-- A passthrough instance on two buffers that touch. -/
def runPassthrough : State :=
  { runF32 with inst := { v10Inst with pt := true }, argIn := 0x1000#64, argOut := 0x1010#64 }

/-- No frames, on two buffers at the last address. -/
def runNothing : State :=
  { runF32 with argCount := 0#64, argIn := 0xFFFFFFFFFFFFFFFF#64, argOut := 0xFFFFFFFFFFFFFFFE#64 }

theorem inv_runF32 : runF32.Inv :=
  ⟨by decide, by decide, by decide, by decide, by decide, by decide, by decide, by decide +kernel⟩

theorem inv_runInPlace : runInPlace.Inv :=
  ⟨by decide, by decide, by decide, by decide, by decide, by decide, by decide, by decide +kernel⟩

theorem inv_runAtTop : runAtTop.Inv :=
  ⟨by decide, by decide, by decide, by decide, by decide, by decide, by decide, by decide +kernel⟩

theorem inv_runPassthrough : runPassthrough.Inv :=
  ⟨by decide, by decide, by decide, by decide, by decide, by decide, by decide, by decide +kernel⟩

theorem inv_runNothing : runNothing.Inv :=
  ⟨by decide, by decide, by decide, by decide, by decide, by decide, by decide, by decide +kernel⟩

theorem runs_runF32 : Runs runF32 :=
  ⟨by decide, by decide, .inr (.inr rfl), .inr (by decide +kernel), .inr (by decide +kernel), .inr (.inl (by decide +kernel))⟩

theorem runs_runInPlace : Runs runInPlace :=
  ⟨by decide, by decide, .inr (.inr rfl), .inr (by decide +kernel), .inr (by decide +kernel), .inl rfl⟩

theorem runs_runAtTop : Runs runAtTop :=
  ⟨by decide, by decide, .inr (.inl rfl), .inr (by decide +kernel), .inr (by decide +kernel), .inr (.inl (by decide +kernel))⟩

/-- The scaled identity of V12 on the nine samples of V24. -/
theorem inv_v24State : v24State.Inv :=
  ⟨by decide, by decide, by decide, by decide, by decide, by decide, by decide, by decide +kernel⟩

theorem runs_v24State : Runs v24State :=
  ⟨by decide, by decide, .inr (.inl rfl), .inr (by decide +kernel), .inr (by decide +kernel), .inr (.inl (by decide +kernel))⟩

theorem scaledIdentity_v24State : ScaledIdentity v24State.inst := ⟨rfl, rfl, rfl, .inl rfl, .inl rfl, .inl rfl, .inl rfl⟩

theorem runs_runPassthrough : Runs runPassthrough :=
  ⟨by decide, by decide, .inl rfl, .inr (by decide +kernel), .inr (by decide +kernel), .inr (.inl (by decide +kernel))⟩

theorem runs_runNothing : Runs runNothing :=
  ⟨by decide, by decide, .inr (.inr rfl), .inl (by decide +kernel), .inl (by decide +kernel), .inr (.inr (by decide +kernel))⟩

/-- A block with 512 channels, the greatest MAX_CHANNELS. -/
def widest : State := { v10State with delay := List.replicate 512 ⟨1#32, 2#32, 3#32, 4#32⟩ }

theorem witness_ResetLeavesEveryRegisterZero : ∃ (s : State) (rest : List HostEvent), s.host = .reset :: rest :=
  ⟨{ v10State with host := [.reset] }, [], rfl⟩

theorem witness_EveryStepKeepsInvariant : ∃ s t : State, s.Inv ∧ step s = .next t :=
  ⟨runF32, runF32, inv_runF32, rfl⟩

theorem witness_DecodeOfEncodedInstruction :
    (Instr.wellFormed (.lpfProcess true) = true ∧ isPseudo (.lpfProcess true) = false) ∧
    (Instr.wellFormed (.wr 0x000#16 0x304#64) = true ∧ decode 0x304#64 = .error .reservedOpcode) ∧
    (Instr.wellFormed (.wr 0x000#16 0x301#64) = true ∧ decode 0x301#64 = .ok (.bqInit true true)) ∧
    (Instr.wellFormed (.rd 0x4FF8#16) = true ∧ isPseudo (.rd 0x4FF8#16) = false) ∧
    isPseudo (.lpfConfigure 5#64 1#64 48000#64 1000#64) = true ∧
    isPseudo (.bqConfigure 5#64 1#64 0#64 0#64 0#64 0#64 0#64 0#64) = true := by decide +kernel

theorem witness_EncodeOfDecodedWord : ∃ (d : DWord) (i : Instr), decode d = .ok i :=
  ⟨0x0000000000000306#64, .lpfReinit true true, by decide +kernel⟩

theorem witness_DecoderAgreesWithMatchAndMask :
    decode 0x0000000000000301#64 = .ok (.bqInit true true) ∧ decode 0x0000000000000002#64 = .ok (.bqReinit false false) ∧
    decode 0x0000000000000003#64 = .ok (.bqProcess false) ∧ decode 0x0000000000000205#64 = .ok (.lpfInit false true) ∧
    decode 0x0000000000000106#64 = .ok (.lpfReinit true false) ∧ decode 0x0000000000000107#64 = .ok (.lpfProcess true) := by
  decide +kernel

theorem witness_StepRunsDecodedInstruction :
    (∃ (s : State) (a : BusAccess) (rest : List HostEvent), s.host = .bus a :: rest) ∧
    ∃ (nbits w : Nat) (i : Instr), decodeTableWord nbits w = some i :=
  ⟨⟨{ v10State with host := [.bus (.read 0x008#16)] }, _, _, rfl⟩, 32, 0x107, .lpfProcess true, by decide +kernel⟩

theorem witness_StepOfHostMemoryAccess :
    (∃ s : State, s.host = []) ∧
    (∃ (s : State) (a : DWord) (b : Byte) (rest : List HostEvent), s.host = .memStore a b :: rest) ∧
    ∃ (s : State) (a : DWord) (rest : List HostEvent), s.host = .memLoad a :: rest :=
  ⟨⟨v10State, rfl⟩, ⟨{ v10State with host := [.memStore 0xFFFFFFFFFFFFFFFF#64 1#8] }, _, _, _, rfl⟩,
    { v10State with host := [.memLoad 0#64] }, _, _, rfl⟩

theorem witness_HostWriteMeaning :
    decode 0x103#64 = .ok (.bqProcess true) ∧ decode 0x104#64 = .error .reservedOpcode ∧
    (0x010#16, 0xFFFFFFFFFFFFFFFF#64) ∈ rwFields ∧ (0x098#16, 0xFFFFFFFF#64) ∈ rwFields ∧
    (Offset.issuable 0x008#16 = true ∧ (0x008#16 : Offset) ∉ rwFields.map (·.1)) ∧
    (Offset.issuable 0x4FF8#16 = true ∧ (0x4FF8#16 : Offset) ∉ rwFields.map (·.1)) := by decide +kernel

theorem witness_HostReadMeaning :
    (0x008#16, 0#64) ∈ readFields v10State ∧ (0x198#16, 0#64) ∈ readFields v10State ∧
    (0x1000#16, 1#64) ∈ fileFields widest 0 ∧ (0x4FF8#16, 4#64) ∈ fileFields widest 511 ∧
    (Offset.issuable 0x000#16 = true ∧ (0x000#16 : Offset) ∉ (readFields v10State).map (·.1) ∧
      ∀ c, c < 512 → (0x000#16 : Offset) ∉ (fileFields v10State c).map (·.1)) ∧
    (Offset.issuable 0x1040#16 = true ∧ (0x1040#16 : Offset) ∉ (readFields v10State).map (·.1) ∧
      ∀ c, c < 512 → (0x1040#16 : Offset) ∉ (fileFields v10State c).map (·.1)) := by decide +kernel

theorem witness_UnissuableAccessIsRefused :
    (0x0001#16 : Offset).toNat % 8 ≠ 0 ∧ 0x5000 ≤ (0x5000#16 : Offset).toNat := by decide

theorem witness_ConfigureIsItsWritesInAnyOrder : ∃ (i : Instr) (l : List BusAccess),
    isPseudo i = true ∧ l ≠ encode i ∧ l.Perm (encode i) :=
  ⟨.lpfConfigure 5#64 1#64 48000#64 1000#64, (encode (.lpfConfigure 5#64 1#64 48000#64 1000#64)).reverse, rfl,
    by decide +kernel, List.reverse_perm _⟩

theorem witness_EveryCommandEndsWithResult : isCommand (.bqInit false true) = true ∧ isCommand (.lpfProcess true) = true := by
  decide

/-- Each command with a cause of failure, and each without; an access that is no command. -/
theorem witness_FailureCausesComplete :
    (cause v10State (.bqInit true false) ∧ cause v10State (.bqReinit false true) ∧ cause v10State (.lpfInit true true) ∧
      cause v10State (.lpfReinit true true) ∧ cause v10State (.bqProcess false) ∧
      cause { v10State with argIn := 0#64 } (.lpfProcess true)) ∧
    (¬ cause v10State (.bqInit true true) ∧ ¬ cause v10State (.bqReinit true true) ∧
      ¬ cause { v10State with ld := ⟨2#32, 8#32, 0#32, 0#32⟩ } (.lpfInit true true) ∧
      ¬ cause { v10State with ld := ⟨5#32, 0#32, 0#32, 0#32⟩ } (.lpfReinit true true) ∧
      ¬ cause v10State (.bqProcess true) ∧ ¬ cause v10State (.lpfProcess true)) ∧
    ((Instr.wr 0x4FF8#16 0#64).wellFormed = true ∧ isCommand (.wr 0x4FF8#16 0#64) = false) := by
  refine ⟨⟨?_, ?_, ?_, ?_, ?_, ?_⟩, ⟨?_, ?_, ?_, ?_, ?_, ?_⟩, ?_⟩ <;> (try simp only [cause, knownFmt, isZero]) <;>
    decide +kernel

/-- Each clause of the illegal words, by a word that the other clauses leave out. -/
theorem witness_IllegalWordChangesOnlyStatus :
    (0x0000000100000301#64 : DWord).extractLsb' 32 32 ≠ 0#32 ∧ (0x0000000000000701#64 : DWord).extractLsb' 10 22 ≠ 0#22 ∧
    (0x0000000000000381#64 : DWord).extractLsb' 4 4 ≠ 0#4 ∧
    ((0x0000000000000203#64 : DWord).getLsbD 9 = true ∧ (0x0000000000000203#64 : DWord).extractLsb' 0 4 = 3#4) ∧
    ((0x0000000000000307#64 : DWord).getLsbD 9 = true ∧ (0x0000000000000307#64 : DWord).extractLsb' 0 4 = 7#4) ∧
    (0x0000000000000300#64 : DWord).extractLsb' 0 4 = 0#4 ∧ (0x0000000000000304#64 : DWord).extractLsb' 0 4 = 4#4 ∧
    8#4 ≤ (0x0000000000000308#64 : DWord).extractLsb' 0 4 ∧ 8#4 ≤ (0x000000000000030F#64 : DWord).extractLsb' 0 4 := by
  decide +kernel

theorem witness_IllegalWordChangesOnlyStatus_legal :
    ¬ illegalWord 0x0000000000000301#64 ∧ ¬ illegalWord 0x0000000000000007#64 := by
  unfold illegalWord; decide +kernel

theorem witness_CommandFrame : ∃ (i : Instr) (s t : State), isCommand i = true ∧ exec i s = .next t :=
  ⟨.bqInit true true, v10State, _, rfl, rfl⟩

/-- Descriptors that `reinit_core` accepts, at the bounds: all channels, no channel, the smallest a0, a NaN as a0. -/
theorem witness_BqInitMeaning_accepts :
    acceptable { v10Descr with ch := 8#32 } v10State.maxChannels ∧
    acceptable { v10Descr with fmt := 2#32, ch := 0#32, a0 := 0x8000000000000001#64 } v10State.maxChannels ∧
    acceptable { v10Descr with a0 := 0x7FF8000000000000#64 } v10State.maxChannels := by
  unfold acceptable knownFmt isZero; decide +kernel

/-- Descriptors that it refuses, one for each check. -/
theorem witness_BqInitMeaning_refuses :
    ¬ acceptable { v10Descr with fmt := 0x00010002#32 } v10State.maxChannels ∧
    ¬ acceptable { v10Descr with ch := 9#32 } v10State.maxChannels ∧
    ¬ acceptable { v10Descr with a0 := 0x8000000000000000#64 } v10State.maxChannels := by
  unfold acceptable knownFmt isZero; decide +kernel

theorem witness_BqReinitMeaning :
    acceptable v10State.cd v10State.maxChannels ∧ ¬ acceptable State.reset.cd State.reset.maxChannels := by
  unfold acceptable knownFmt isZero; decide +kernel

theorem witness_DivisionGuardRefusesExactlyZero :
    (knownFmt v10State.cd.fmt ∧ v10State.cd.ch.toNat ≤ v10State.maxChannels) ∧
    ∃ s : State, knownFmt s.cd.fmt ∧ s.cd.ch.toNat ≤ s.maxChannels ∧ s.cd.a0 = 0x8000000000000000#64 := by
  refine ⟨?_, { v10State with cd := { v10Descr with a0 := 0x8000000000000000#64 } }, ?_⟩ <;>
    unfold knownFmt <;> decide +kernel

theorem witness_QuotientByOneIsExact :
    isNan64 0x8000000000000000#64 = false ∧ isNan64 0x7FF0000000000000#64 = false ∧
    isNan64 0x0000000000000001#64 = false := by decide +kernel

/-- Each clause: a descriptor of either family on the reset context, a PROCESS on it, and the format 0. -/
theorem witness_ReinitOfClearedContextIsInit :
    (∃ s : State, s = clearedInstance s ∧ acceptable s.cd s.maxChannels) ∧
    (∃ s : State, s = clearedContext s ∧ knownFmt s.ld.fmt ∧ s.ld.ch.toNat ≤ s.maxChannels) ∧
    (∃ (i : Instr) (s : State), processes true i ∧ s = clearedInstance s ∧ s.argOut ≠ 0#64) ∧
    ∃ s : State, s = clearedInstance s ∧ s.cd.fmt = 0#32 := by
  refine ⟨⟨{ State.reset with cd := v10Descr }, by decide +kernel, ?_⟩,
    ⟨{ State.reset with ld := ⟨5#32, 8#32, 48000#32, 1000#32⟩ }, by decide +kernel, ?_⟩,
    ⟨.lpfProcess true, { State.reset with argOut := 0x2000#64, argIn := 0x1000#64 }, .inr rfl, by decide +kernel⟩,
    State.reset, by decide +kernel⟩ <;> (try unfold acceptable) <;> unfold knownFmt <;> (try unfold isZero) <;> decide +kernel

theorem witness_PassthroughCopiesBytes :
    (∃ (i : Instr) (s : State), processes true i ∧ s.Inv ∧ Runs s ∧ s.inst.pt = true ∧ s.argOut ≠ s.argIn) ∧
    ∃ (i : Instr) (s : State), processes true i ∧ s.Inv ∧ Runs s ∧ s.inst.pt = true ∧ s.argOut = s.argIn :=
  ⟨⟨.lpfProcess true, runPassthrough, .inr rfl, inv_runPassthrough, runs_runPassthrough, rfl, by decide⟩,
    .bqProcess true, { runPassthrough with argOut := runPassthrough.argIn }, .inl rfl,
    ⟨by decide, by decide, by decide, by decide, by decide, by decide, by decide, by decide +kernel⟩,
    ⟨by decide, by decide, .inl rfl, .inr (by decide +kernel), .inr (by decide +kernel), .inl rfl⟩, rfl, rfl⟩

/-- Two buffers, in place, at the top of the address space, and no frames. -/
theorem witness_FilterIsOneRecurrencePerChannel :
    ∀ s ∈ [runF32, runInPlace, runAtTop, runNothing], processes true (.bqProcess true) ∧ s.Inv ∧ Runs s ∧
      s.inst.pt = false := by
  intro s hs
  simp only [List.mem_cons, List.not_mem_nil, or_false] at hs
  rcases hs with rfl | rfl | rfl | rfl
  · exact ⟨.inl rfl, inv_runF32, runs_runF32, rfl⟩
  · exact ⟨.inl rfl, inv_runInPlace, runs_runInPlace, rfl⟩
  · exact ⟨.inl rfl, inv_runAtTop, runs_runAtTop, rfl⟩
  · exact ⟨.inl rfl, inv_runNothing, runs_runNothing, rfl⟩

/-- A command on granted buffers, one on buffers that overlap in part, and one past the top. -/
theorem witness_ProcessFrame :
    (processes true (.lpfProcess true) ∧ runF32.Inv ∧ (∃ t, exec (.lpfProcess true) runF32 = .next t) ∧
      pastTop runF32 = false) ∧
    (partialOverlap { runF32 with argOut := 0x100F#64 } = true ∧ pastTop { runF32 with argOut := 0x100F#64 } = false) ∧
    pastTop { runF32 with argOut := 0xFFFFFFFFFFFFFFF1#64 } = true :=
  ⟨⟨.inr rfl, inv_runF32, ⟨_, rfl⟩, by decide +kernel⟩, by decide +kernel, by decide +kernel⟩

theorem witness_StreamMayBeCutAnywhere : ∃ (i : Instr) (s : State) (n1 n2 : DWord), processes true i ∧ s.Inv ∧ Runs s ∧
    s.argCount.toNat = n1.toNat + n2.toNat ∧
    s.argIn.toNat + n1.toNat * s.inst.ch.toNat * sampleBytes s.inst.fmt < 2 ^ 64 ∧
    s.argOut.toNat + n1.toNat * s.inst.ch.toNat * sampleBytes s.inst.fmt < 2 ^ 64 :=
  ⟨.bqProcess true, runAtTop, 2#64, 1#64, .inl rfl, inv_runAtTop, runs_runAtTop, by decide +kernel, by decide +kernel,
    by decide +kernel⟩

theorem witness_InPlaceEqualsTwoBuffers : ∃ (i : Instr) (s : State), processes true i ∧ s.Inv ∧ Runs s ∧
    s.argOut ≠ s.argIn :=
  ⟨.bqProcess true, runAtTop, .inl rfl, inv_runAtTop, runs_runAtTop, by decide +kernel⟩

theorem witness_NoFramesOrNoChannelsChangesNothing :
    (runNothing.argOut ≠ 0#64 ∧ runNothing.argIn ≠ 0#64 ∧ knownFmt runNothing.inst.fmt ∧ runNothing.argCount = 0#64) ∧
    ∃ s : State, s.argOut ≠ 0#64 ∧ s.argIn ≠ 0#64 ∧ s.inst.pt = true ∧ s.inst.ch = 0#32 := by
  refine ⟨?_, { runPassthrough with inst := { v10Inst with pt := true, ch := 0#32 } }, ?_⟩
  · unfold knownFmt; decide +kernel
  · decide +kernel

/-- One byte past the top, and two buffers that share one byte. -/
theorem witness_UnsupportedBuffersAreNoError :
    (∃ s : State, s.argOut ≠ 0#64 ∧ s.argIn ≠ 0#64 ∧ knownFmt s.inst.fmt ∧ pastTop s = true) ∧
    ∃ s : State, s.argOut ≠ 0#64 ∧ s.argIn ≠ 0#64 ∧ s.inst.pt = true ∧ partialOverlap s = true := by
  refine ⟨⟨{ runF32 with argOut := 0xFFFFFFFFFFFFFFF1#64 }, ?_⟩, { runPassthrough with argOut := 0x100F#64 }, ?_⟩
  · unfold knownFmt; decide +kernel
  · decide +kernel

theorem witness_IntegerSampleIsScaledExactly : ∃ (k a : Nat) (m : Memory) (x0 : F64), x0 = readSample ieee k 2#32 m a :=
  ⟨0, 0x1000, v24State.mem, _, rfl⟩

/-- The most negative sample; the command of V24, and two channels up to the top of memory whose history is not zero. -/
theorem witness_UnitGainTruncatesTowardZero :
    (∃ (k a : Nat) (m : Memory) (x0 : F64), x0 = readSample ieee k 2#32 m a) ∧
    (processes true (.bqProcess true) ∧ v24State.Inv ∧ Runs v24State ∧ ScaledIdentity v24State.inst ∧
      0 < v24State.inst.ch.toNat ∧ finiteHistory (v24State.chan 0) ∧ 8 < v24State.argCount.toNat) ∧
    ∃ (s : State) (c : Nat), processes true (.lpfProcess true) ∧ s.Inv ∧ Runs s ∧ ScaledIdentity s.inst ∧
      c < s.inst.ch.toNat ∧ finiteHistory (s.chan c) ∧ 2 < s.argCount.toNat :=
  ⟨⟨0, 0x1006, v24State.mem, _, rfl⟩,
    ⟨.inl rfl, inv_v24State, runs_v24State, scaledIdentity_v24State, by decide, by unfold finiteHistory; decide +kernel,
      by decide⟩,
    { runAtTop with delay := List.replicate 8 ⟨0x7F7FFFFF#32, 0x80000001#32, 0xFF7FFFFF#32, 0x80000000#32⟩ }, 1, .inr rfl,
    ⟨by decide, by decide, by decide, by decide, by decide, by decide, by decide, by decide +kernel⟩,
    ⟨by decide, by decide, .inr (.inl rfl), .inr (by decide +kernel), .inr (by decide +kernel),
      .inr (.inl (by decide +kernel))⟩, ⟨rfl, rfl, rfl, .inl rfl, .inl rfl, .inl rfl, .inl rfl⟩,
    by decide +kernel, by unfold finiteHistory; decide +kernel, by decide +kernel⟩

theorem witness_FloatSampleIsStoredExactly :
    isNan32 0x7F800000#32 = false ∧ isNan32 0x80000001#32 = false ∧ isNan32 0xFF7FFFFF#32 = false := by decide +kernel

/-- A NaN in Y1 of the last channel of two, in S16; and one in X1, in F32. -/
theorem witness_NanIsSticky :
    (∃ (s : State) (c : Nat), s.Inv ∧ Runs s ∧ s.inst.pt = false ∧ c < s.inst.ch.toNat ∧
      isNan32 (s.chan c).y1 = true ∧ s.argCount ≠ 0#64) ∧
    ∃ (s : State) (c : Nat), s.Inv ∧ Runs s ∧ s.inst.pt = false ∧ c < s.inst.ch.toNat ∧
      isNan32 (s.chan c).x1 = true ∧ s.inst.fmt = 5#32 ∧ 0 < s.argCount.toNat :=
  ⟨⟨{ runAtTop with delay := List.replicate 8 ⟨0#32, 0#32, 0x7F800001#32, 0#32⟩ }, 1,
      ⟨by decide, by decide, by decide, by decide, by decide, by decide, by decide, by decide +kernel⟩,
      ⟨by decide, by decide, .inr (.inl rfl), .inr (by decide +kernel), .inr (by decide +kernel),
        .inr (.inl (by decide +kernel))⟩, rfl, by decide +kernel, by decide +kernel, by decide +kernel⟩,
    { runF32 with delay := List.replicate 8 ⟨0xFFFFFFFF#32, 0#32, 0#32, 0#32⟩ }, 0,
    ⟨by decide, by decide, by decide, by decide, by decide, by decide, by decide, by decide +kernel⟩,
    ⟨by decide, by decide, .inr (.inr rfl), .inr (by decide +kernel), .inr (by decide +kernel),
      .inr (.inl (by decide +kernel))⟩, rfl, by decide +kernel, by decide +kernel, rfl, by decide +kernel⟩

theorem witness_ProcessIgnoresDescriptors : processes false (.bqProcess false) ∧ processes true (.lpfProcess true) :=
  ⟨.inl rfl, .inr rfl⟩

theorem witness_LpfInitMeaning :
    (∃ s : State, knownFmt s.ld.fmt ∧ s.ld.ch.toNat ≤ s.maxChannels) ∧
    ∃ s : State, ¬ (knownFmt s.ld.fmt ∧ s.ld.ch.toNat ≤ s.maxChannels) := by
  refine ⟨⟨{ v10State with ld := ⟨5#32, 8#32, 48000#32, 1000#32⟩ }, ?_⟩,
    { v10State with ld := ⟨5#32, 9#32, 48000#32, 1000#32⟩ }, ?_⟩ <;> unfold knownFmt <;> decide +kernel

theorem witness_LpfReinitMeaning :
    (∃ s : State, knownFmt s.ld.fmt ∧ s.ld.ch.toNat ≤ s.maxChannels) ∧
    ∃ s : State, ¬ (knownFmt s.ld.fmt ∧ s.ld.ch.toNat ≤ s.maxChannels) := by
  refine ⟨⟨{ v10State with ld := ⟨2#32, 0#32, 0#32, 0#32⟩ }, ?_⟩,
    { v10State with ld := ⟨3#32, 1#32, 48000#32, 1000#32⟩ }, ?_⟩ <;> unfold knownFmt <;> decide +kernel

/-- Whatever the configuration, the listing gives a descriptor. -/
theorem witness_LowpassA0IsNeverZero (l : LpConfig) : ∃ d : BqDescr, lowpassFrom l d := by
  obtain ⟨w, hw⟩ : ∃ w, w = ieee.fdiv64 0 (ieee.fmul64 0 0x401921FB54442D18#64 (ieee.u32ToF64 l.fc)) (ieee.u32ToF64 l.fs) :=
    ⟨_, rfl⟩
  obtain ⟨alpha, ha⟩ : ∃ alpha, alpha = ieee.fdiv64 0 (ieee.sin64 w) 0x3FF6A09E667F3BCC#64 := ⟨_, rfl⟩
  obtain ⟨b0, hb⟩ : ∃ b0, b0 = ieee.fdiv64 0 (ieee.fsub64 0 0x3FF0000000000000#64 (ieee.cos64 w)) 0x4000000000000000#64 :=
    ⟨_, rfl⟩
  exact ⟨⟨l.fmt, l.ch, _, _, _, b0, _, b0⟩, fun _ => 0, w, alpha, hw, ha, rfl, rfl, rfl, rfl, rfl, rfl, hb, rfl⟩

theorem witness_ZeroCutoffCoefficients : ∃ s : State, knownFmt s.ld.fmt ∧ s.ld.ch.toNat ≤ s.maxChannels ∧
    s.ld.fc = 0#32 ∧ s.ld.fs ≠ 0#32 := by
  refine ⟨{ v10State with ld := ⟨5#32, 8#32, 1#32, 0#32⟩ }, ?_⟩
  unfold knownFmt; decide +kernel

/-- With a cutoff (an infinite quotient) and without one (a NaN). -/
theorem witness_ZeroSampleRateGivesNanCoefficients : ∀ fc ∈ [0#32, 1000#32, 0xFFFFFFFF#32],
    ∃ s : State, knownFmt s.ld.fmt ∧ s.ld.ch.toNat ≤ s.maxChannels ∧ s.ld.fs = 0#32 ∧ s.ld.fc = fc := by
  intro fc _
  exact ⟨{ v10State with ld := ⟨5#32, 1#32, 0#32, fc⟩ }, .inr rfl, by show 1 ≤ 8; omega, rfl, rfl⟩

theorem witness_SineAndCosineProperties :
    isFinite64 0x7FEFFFFFFFFFFFFF#64 = true ∧ isFinite64 0x8000000000000000#64 = true ∧
    isFinite64 0x7FF0000000000000#64 = false ∧ isFinite64 0xFFF0000000000001#64 = false := by decide +kernel

theorem witness_SamplesAreLittleEndian : (2 ^ 64 - 2 + 2 ≤ 2 ^ 64 ∧ 1 < 2) ∧ (2 ^ 64 - 4 + 4 ≤ 2 ^ 64 ∧ 3 < 4) := by
  decide +kernel

/-- The same memory, built in two orders. -/
theorem witness_EqualReadsAreEqualMemories :
    Memory.wf (writeByte (writeByte [] 5 1#8) 3 2#8) ∧ Memory.wf (writeByte (writeByte [] 3 2#8) 5 1#8) ∧
    writeByte (writeByte [] 5 1#8) 3 2#8 = writeByte (writeByte [] 3 2#8) 5 1#8 := by decide +kernel

/-- Finite operands and a divisor that is not zero; and for the narrowing a NaN, an infinity, and finite values half way
between two binary32: 1 + 2^-24, the greatest finite binary32 with half a unit more, and half the smallest subnormal. -/
theorem witness_ArithmeticRoundsToNearest :
    (isFinite64 0x3FF0000000000000#64 = true ∧ isFinite64 0x8000000000000001#64 = true ∧
      ¬ isZero 0x8000000000000001#64) ∧
    isNan64 0xFFF0000000000001#64 = true ∧ isInf64 0xFFF0000000000000#64 = true ∧
    isFinite64 0x3FF0000010000000#64 = true ∧ isFinite64 0x47EFFFFFF0000000#64 = true ∧
    isFinite64 0x3690000000000000#64 = true := by unfold isZero; decide +kernel

/-- R10's ties, by hand: 1 + 2^-24 and 1 + 3 * 2^-24 lie half way between two binary32 and go to the even one; half a unit
above the greatest finite one goes to the infinity, and half the smallest subnormal to zero, with its sign. -/
theorem test_narrowing_ties_to_even :
    ieeeF64ToF32 0 0x3FF0000010000000#64 = 0x3F800000#32 ∧ ieeeF64ToF32 0 0x3FF0000030000000#64 = 0x3F800002#32 ∧
    ieeeF64ToF32 0 0x47EFFFFFF0000000#64 = 0x7F800000#32 ∧ ieeeF64ToF32 0 0xB690000000000000#64 = 0x80000000#32 := by
  decide +kernel

theorem witness_WideningIsExact :
    isNan32 0x7F800001#32 = true ∧ isInf32 0xFF800000#32 = true ∧ isFinite32 0x80000001#32 = true ∧
    isFinite32 0x7F7FFFFF#32 = true := by decide +kernel

end Sys2Proof.Tests
end

/-! PROOFS. 00_scope.md R10: one rounding to nearest for every primitive of the arithmetic, and exact widening. Both say of
signed values what Laws/Float.lean says of patterns. -/

namespace Sys2Proof.Machine

open Sys2Proof.Claims

/-! ### Integers from a sign and a magnitude -/

/-- The integer of a sign and a magnitude; `val64` and `val32` are of this form. -/
def signedVal (s : Bool) (m : Nat) : Int := if s then -(m : Int) else (m : Int)

theorem val64_eq_signedVal (a : F64) : val64 a = signedVal (sign64 a) (mag64 a) := rfl

theorem val32_eq_signedVal (a : F32) : val32 a = signedVal (sign32 a) (mag32 a) := rfl

@[simp] theorem signedVal_zero (s : Bool) : signedVal s 0 = 0 := by cases s <;> rfl

@[simp] theorem natAbs_signedVal (s : Bool) (m : Nat) : (signedVal s m).natAbs = m := by
  cases s <;> simp [signedVal]

/-- The sign of a value that is not zero. -/
theorem sign_eq_of_signedVal_ne_zero {s : Bool} {m : Nat} (h : signedVal s m ≠ 0) : s = decide (signedVal s m < 0) := by
  cases s <;> simp [signedVal] at h ⊢
  exact Nat.pos_of_ne_zero h

/-- An integer is its sign and its magnitude; of zero the sign does not matter. -/
theorem signedVal_natAbs {s : Bool} {v : Int} (h : v ≠ 0 → s = decide (v < 0)) : signedVal s v.natAbs = v := by
  by_cases hv : v = 0
  · subst hv; exact signedVal_zero s
  · have hs := h hv
    cases s <;> simp [signedVal] at hs ⊢
    · exact hs
    · rw [abs_of_neg hs, neg_neg]

theorem signedVal_mul (s t : Bool) (m n : Nat) : signedVal s m * signedVal t n = signedVal (s != t) (m * n) := by
  cases s <;> cases t <;> simp [signedVal]

theorem signedVal_mul_natCast (s : Bool) (m n : Nat) : signedVal s m * n = signedVal s (m * n) := by
  cases s <;> simp [signedVal]

theorem sign_signedVal (s : Bool) {m : Nat} (hm : m ≠ 0) : (signedVal s m).sign = signedVal s 1 := by
  obtain ⟨k, rfl⟩ := Nat.exists_eq_succ_of_ne_zero hm
  cases s
  · rfl
  · exact Int.sign_neg _

/-- Two values of one sign are as far apart as their magnitudes. -/
theorem natAbs_signedVal_sub (s : Bool) (m n : Nat) :
    (signedVal s m - signedVal s n).natAbs = ((m : Int) - n).natAbs := by
  cases s <;> simp only [signedVal, Bool.false_eq_true, if_true, if_false]
  omega

/-- Two values of opposite signs are as far apart as their magnitudes add up to. -/
theorem natAbs_signedVal_sub_of_ne {s t : Bool} (h : t ≠ s) (m n : Nat) :
    (signedVal t m - signedVal s n).natAbs = m + n := by
  cases s <;> cases t <;> simp [signedVal] at h ⊢ <;> omega

/-! ### One rounding of a signed value, in any format -/

@[simp] theorem magOf_zero (fb : Nat) : magOf fb 0 = 0 := by simp [magOf]

/-- `patternOf_nearest` with signs: a value of the other sign is never nearer than zero, which is a pattern as well. -/
theorem signedVal_patternOf_nearest {fb top n d : Nat} (s s' : Bool) (p' : Nat) (hd : 0 < d) (hfb : 0 < fb)
    (htop : patternOf nearestEven fb top n d < top) :
    (signedVal s (magOf fb (patternOf nearestEven fb top n d)) * d - signedVal s n).natAbs ≤
        (signedVal s' (magOf fb p') * d - signedVal s n).natAbs ∧
      ((signedVal s' (magOf fb p') * d - signedVal s n).natAbs =
          (signedVal s (magOf fb (patternOf nearestEven fb top n d)) * d - signedVal s n).natAbs →
        signedVal s' (magOf fb p') = signedVal s (magOf fb (patternOf nearestEven fb top n d)) ∨
          patternOf nearestEven fb top n d % 2 = 0) := by
  have near := fun p => patternOf_nearest fb top n d p hd hfb htop
  generalize patternOf nearestEven fb top n d = P at near ⊢
  simp only [signedVal_mul_natCast, natAbs_signedVal_sub]
  by_cases hs : s' = s
  · subst hs
    rw [natAbs_signedVal_sub]
    obtain ⟨hle, htie⟩ := near p'
    exact ⟨hle, fun h => (htie h).imp_left (congrArg _)⟩
  · rw [natAbs_signedVal_sub_of_ne hs]
    obtain ⟨hle, htie⟩ := near 0
    simp only [magOf_zero, Nat.zero_mul] at hle htie
    refine ⟨by omega, fun h => ?_⟩
    have hz : magOf fb p' = 0 := by
      have : magOf fb p' * d = 0 := by omega
      exact (Nat.mul_eq_zero.mp this).resolve_right hd.ne'
    rw [hz, Nat.zero_mul] at h
    refine (htie (by omega)).imp_left fun h0 => ?_
    rw [hz, ← h0, signedVal_zero, signedVal_zero]

/-! ### Rounding to binary64 -/

theorem patternOf_inf64_lt (n d : Nat) : patternOf nearestEven 52 inf64 n d < 2 ^ 63 :=
  Nat.lt_of_le_of_lt (patternOf_le _ _ _ _ _) (by decide)

@[simp] theorem sign64_round64 (s : Bool) (n d : Nat) : sign64 (round64 s n d) = s :=
  sign64_pack64 _ _ (patternOf_inf64_lt n d)

@[simp] theorem pat64_round64 (s : Bool) (n d : Nat) : pat64 (round64 s n d) = patternOf nearestEven 52 inf64 n d :=
  pat64_pack64 _ _ (patternOf_inf64_lt n d)

theorem val64_round64 (s : Bool) (n d : Nat) :
    val64 (round64 s n d) = signedVal s (magOf 52 (patternOf nearestEven 52 inf64 n d)) := by
  rw [val64_eq_signedVal, sign64_round64, mag64, pat64_round64]

/-- The last bit of a binary64 is that of its pattern. -/
theorem getLsbD_zero_of_pat64_even {a : F64} (h : pat64 a % 2 = 0) : a.getLsbD 0 = false := by
  unfold pat64 at h
  simp only [BitVec.getLsbD, Nat.testBit_zero, decide_eq_false_iff_not]
  omega

/-- `patternOf_overflow` for binary64. -/
theorem isInf64_round64 (s : Bool) (n : Nat) {d : Nat} (hd : 0 < d) :
    isInf64 (round64 s n d) = true ↔ (2 ^ 54 - 1) * 2 ^ 2044 * d ≤ n := by
  have h : ∀ K, inf64 = (K + 3) * 2 ^ 52 →
      (patternOf nearestEven 52 inf64 n d = inf64 ↔ (2 ^ 54 - 1) * 2 ^ K * d ≤ n) :=
    fun K hK => hK ▸ patternOf_overflow 52 K n d hd
  rw [isInf64, pat64_round64, decide_eq_true_eq]
  exact h 2044 rfl

/-- `round64` is one rounding of the signed quotient. -/
theorem rounded64_round64 (s : Bool) (n : Nat) {d : Nat} (hd : 0 < d) :
    rounded64 (round64 s n d) (signedVal s n) d := by
  refine ⟨isNan64_round64 s n d, fun h => ?_, ?_, fun hfin r' _ => ?_⟩
  · rw [sign64_round64]; exact sign_eq_of_signedVal_ne_zero h
  · rw [natAbs_signedVal]; exact isInf64_round64 s n hd
  · have htop : patternOf nearestEven 52 inf64 n d < inf64 := by
      rwa [isFinite64_iff, pat64_round64] at hfin
    obtain ⟨hle, htie⟩ := signedVal_patternOf_nearest s (sign64 r') (pat64 r') hd (by decide) htop
    rw [val64_round64]
    refine ⟨hle, fun h => (htie h).imp_right fun heven => ?_⟩
    exact getLsbD_zero_of_pat64_even (by rwa [pat64_round64])

/-! ### Rounding to binary32 -/

theorem patternOf_inf32_lt (n d : Nat) : patternOf nearestEven 23 inf32 n d < 2 ^ 31 :=
  Nat.lt_of_le_of_lt (patternOf_le _ _ _ _ _) (by decide)

theorem sign32_pack32 (s : Bool) (p : Nat) (h : p < 2 ^ 31) : sign32 (pack32 s p) = s := by
  rw [sign32_eq]
  unfold pack32
  rw [BitVec.toNat_ofNat]
  cases s <;> simp <;> omega

theorem getLsbD_zero_of_pat32_even {a : F32} (h : pat32 a % 2 = 0) : a.getLsbD 0 = false := by
  unfold pat32 at h
  simp only [BitVec.getLsbD, Nat.testBit_zero, decide_eq_false_iff_not]
  omega

theorem rounded32_pack32 (s : Bool) (n : Nat) {d : Nat} (hd : 0 < d) :
    rounded32 (pack32 s (patternOf nearestEven 23 inf32 n d)) (signedVal s n) d := by
  have hsign := sign32_pack32 s _ (patternOf_inf32_lt n d)
  have hpat := pat32_pack32 s _ (patternOf_inf32_lt n d)
  refine ⟨?_, fun h => ?_, ?_, fun hfin r' _ => ?_⟩
  · rw [isNan32, hpat, decide_eq_false_iff_not, Nat.not_lt]; exact patternOf_le _ _ _ _ _
  · rw [hsign]; exact sign_eq_of_signedVal_ne_zero h
  · rw [natAbs_signedVal, isInf32, hpat, decide_eq_true_eq]
    exact patternOf_overflow 23 252 n d hd
  · have htop : patternOf nearestEven 23 inf32 n d < inf32 := by
      rwa [isFinite32, hpat, decide_eq_true_eq] at hfin
    obtain ⟨hle, htie⟩ := signedVal_patternOf_nearest s (sign32 r') (pat32 r') hd (by decide) htop
    rw [val32_eq_signedVal, hsign, mag32, hpat]
    refine ⟨hle, fun h => (htie h).imp_right fun heven => ?_⟩
    exact getLsbD_zero_of_pat32_even (by rwa [hpat])

/-! ### The operations on finite operands -/

theorem ieeeAdd_rounded64 (k : Nat) {a b : F64} (ha : isFinite64 a = true) (hb : isFinite64 b = true) :
    rounded64 (ieeeAdd k a b) (val64 a + val64 b) 1 := by
  have hround : ieeeAdd k a b =
      round64 (if val64 a + val64 b = 0 then sign64 a && sign64 b else decide (val64 a + val64 b < 0))
        (val64 a + val64 b).natAbs 1 := by
    simp [ieeeAdd, isNan64_of_finite ha, isNan64_of_finite hb, isInf64_of_finite ha, isInf64_of_finite hb]
  rw [hround]
  generalize val64 a + val64 b = v
  have h := rounded64_round64 (if v = 0 then sign64 a && sign64 b else decide (v < 0)) v.natAbs Nat.one_pos
  rwa [signedVal_natAbs fun hv => if_neg hv] at h

theorem pat64_ieeeNeg (a : F64) : pat64 (ieeeNeg a) = pat64 a := by
  unfold ieeeNeg pat64
  rw [BitVec.toNat_xor, Nat.xor_mod_two_pow]
  simp

theorem sign64_ieeeNeg (a : F64) : sign64 (ieeeNeg a) = !sign64 a := by
  unfold sign64 ieeeNeg
  rw [BitVec.msb_xor, show (0x8000000000000000#64).msb = true by decide, Bool.xor_true]

theorem isFinite64_ieeeNeg (a : F64) : isFinite64 (ieeeNeg a) = isFinite64 a := by
  rw [isFinite64, pat64_ieeeNeg, isFinite64]

theorem val64_ieeeNeg (a : F64) : val64 (ieeeNeg a) = -val64 a := by
  rw [val64_eq_signedVal, val64_eq_signedVal, mag64, pat64_ieeeNeg, sign64_ieeeNeg, mag64]
  cases sign64 a <;> simp [signedVal]

theorem ieeeSub_rounded64 (k : Nat) {a b : F64} (ha : isFinite64 a = true) (hb : isFinite64 b = true) :
    rounded64 (ieeeSub k a b) (val64 a - val64 b) 1 := by
  have h := ieeeAdd_rounded64 k ha ((isFinite64_ieeeNeg b).trans hb)
  rwa [val64_ieeeNeg, ← Int.sub_eq_add_neg] at h

theorem ieeeMul_rounded64 (k : Nat) {a b : F64} (ha : isFinite64 a = true) (hb : isFinite64 b = true) :
    rounded64 (ieeeMul k a b) (val64 a * val64 b) unit64 := by
  have hround : ieeeMul k a b = round64 (sign64 a != sign64 b) (mag64 a * mag64 b) unit64 := by
    simp [ieeeMul, isNan64_of_finite ha, isNan64_of_finite hb, isInf64_of_finite ha, isInf64_of_finite hb]
  rw [hround, val64_eq_signedVal, val64_eq_signedVal, signedVal_mul]
  exact rounded64_round64 _ _ unit64_pos

/-- A divisor that is not zero has a magnitude. -/
theorem mag64_pos {b : F64} (hb : isZero64 b = false) : 0 < mag64 b := by
  have hp : 0 < pat64 b := Nat.pos_of_ne_zero (by simpa [isZero64] using hb)
  simpa [mag64] using magOf_strictMono 52 hp

theorem ieeeDiv_rounded64 (k : Nat) {a b : F64} (ha : isFinite64 a = true) (hb : isFinite64 b = true)
    (hz : isZero64 b = false) :
    rounded64 (ieeeDiv k a b) (val64 a * unit64 * (val64 b).sign) (val64 b).natAbs := by
  have hround : ieeeDiv k a b = round64 (sign64 a != sign64 b) (mag64 a * unit64) (mag64 b) := by
    simp [ieeeDiv, isNan64_of_finite ha, isNan64_of_finite hb, isInf64_of_finite ha, isInf64_of_finite hb, hz]
  have hpos := mag64_pos hz
  rw [hround, val64_eq_signedVal, val64_eq_signedVal, sign_signedVal _ hpos.ne', natAbs_signedVal,
    signedVal_mul_natCast, signedVal_mul, Nat.mul_one]
  exact rounded64_round64 _ _ hpos

theorem isZero64_eq_false {b : F64} (h : ¬ isZero b) : isZero64 b = false :=
  Bool.eq_false_iff.mpr fun hz => h ((isZero64_iff b).mp hz)

/-! ### The narrowing -/

theorem ieeeF64ToF32_inf {k : Nat} {a : F64} (h : isInf64 a = true) : ieeeF64ToF32 k a = pack32 (sign64 a) inf32 := by
  have hn : isNan64 a = false := by
    rw [isNan64_eq_false]; exact (of_decide_eq_true h).le
  simp [ieeeF64ToF32, hn, h]

theorem ieeeF64ToF32_finite {k : Nat} {a : F64} (h : isFinite64 a = true) :
    ieeeF64ToF32 k a = pack32 (sign64 a) (patternOf nearestEven 23 inf32 (mag64 a) unit32) := by
  simp [ieeeF64ToF32, isNan64_of_finite h, isInf64_of_finite h]

theorem sign32_ieeeF64ToF32 {k : Nat} {a : F64} (h : isNan64 a = false) : sign32 (ieeeF64ToF32 k a) = sign64 a := by
  cases hi : isInf64 a
  · rw [ieeeF64ToF32_finite (isFinite64_of_not h hi), sign32_pack32 _ _ (patternOf_inf32_lt _ _)]
  · rw [ieeeF64ToF32_inf hi, sign32_pack32 _ _ (by decide)]

theorem ieeeF64ToF32_rounded32 (k : Nat) {a : F64} (h : isFinite64 a = true) :
    rounded32 (ieeeF64ToF32 k a) (val64 a) unit32 := by
  rw [ieeeF64ToF32_finite h, val64_eq_signedVal]
  exact rounded32_pack32 _ _ unit32_pos

/-- Settles O46: each primitive is one `round64` (or `pack32` of a rounded pattern) of its exact signed quotient, and those
round to nearest. -/
theorem arithmeticRoundsToNearest : Obligations.ArithmeticRoundsToNearest := by
  refine ⟨fun k a b ha hb => ⟨ieeeAdd_rounded64 k ha hb, ieeeSub_rounded64 k ha hb, ieeeMul_rounded64 k ha hb,
    fun hz => ieeeDiv_rounded64 k ha hb (isZero64_eq_false hz)⟩, fun k a => ⟨_, rfl, ?_⟩⟩
  refine ⟨ieeeF64ToF32_nan, sign32_ieeeF64ToF32, fun hi => ?_, ieeeF64ToF32_rounded32 k⟩
  show isInf32 (ieeeF64ToF32 k a) = true
  rw [ieeeF64ToF32_inf hi, isInf32, pat32_pack32 _ _ (by decide), decide_eq_true_eq]

/-! ### Exact conversions -/

/-- The least value of binade `K + 1`. -/
theorem magOf_binade_start (fb K : Nat) : magOf fb ((K + 1) * 2 ^ fb) = 2 ^ fb * 2 ^ K := by
  rw [Nat.succ_mul]
  exact magOf_binade fb K (2 ^ fb) (.inr le_rfl) (Nat.pow_le_pow_right Nat.two_pos (Nat.le_succ fb))

/-- A magnitude of at most 53 significant bits, inside the range of binary64, is not rounded. -/
theorem round64_exact (s : Bool) {m j : Nat} (hm : m < 2 ^ 53) (hj : j ≤ 2045) :
    isFinite64 (round64 s (m * 2 ^ j) 1) = true ∧ val64 (round64 s (m * 2 ^ j) 1) = signedVal s (m * 2 ^ j) := by
  have hlt : m * 2 ^ j < magOf 52 inf64 := by
    obtain ⟨K, hK, htop⟩ : ∃ K, j + 1 ≤ K ∧ inf64 = (K + 1) * 2 ^ 52 := ⟨2046, by omega, rfl⟩
    rw [htop, magOf_binade_start]
    calc m * 2 ^ j < 2 ^ 53 * 2 ^ j := Nat.mul_lt_mul_of_pos_right hm (Nat.two_pow_pos j)
      _ = 2 ^ 52 * 2 ^ (j + 1) := by rw [Nat.pow_succ]; omega
      _ ≤ 2 ^ 52 * 2 ^ K := Nat.mul_le_mul_left _ (Nat.pow_le_pow_right Nat.two_pos hK)
  obtain ⟨hmag, hfin⟩ := magOf_patternOf 52 inf64 m j 1 (m * 2 ^ j) hm rfl hlt Nat.one_pos
  rw [Nat.mul_one] at hmag hfin
  rw [isFinite64_iff, pat64_round64, val64_round64, hmag]
  exact ⟨hfin, rfl⟩

/-- The significant bits and the binade of what a pattern stands for. -/
theorem magOf_eq_mul_two_pow (fb p : Nat) : ∃ m, m < 2 ^ (fb + 1) ∧ magOf fb p = m * 2 ^ (p / 2 ^ fb - 1) := by
  have hp : 2 ^ (fb + 1) = 2 * 2 ^ fb := Nat.pow_succ'
  have hmod := Nat.mod_lt p (Nat.two_pow_pos fb)
  unfold magOf
  split
  · rename_i h0
    have hlt := (Nat.div_eq_zero_iff.mp h0).resolve_left (Nat.two_pow_pos fb).ne'
    exact ⟨p, by omega, by simp [h0]⟩
  · exact ⟨_, by omega, rfl⟩

theorem ieeeF32ToF64_inf {k : Nat} {a : F32} (h : isInf32 a = true) :
    ieeeF32ToF64 k a = pack64 (sign32 a) inf64 := by
  have hn : isNan32 a = false := by
    rw [isNan32, of_decide_eq_true h]; decide
  simp [ieeeF32ToF64, hn, h]

theorem ieeeF32ToF64_finite {k : Nat} {a : F32} (hn : isNan32 a = false) (hi : isInf32 a = false) :
    ieeeF32ToF64 k a = round64 (sign32 a) (mag32 a * unit32) 1 := by
  simp [ieeeF32ToF64, hn, hi]

theorem sign64_ieeeF32ToF64 {k : Nat} {a : F32} (h : isNan32 a = false) : sign64 (ieeeF32ToF64 k a) = sign32 a := by
  cases hi : isInf32 a
  · rw [ieeeF32ToF64_finite h hi, sign64_round64]
  · rw [ieeeF32ToF64_inf hi, sign64_pack64 _ _ (by decide)]

/-- A binary32 has 24 significant bits and at most 253 binades above its unit: both fit in binary64. -/
theorem ieeeF32ToF64_exact (k : Nat) {a : F32} (h : isFinite32 a = true) :
    isFinite64 (ieeeF32ToF64 k a) = true ∧ val64 (ieeeF32ToF64 k a) = val32 a * unit32 := by
  have hp : pat32 a < inf32 := of_decide_eq_true h
  have hn : isNan32 a = false := decide_eq_false hp.le.not_gt
  have hi : isInf32 a = false := decide_eq_false hp.ne
  obtain ⟨m, hm, hmag⟩ := magOf_eq_mul_two_pow 23 (pat32 a)
  have hj : pat32 a / 2 ^ 23 - 1 + 925 ≤ 2045 := by unfold inf32 at hp; omega
  rw [ieeeF32ToF64_finite hn hi, val32_eq_signedVal, signedVal_mul_natCast, mag32, hmag, unit32, Nat.mul_assoc,
    ← Nat.pow_add]
  exact round64_exact _ (by omega) hj

theorem ieeeI16ToF64_exact (h : BitVec 16) :
    isFinite64 (ieeeI16ToF64 h) = true ∧ val64 (ieeeI16ToF64 h) = h.toInt * unit64 := by
  have hm : h.toInt.natAbs < 2 ^ 53 := by
    have hlo := BitVec.le_two_mul_toInt (x := h)
    have hhi := BitVec.two_mul_toInt_lt (x := h)
    omega
  have hsigned : signedVal h.msb h.toInt.natAbs = h.toInt := signedVal_natAbs fun _ => BitVec.msb_eq_toInt
  have hexact := round64_exact h.msb hm (show 1074 ≤ 2045 by decide)
  rwa [← signedVal_mul_natCast, hsigned] at hexact

theorem ieeeU32ToF64_exact (u : Word) :
    isFinite64 (ieeeU32ToF64 u) = true ∧ val64 (ieeeU32ToF64 u) = (u.toNat : Int) * unit64 := by
  have hm : u.toNat < 2 ^ 53 := by have := u.isLt; omega
  have hexact := round64_exact false hm (show 1074 ≤ 2045 by decide)
  rwa [← signedVal_mul_natCast] at hexact

/-- Settles O47: a finite binary32 and an integer have few enough significant bits not to be rounded (`round64_exact`). -/
theorem wideningIsExact : Obligations.WideningIsExact := by
  refine ⟨fun k a => ⟨ieeeF32ToF64_nan, sign64_ieeeF32ToF64, fun hi => ?_, ieeeF32ToF64_exact k⟩, ieeeI16ToF64_exact,
    ieeeU32ToF64_exact⟩
  show isInf64 (ieeeF32ToF64 k a) = true
  rw [ieeeF32ToF64_inf hi, isInf64, pat64_pack64 _ _ (by decide), decide_eq_true_eq]

end Sys2Proof.Machine

/-! PROOFS. 10_state.md R36 and R37: reset, the invariants that every step keeps, and what each command leaves. Each
command has one lemma that says which fields it can change, and one that says it keeps the invariants. -/

namespace Sys2Proof.Machine

open Sys2Proof.Claims

/-! ### One step, by the host's next event -/

theorem step_idle {s : State} (h : s.host = []) : step s = .next s := by
  rw [step, h]

theorem step_bus {s : State} {a : BusAccess} {rest : List HostEvent} (h : s.host = .bus a :: rest) :
    step s = exec (decodeAccess a) (popHost rest s) := by
  rw [step, h]

theorem step_memStore {s : State} {a : DWord} {b : Byte} {rest : List HostEvent} (h : s.host = .memStore a b :: rest) :
    step s = .next (hostStore a b (popHost rest s)) := by
  rw [step, h]

theorem step_memLoad {s : State} {a : DWord} {rest : List HostEvent} (h : s.host = .memLoad a :: rest) :
    step s = .next (hostLoad a (popHost rest s)) := by
  rw [step, h]

theorem step_reset {s : State} {rest : List HostEvent} (h : s.host = .reset :: rest) :
    step s = .next (resetBlock (popHost rest s)) := by
  rw [step, h]

/-! ### One instruction, by its constructor -/

theorem exec_bqInit (iv dv : Bool) (s : State) : exec (.bqInit iv dv) s = .next (bqInitWith ieee iv dv s) := rfl

theorem exec_bqReinit (iv dv : Bool) (s : State) : exec (.bqReinit iv dv) s = .next (bqReinitWith ieee iv dv s) := rfl

theorem exec_bqProcess (iv : Bool) (s : State) : exec (.bqProcess iv) s = .next (processWith ieee iv s) := rfl

theorem exec_lpfInit (iv dv : Bool) (s : State) : exec (.lpfInit iv dv) s = .next (lpfInitWith ieee iv dv s) := rfl

theorem exec_lpfReinit (iv dv : Bool) (s : State) : exec (.lpfReinit iv dv) s = .next (lpfReinitWith ieee iv dv s) := rfl

theorem exec_lpfProcess (iv : Bool) (s : State) : exec (.lpfProcess iv) s = .next (processWith ieee iv s) := rfl

/-- What the decoder answers is one of the six commands. -/
theorem isCommand_of_decode_ok {d : DWord} {i : Instr} (h : decode d = .ok i) : isCommand i = true := by
  obtain ⟨hwr, hrd, hbq, hlpf⟩ := Laws.decode_ok_isCommand h
  cases i with
  | bqInit | bqReinit | bqProcess | lpfInit | lpfReinit | lpfProcess => rfl
  | wr off v => exact absurd rfl (hwr off v)
  | rd off => exact absurd rfl (hrd off)
  | bqConfigure fmt ch a0 a1 a2 b0 b1 b2 => exact absurd rfl (hbq fmt ch a0 a1 a2 b0 b1 b2)
  | lpfConfigure fmt ch fs fc => exact absurd rfl (hlpf fmt ch fs fc)

/-! ### The fields each command can change -/

theorem reinitFromCd_frame (N : Numerics) (s : State) :
    reinitFromCd N s =
      { s with status := (reinitFromCd N s).status, inst := (reinitFromCd N s).inst,
               draws := (reinitFromCd N s).draws } := by
  rcases reinitFromCd_cases N s with ⟨-, h⟩ | ⟨-, h⟩ <;> rw [h] <;> rfl

theorem reinitFromLd_frame (N : Numerics) (s : State) :
    reinitFromLd N s =
      { s with status := (reinitFromLd N s).status, inst := (reinitFromLd N s).inst, lp := (reinitFromLd N s).lp,
               draws := (reinitFromLd N s).draws } := by
  rcases reinitFromLd_cases N s with ⟨-, h⟩ | ⟨-, h⟩ <;> rw [h] <;> rfl

theorem bqInitWith_frame (N : Numerics) (iv dv : Bool) (s : State) :
    bqInitWith N iv dv s =
      { s with status := (bqInitWith N iv dv s).status, inst := (bqInitWith N iv dv s).inst,
               delay := (bqInitWith N iv dv s).delay, draws := (bqInitWith N iv dv s).draws } := by
  unfold bqInitWith
  split
  · split
    · rw [reinitFromCd_frame]; rfl
    · rfl
  · rfl

theorem bqReinitWith_frame (N : Numerics) (iv dv : Bool) (s : State) :
    bqReinitWith N iv dv s =
      { s with status := (bqReinitWith N iv dv s).status, inst := (bqReinitWith N iv dv s).inst,
               draws := (bqReinitWith N iv dv s).draws } := by
  unfold bqReinitWith
  split
  · exact reinitFromCd_frame N s
  · rfl

theorem lpfInitWith_frame (N : Numerics) (iv dv : Bool) (s : State) :
    lpfInitWith N iv dv s =
      { s with status := (lpfInitWith N iv dv s).status, inst := (lpfInitWith N iv dv s).inst,
               delay := (lpfInitWith N iv dv s).delay, lp := (lpfInitWith N iv dv s).lp,
               draws := (lpfInitWith N iv dv s).draws } := by
  unfold lpfInitWith
  split
  · split
    · rw [reinitFromLd_frame]; rfl
    · rfl
  · rfl

theorem lpfReinitWith_frame (N : Numerics) (iv dv : Bool) (s : State) :
    lpfReinitWith N iv dv s =
      { s with status := (lpfReinitWith N iv dv s).status, inst := (lpfReinitWith N iv dv s).inst,
               lp := (lpfReinitWith N iv dv s).lp, draws := (lpfReinitWith N iv dv s).draws } := by
  unfold lpfReinitWith
  split
  · exact reinitFromLd_frame N s
  · rfl

/-- PROCESS, on whatever buffers: past the top of memory too (log 8). -/
theorem processWith_frame (N : Numerics) (iv : Bool) (s : State) :
    processWith N iv s =
      { s with status := (processWith N iv s).status, mem := (processWith N iv s).mem,
               delay := (processWith N iv s).delay, draws := (processWith N iv s).draws } := by
  rcases processWith_cases N iv s with ⟨h, -⟩ | ⟨h, -⟩ | ⟨h, -⟩ <;> rw [h]
  · rfl
  · rw [onBuffers_frame (passthroughPath_frame s)]; rfl
  · rw [onBuffers_frame (filterPath_frame N s)]; rfl

/-! ### MAX_CHANNELS -/

@[simp] theorem reinitFromCd_delay (N : Numerics) (s : State) : (reinitFromCd N s).delay = s.delay := by
  rw [reinitFromCd_frame]

@[simp] theorem reinitFromLd_delay (N : Numerics) (s : State) : (reinitFromLd N s).delay = s.delay := by
  rw [reinitFromLd_frame]

theorem bqInitWith_delay_length (N : Numerics) (iv dv : Bool) (s : State) :
    (bqInitWith N iv dv s).delay.length = s.delay.length := by
  cases iv <;> cases dv <;> simp [bqInitWith, State.maxChannels]

theorem lpfInitWith_delay_length (N : Numerics) (iv dv : Bool) (s : State) :
    (lpfInitWith N iv dv s).delay.length = s.delay.length := by
  cases iv <;> cases dv <;> simp [lpfInitWith, State.maxChannels]

/-! ### What keeps the invariants -/

/-- The invariants look at MAX_CHANNELS, `BQ_*`, STATUS and memory alone. -/
theorem State.Inv.of_same {s t : State} (h : s.Inv) (hmax : t.maxChannels = s.maxChannels) (hinst : t.inst = s.inst)
    (hres : t.status = Config.success ∨ t.status = Config.invalidArgument) (hmem : Memory.wf t.mem) : t.Inv where
  maxChannelsPos := hmax ▸ h.maxChannelsPos
  maxChannelsBound := hmax ▸ h.maxChannelsBound
  passthroughFmt := hinst ▸ h.passthroughFmt
  instFmt := hinst ▸ h.instFmt
  instCh := hmax ▸ hinst ▸ h.instCh
  clearedInst := hinst ▸ h.clearedInst
  result := hres
  memory := hmem

/-- Cleared `BQ_*` registers are sound, whatever the delay line holds (R34, R36(d)). -/
theorem State.Inv.of_cleared {s t : State} (h : s.Inv) (hmax : t.maxChannels = s.maxChannels)
    (hinst : t.inst = BqRegs.zero) (hres : t.status = Config.success ∨ t.status = Config.invalidArgument)
    (hmem : Memory.wf t.mem) : t.Inv where
  maxChannelsPos := hmax ▸ h.maxChannelsPos
  maxChannelsBound := hmax ▸ h.maxChannelsBound
  passthroughFmt := by simp [hinst, BqRegs.zero]
  instFmt := by simp [hinst, BqRegs.zero]
  instCh := by simp [hinst, BqRegs.zero]
  clearedInst := fun _ => hinst
  result := hres
  memory := hmem

theorem inv_succeed {s : State} (h : s.Inv) : (succeed s).Inv := h.of_same rfl rfl (.inl rfl) h.memory

theorem inv_raiseInvalid {s : State} (h : s.Inv) : (raiseInvalid s).Inv := h.of_same rfl rfl (.inr rfl) h.memory

theorem inv_zeroInstance {s : State} (h : s.Inv) : (zeroInstance s).Inv :=
  h.of_cleared (zeroInstance_maxChannels s) rfl h.result h.memory

theorem inv_zeroContext {s : State} (h : s.Inv) : (zeroContext s).Inv :=
  h.of_cleared (zeroContext_maxChannels s) rfl h.result h.memory

theorem inv_resetBlock {s : State} (h : s.Inv) : (resetBlock s).Inv :=
  h.of_cleared (resetBlock_maxChannels s) rfl (.inl rfl) h.memory

theorem inv_popHost {s : State} (h : s.Inv) (rest : List HostEvent) : (popHost rest s).Inv :=
  h.of_same rfl rfl h.result h.memory

theorem inv_returnData {s : State} (h : s.Inv) (v : DWord) : (returnData v s).Inv :=
  h.of_same rfl rfl h.result h.memory

theorem inv_hostStore {s : State} (h : s.Inv) (a : DWord) (b : Byte) : (hostStore a b s).Inv :=
  h.of_same rfl rfl h.result (Memory.wf_writeByte h.memory)

theorem inv_writeOffset {s : State} (h : s.Inv) (off : Offset) (v : DWord) : (writeOffset off v s).Inv :=
  h.of_same (by simp) (by simp) (by simpa using h.result) (by simpa using h.memory)

theorem inv_copyConfig {s : State} (h : s.Inv) : (copyConfig s).Inv := h.of_same rfl rfl h.result h.memory

/-- The three checks are what makes the `BQ_*` of a stored descriptor sound (R36(a) to (d)). -/
theorem inv_storeNormalised {N : Numerics} {d : BqDescr} {s : State} (h : s.Inv)
    (hd : validDescr N s.maxChannels d = true) : (storeNormalised N d s).Inv := by
  obtain ⟨⟨hfmt, hch⟩, -⟩ : (supportedFmt d.fmt = true ∧ d.ch.toNat ≤ s.maxChannels) ∧ zeroA0 N d.a0 = false := by
    simpa [validDescr, channelsFit] using hd
  rw [supportedFmt_iff] at hfmt
  exact
    { maxChannelsPos := h.maxChannelsPos
      maxChannelsBound := h.maxChannelsBound
      passthroughFmt := fun _ => hfmt
      instFmt := .inr hfmt
      instCh := hch
      clearedInst := fun h0 => by
        change d.fmt = 0#32 at h0
        simp [h0] at hfmt
      result := h.result
      memory := h.memory }

/-! ### Every command, every access and every step keeps them -/

theorem inv_reinitFromCd {N : Numerics} {s : State} (h : s.Inv) : (reinitFromCd N s).Inv := by
  rcases reinitFromCd_cases N s with ⟨hd, he⟩ | ⟨-, he⟩ <;> rw [he]
  · exact inv_succeed (inv_storeNormalised h hd)
  · exact inv_raiseInvalid h

theorem inv_reinitFromLd {N : Numerics} {s : State} (h : s.Inv) : (reinitFromLd N s).Inv := by
  rcases reinitFromLd_cases N s with ⟨hd, he⟩ | ⟨-, he⟩ <;> rw [he]
  · exact inv_succeed (inv_copyConfig (inv_storeNormalised h hd))
  · exact inv_raiseInvalid h

theorem inv_bqInitWith {N : Numerics} {iv dv : Bool} {s : State} (h : s.Inv) : (bqInitWith N iv dv s).Inv := by
  unfold bqInitWith
  split
  · split
    · exact inv_reinitFromCd (inv_zeroInstance h)
    · exact inv_raiseInvalid (inv_zeroInstance h)
  · exact inv_raiseInvalid h

theorem inv_bqReinitWith {N : Numerics} {iv dv : Bool} {s : State} (h : s.Inv) :
    (bqReinitWith N iv dv s).Inv := by
  unfold bqReinitWith
  split
  · exact inv_reinitFromCd h
  · exact inv_raiseInvalid h

theorem inv_lpfInitWith {N : Numerics} {iv dv : Bool} {s : State} (h : s.Inv) : (lpfInitWith N iv dv s).Inv := by
  unfold lpfInitWith
  split
  · split
    · exact inv_reinitFromLd (inv_zeroContext h)
    · exact inv_raiseInvalid (inv_zeroContext h)
  · exact inv_raiseInvalid h

theorem inv_lpfReinitWith {N : Numerics} {iv dv : Bool} {s : State} (h : s.Inv) :
    (lpfReinitWith N iv dv s).Inv := by
  unfold lpfReinitWith
  split
  · exact inv_reinitFromLd h
  · exact inv_raiseInvalid h

theorem processWith_status (N : Numerics) (iv : Bool) (s : State) :
    (processWith N iv s).status = Config.success ∨ (processWith N iv s).status = Config.invalidArgument := by
  rcases processWith_cases N iv s with ⟨h, -⟩ | ⟨h, -⟩ | ⟨h, -⟩ <;> rw [h]
  · exact .inr rfl
  · exact .inl rfl
  · exact .inl rfl

theorem inv_processWith {N : Numerics} {iv : Bool} {s : State} (h : s.Inv) : (processWith N iv s).Inv :=
  h.of_same (processWith_delay_length N iv s) (by rw [processWith_frame]) (processWith_status N iv s)
    (wf_processWith h.memory)

theorem inv_command {i : Instr} {s t : State} (h : s.Inv) (hi : isCommand i = true) (he : exec i s = .next t) :
    t.Inv := by
  cases i with
  | bqInit iv dv => cases (exec_bqInit iv dv s).symm.trans he; exact inv_bqInitWith h
  | bqReinit iv dv => cases (exec_bqReinit iv dv s).symm.trans he; exact inv_bqReinitWith h
  | bqProcess iv => cases (exec_bqProcess iv s).symm.trans he; exact inv_processWith h
  | lpfInit iv dv => cases (exec_lpfInit iv dv s).symm.trans he; exact inv_lpfInitWith h
  | lpfReinit iv dv => cases (exec_lpfReinit iv dv s).symm.trans he; exact inv_lpfReinitWith h
  | lpfProcess iv => cases (exec_lpfProcess iv s).symm.trans he; exact inv_processWith h
  | wr | rd | bqConfigure | lpfConfigure => cases hi

theorem inv_runCommand {v : DWord} {s t : State} (h : s.Inv) (he : runCommand v s = .next t) : t.Inv := by
  cases hd : decode v with
  | ok i =>
    rw [Laws.runCommand_ok hd] at he
    exact inv_command h (isCommand_of_decode_ok hd) he
  | error e =>
    cases (Laws.runCommand_error hd s).symm.trans he
    exact inv_raiseInvalid h

theorem inv_execWr {off : Offset} {v : DWord} {s t : State} (h : s.Inv) (he : execWr off v s = .next t) :
    t.Inv := by
  unfold execWr at he
  split at he
  · split at he
    · exact inv_runCommand h he
    · cases he; exact inv_writeOffset h off v
  · cases he

theorem inv_execRd {off : Offset} {s t : State} (h : s.Inv) (he : execRd off s = .next t) : t.Inv := by
  unfold execRd at he
  split at he
  · cases he; exact inv_returnData h _
  · cases he

theorem inv_exec {i : Instr} {s t : State} (h : s.Inv) (he : exec i s = .next t) : t.Inv := by
  cases i with
  | bqInit | bqReinit | bqProcess | lpfInit | lpfReinit | lpfProcess => exact inv_command h rfl he
  | wr off v => exact inv_execWr h he
  | rd off => exact inv_execRd h he
  | bqConfigure | lpfConfigure => cases he; exact h.of_same rfl rfl h.result h.memory

/-- Settles O3: by the host's next event, a register access by the instruction it decodes to. -/
theorem everyStepKeepsInvariant : Obligations.EveryStepKeepsInvariant := by
  intro s t h he
  cases hs : s.host with
  | nil => cases (step_idle hs).symm.trans he; exact h
  | cons e rest =>
    cases e with
    | bus a => rw [step_bus hs] at he; exact inv_exec (inv_popHost h rest) he
    | memStore a b => cases (step_memStore hs).symm.trans he; exact inv_hostStore (inv_popHost h rest) a b
    | memLoad a => cases (step_memLoad hs).symm.trans he; exact inv_returnData (inv_popHost h rest) _
    | reset => cases (step_reset hs).symm.trans he; exact inv_resetBlock (inv_popHost h rest)

/-! ### The frame of the commands -/

/-- The fields that are no operand, no descriptor, no event of the host and not its last read. -/
theorem sameOperands_update (s : State) (status : Word) (inst : BqRegs) (delay : List Chan) (lp : LpConfig)
    (mem : Memory) (draws : Nat) :
    sameOperands s
      { s with status := status, inst := inst, delay := delay, lp := lp, mem := mem, draws := draws } :=
  ⟨rfl, rfl, rfl, rfl, rfl, rfl, rfl⟩

/-- What either PROCESS leaves, memory and the delay line's elements apart. -/
theorem processWith_leaves (N : Numerics) (iv : Bool) (s : State) :
    sameOperands s (processWith N iv s) ∧ (processWith N iv s).delay.length = s.delay.length ∧
      (processWith N iv s).lp = s.lp ∧ (processWith N iv s).inst = s.inst := by
  refine ⟨?_, processWith_delay_length N iv s, ?_, ?_⟩ <;> rw [processWith_frame]
  exact sameOperands_update ..

/-- Settles O18: each command's frame lemma, and that no command changes the length of the delay line. -/
theorem commandFrame : Obligations.CommandFrame := by
  intro i s t hi he
  cases i with
  | bqInit iv dv =>
    cases (exec_bqInit iv dv s).symm.trans he
    refine ⟨?_, bqInitWith_delay_length .., fun _ => ?_, fun _ => ?_, by simp [processes]⟩ <;> rw [bqInitWith_frame]
    exact sameOperands_update ..
  | bqReinit iv dv =>
    cases (exec_bqReinit iv dv s).symm.trans he
    refine ⟨?_, ?_, fun _ => ?_, fun _ => ?_, by simp [processes]⟩ <;> rw [bqReinitWith_frame]
    exact sameOperands_update ..
  | lpfInit iv dv =>
    cases (exec_lpfInit iv dv s).symm.trans he
    refine ⟨?_, lpfInitWith_delay_length .., fun _ => ?_, fun h => absurd rfl (h iv dv).1, by simp [processes]⟩ <;>
      rw [lpfInitWith_frame]
    exact sameOperands_update ..
  | lpfReinit iv dv =>
    cases (exec_lpfReinit iv dv s).symm.trans he
    refine ⟨?_, ?_, fun _ => ?_, fun h => absurd rfl (h iv dv).2, by simp [processes]⟩ <;> rw [lpfReinitWith_frame]
    exact sameOperands_update ..
  | bqProcess iv =>
    cases (exec_bqProcess iv s).symm.trans he
    obtain ⟨hops, hlen, hlp, hinst⟩ := processWith_leaves ieee iv s
    exact ⟨hops, hlen, fun h => absurd (.inl rfl) (h iv), fun _ => hlp, fun _ _ => hinst⟩
  | lpfProcess iv =>
    cases (exec_lpfProcess iv s).symm.trans he
    obtain ⟨hops, hlen, hlp, hinst⟩ := processWith_leaves ieee iv s
    exact ⟨hops, hlen, fun h => absurd (.inr rfl) (h iv), fun _ => hlp, fun _ _ => hinst⟩
  | wr | rd | bqConfigure | lpfConfigure => cases hi

/-! ### Reset -/

/-- The reset state is a state that a reset leaves as it is. -/
theorem resetBlock_reset : resetBlock State.reset = State.reset := rfl

@[simp] theorem chan_resetBlock (s : State) (c : Nat) : (resetBlock s).chan c = Chan.zero := by
  rw [State.chan, resetBlock_delay, List.getD_eq_getElem?_getD, List.getElem?_getD_replicate_default_eq]

theorem readReg_resetBlock (s : State) (r : Reg) : readReg (resetBlock s) r = 0#64 := by
  cases r with
  | x1 c | x2 c | y1 c | y2 c => rw [readReg, chan_resetBlock]; rfl
  | _ => rfl

theorem readOffset_resetBlock (off : Offset) (s : State) : readOffset off (resetBlock s) = 0#64 := by
  unfold readOffset
  split
  · exact readReg_resetBlock s _
  · rfl

/-- Settles O1: a reset zeroes every register, and the reset state is what a reset leaves of itself. -/
theorem resetLeavesEveryRegisterZero : Obligations.ResetLeavesEveryRegisterZero := by
  refine ⟨fun off => ?_, fun s rest h => ⟨_, step_reset h, fun off => readOffset_resetBlock off _, rfl, rfl, rfl, rfl⟩⟩
  rw [← resetBlock_reset]
  exact readOffset_resetBlock off State.reset

/-- Settles O2: `BQ_*` is cleared, and no byte of memory is listed. -/
theorem resetStateMeetsInvariant : Obligations.ResetStateMeetsInvariant where
  maxChannelsPos := by decide
  maxChannelsBound := by decide
  passthroughFmt := by decide
  instFmt := .inl rfl
  instCh := by decide
  clearedInst := fun _ => rfl
  result := .inl rfl
  memory := Memory.wf_nil

end Sys2Proof.Machine

/-! PROOFS. 20_memory.md R60, R62 and R70: a canonical listing is determined by what it reads, samples go byte by byte,
and the host's memory accesses move one byte. -/

namespace Sys2Proof.Machine

/-! ### Canonical memories (R60) -/

theorem readByte_cons_of_ne {k a : Nat} (c : Byte) (m : Memory) (h : k ≠ a) : readByte ((k, c) :: m) a = readByte m a :=
  if_neg h

/-- Nothing behind the head of a canonical listing repeats the head's address. -/
theorem Memory.wf.head_not_mem {k : Nat} {c b : Byte} {m : Memory} (h : Memory.wf ((k, c) :: m)) : (k, b) ∉ m :=
  fun hb => Nat.lt_irrefl k ((List.pairwise_cons.mp h.1).1 _ hb)

/-- A canonical listing holds exactly the bytes that do not read as an unwritten one. -/
theorem mem_iff_readByte {m : Memory} (h : m.wf) (a : Nat) (b : Byte) :
    (a, b) ∈ m ↔ readByte m a = b ∧ b ≠ initByte := by
  induction m with
  | nil => exact iff_of_false List.not_mem_nil fun ⟨hr, hb⟩ => hb hr.symm
  | cons p m ih =>
    obtain ⟨k, c⟩ := p
    by_cases hk : k = a
    · subst hk
      have hread : readByte ((k, c) :: m) k = c := if_pos rfl
      have hc : c ≠ initByte := (h.2 (k, c) List.mem_cons_self).2
      rw [List.mem_cons, or_iff_left h.head_not_mem, hread, Prod.mk.injEq]
      exact ⟨fun ⟨_, hb⟩ => ⟨hb.symm, hb ▸ hc⟩, fun ⟨hb, _⟩ => ⟨rfl, hb.symm⟩⟩
    · have hne : (a, b) ≠ (k, c) := fun he => hk (congrArg Prod.fst he).symm
      rw [List.mem_cons, or_iff_right hne, readByte_cons_of_ne c m hk]
      exact ih (Memory.wf_tail h)

/-- Settles O45: by `mem_iff_readByte` the two listings have the same cells, and both list them by rising address. -/
theorem equalReadsAreEqualMemories : Obligations.EqualReadsAreEqualMemories := by
  intro m m' hm hm' hread
  have hrising : Std.Asymm fun p q : Host.Cell => p.1 < q.1 := ⟨fun _ _ => Nat.lt_asymm⟩
  refine hm.1.eq_of_mem_iff hm'.1 fun ⟨a, b⟩ => ?_
  rw [mem_iff_readByte hm, mem_iff_readByte hm', hread a]

/-! ### Samples, byte by byte (R62) -/

theorem read16_byte (m : Memory) (a : Nat) {i : Nat} (hi : i < 2) :
    (read16 m a).extractLsb' (8 * i) 8 = readByte m (a + i) := by
  obtain rfl | rfl : i = 0 ∨ i = 1 := by omega
  · exact BitVec.extractLsb'_append_eq_right
  · exact BitVec.extractLsb'_append_eq_left

/-- The low half of a 4-byte sample is the 2-byte one at its address, the high half the one two bytes on. -/
theorem read32_byte (m : Memory) (a : Nat) {i : Nat} (hi : i < 4) :
    (read32 m a).extractLsb' (8 * i) 8 = readByte m (a + i) := by
  rw [read32]
  by_cases hlow : i < 2
  · rw [BitVec.extractLsb'_append_eq_of_add_le (by omega), read16_byte m a hlow]
  · rw [BitVec.extractLsb'_append_eq_of_le (by omega), show 8 * i - 16 = 8 * (i - 2) by omega,
      read16_byte m (a + 2) (by omega), show a + 2 + (i - 2) = a + i by omega]

/-- A byte of a stored sample is that byte of what the sample reads back as. -/
theorem readByte_write16 (m : Memory) {a i : Nat} (v : BitVec 16) (ha : a + 2 ≤ 2 ^ 64) (hi : i < 2) :
    readByte (write16 m a v) (a + i) = v.extractLsb' (8 * i) 8 := by
  rw [← read16_byte _ a hi, read16_write16 m a v ha]

theorem readByte_write32 (m : Memory) {a i : Nat} (v : BitVec 32) (ha : a + 4 ≤ 2 ^ 64) (hi : i < 4) :
    readByte (write32 m a v) (a + i) = v.extractLsb' (8 * i) 8 := by
  rw [← read32_byte _ a hi, read32_write32 m a v ha]

/-- Settles O44: a read is its bytes joined, and a stored sample reads back (`read16_write16`, `read32_write32`). -/
theorem samplesAreLittleEndian : Obligations.SamplesAreLittleEndian :=
  ⟨fun m a _ => read16_byte m a, fun m a _ => read32_byte m a, fun m _ _ v => readByte_write16 m v,
    fun m _ _ v => readByte_write32 m v⟩

/-! ### The host's memory accesses (R70) -/

/-- A host store puts its byte at its address, which lies inside the space as every 64-bit value does. -/
theorem readByte_hostStore (a : DWord) (b : Byte) (s : State) (x : Nat) :
    readByte (hostStore a b s).mem x = if a.toNat = x then b else readByte s.mem x :=
  readByte_writeByte s.mem a.toNat b x a.isLt

/-- Settles O9: each host event has its step lemma; `readByte_hostStore` says what a stored byte changes. -/
theorem stepOfHostMemoryAccess : Obligations.StepOfHostMemoryAccess := by
  refine ⟨fun s => step_idle, fun s a b rest hs => ⟨_, step_memStore hs, ?_, fun x hx => ?_, rfl⟩,
    fun s a rest => step_memLoad⟩
  · rw [readByte_hostStore, if_pos rfl]
  · rw [readByte_hostStore, if_neg hx.symm, popHost_mem]

end Sys2Proof.Machine

/-! PROOFS. 30_encoding.md R90 to R101: the decoder and the encoder agree, which words are legal, and what the accesses
of a step and of a pseudo-command do. The first two rest on one fact: with its must-be-zero fields zero, a word is its
opcode, IV and DV. -/

namespace Sys2Proof.Machine

open Sys2Proof.Claims

/-! ### A command word is its fields (R91) -/

/-- The must-be-zero fields of the data of a write to CMD are zero (R90, R97). -/
def ZeroFields (d : DWord) : Prop :=
  d.extractLsb' 32 32 = 0#32 ∧ d.extractLsb' 10 22 = 0#22 ∧ d.extractLsb' 4 4 = 0#4

/-- A field of the lower half is that field of the whole data. -/
theorem extractLsb'_lowHalf (d : DWord) {start len : Nat} (h : start + len ≤ 32) :
    (d.extractLsb' 0 32).extractLsb' start len = d.extractLsb' start len := by
  ext j hj
  simp [BitVec.getElem_extractLsb']
  omega

theorem cmdOpc_lowHalf (d : DWord) : cmdOpc (d.extractLsb' 0 32) = d.extractLsb' 0 4 :=
  extractLsb'_lowHalf d (by decide)

theorem cmdIv_lowHalf (d : DWord) : cmdIv (d.extractLsb' 0 32) = d.getLsbD 8 := by simp [cmdIv]

theorem cmdDv_lowHalf (d : DWord) : cmdDv (d.extractLsb' 0 32) = d.getLsbD 9 := by simp [cmdDv]

theorem eq_cmdWord_of_zeroFields {d : DWord} (h : ZeroFields d) :
    d = cmdWord (d.extractLsb' 0 4).toNat (d.getLsbD 8) (d.getLsbD 9) := by
  obtain ⟨h32, h10, h4⟩ := h
  have hlt := d.isLt
  simp only [BitVec.toNat_eq, BitVec.extractLsb'_toNat, Nat.shiftRight_eq_div_pow, BitVec.toNat_ofNat] at h32 h10 h4
  apply BitVec.eq_of_toNat_eq
  simp only [cmdWord, BitVec.extractLsb'_toNat, BitVec.toNat_ofNat, BitVec.getLsbD, Nat.testBit_eq_decide_div_mod_eq,
    decide_eq_true_eq, Nat.shiftRight_eq_div_pow]
  split <;> split <;> omega

theorem zeroFields_of_decode_ok {d : DWord} {i : Instr} (h : decode d = .ok i) : ZeroFields d := by
  obtain ⟨h32, hw⟩ := Laws.decode_ok h
  obtain ⟨h10, h4, -⟩ := Laws.decodeWord_ok_cases hw
  rw [extractLsb'_lowHalf d (by decide)] at h10 h4
  exact ⟨h32, h10, h4⟩

/-! ### Decode and encode agree (R92, R96, R99) -/

theorem encode_of_decode_ok {d : DWord} {i : Instr} (h : decode d = .ok i) : encode i = [.write 0x000#16 d] := by
  have hd := eq_cmdWord_of_zeroFields (zeroFields_of_decode_ok h)
  obtain ⟨-, -, hopc⟩ := Laws.decodeWord_ok_cases (Laws.decode_ok h).2
  rw [cmdOpc_lowHalf, cmdIv_lowHalf, cmdDv_lowHalf] at hopc
  rcases hopc with ⟨ho, rfl⟩ | ⟨ho, rfl⟩ | ⟨ho, hdv, rfl⟩ | ⟨ho, rfl⟩ | ⟨ho, rfl⟩ | ⟨ho, hdv, rfl⟩
  · rw [encode, cmdAccess, ← ho, ← hd]
  · rw [encode, cmdAccess, ← ho, ← hd]
  · rw [encode, cmdAccess, ← ho, ← hdv, ← hd]
  · rw [encode, cmdAccess, ← ho, ← hd]
  · rw [encode, cmdAccess, ← ho, ← hd]
  · rw [encode, cmdAccess, ← ho, ← hdv, ← hd]

/-- The decoder inverts the encoder on the six commands, and answers nothing else. -/
theorem decode_ok_iff {d : DWord} {i : Instr} :
    decode d = .ok i ↔ isCommand i = true ∧ encode i = [.write 0x000#16 d] := by
  refine ⟨fun h => ⟨isCommand_of_decode_ok h, encode_of_decode_ok h⟩, fun ⟨hi, he⟩ => ?_⟩
  cases i with
  | bqInit iv dv | bqReinit iv dv | lpfInit iv dv | lpfReinit iv dv => cases he; revert iv dv; decide
  | bqProcess iv | lpfProcess iv => cases he; revert iv; decide
  | wr | rd | bqConfigure | lpfConfigure => cases hi

/-- Each command has one word. -/
theorem exists_word_of_isCommand {i : Instr} (hi : isCommand i = true) :
    ∃ d, encode i = [.write 0x000#16 d] ∧ decode d = .ok i := by
  suffices h : ∃ d, encode i = [.write 0x000#16 d] from h.imp fun _ he => ⟨he, decode_ok_iff.mpr ⟨hi, he⟩⟩
  cases i with
  | bqInit | bqReinit | bqProcess | lpfInit | lpfReinit | lpfProcess => exact ⟨_, rfl⟩
  | wr | rd | bqConfigure | lpfConfigure => cases hi

theorem decodeAccess_cmd_ok {d : DWord} {i : Instr} (h : decode d = .ok i) : decodeAccess (.write 0x000#16 d) = i := by
  simp [decodeAccess, h]

theorem decodeAccess_cmd_error {d : DWord} {e : DecodeError} (h : decode d = .error e) :
    decodeAccess (.write 0x000#16 d) = .wr 0x000#16 d := by
  simp [decodeAccess, h]

theorem decodeAccess_register {off : Offset} (h : off ≠ 0x000#16) (v : DWord) :
    decodeAccess (.write off v) = .wr off v := if_neg h

theorem map_decodeAccess_encode {i : Instr} (hi : isCommand i = true) : (encode i).map decodeAccess = [i] := by
  obtain ⟨d, he, hd⟩ := exists_word_of_isCommand hi
  rw [he, List.map_singleton, decodeAccess_cmd_ok hd]

/-- The writes of a pseudo-command are issuable, and none is to CMD (R101). -/
theorem access_of_isPseudo {i : Instr} (hi : isPseudo i = true) :
    ∀ a ∈ encode i, ∃ off v, a = .write off v ∧ off.issuable = true ∧ off ≠ 0x000#16 := by
  cases i with
  | bqConfigure | lpfConfigure =>
    simp [encode, Offset.issuable, Offset.aligned, Offset.insideBlock]
  | bqInit | bqReinit | bqProcess | lpfInit | lpfReinit | lpfProcess | wr | rd => cases hi

/-- Settles O5: a command by `decode_ok_iff`; an access by whether it is a write to CMD. -/
theorem decodeOfEncodedInstruction : Obligations.DecodeOfEncodedInstruction := by
  refine fun i _ => ⟨fun hp herr => ?_, ?_, fun hp a ha => ?_⟩
  · cases i with
    | bqInit | bqReinit | bqProcess | lpfInit | lpfReinit | lpfProcess => exact map_decodeAccess_encode rfl
    | wr off v =>
      by_cases h0 : off = 0x000#16
      · subst h0
        obtain ⟨e, he⟩ := herr v rfl
        rw [encode, List.map_singleton, decodeAccess_cmd_error he]
      · rw [encode, List.map_singleton, decodeAccess_register h0]
    | rd off => rfl
    | bqConfigure | lpfConfigure => cases hp
  · rintro v j rfl hj
    rw [encode, List.map_singleton, decodeAccess_cmd_ok hj]
  · obtain ⟨off, v, rfl, hoff, h0⟩ := access_of_isPseudo hp a ha
    exact ⟨off, v, rfl, hoff, decodeAccess_register h0 v⟩

/-- Settles O6: `decode_ok_iff`, from left to right. -/
theorem encodeOfDecodedWord : Obligations.EncodeOfDecodedWord := fun _ _ => decode_ok_iff.mp

/-- Settles O4: by evaluating the decoder on each word. -/
theorem decodeReadsWrittenOutWords : Obligations.DecodeReadsWrittenOutWords := by
  unfold Obligations.DecodeReadsWrittenOutWords
  decide

/-! ### Match and mask (R92) -/

theorem decode_ok_iff_eq_word {i : Instr} {v : DWord} (hi : isCommand i = true) (he : encode i = [.write 0x000#16 v])
    (d : DWord) : decode d = .ok i ↔ d = v := by
  simp [decode_ok_iff, hi, he, eq_comm (a := v)]

/-- Two words are equal when they agree under a mask and on the bits that the mask leaves free. -/
theorem eq_iff_masked {n : Nat} (m w v : BitVec n) :
    w = v ↔ w &&& m = v &&& m ∧ ∀ j < n, m.getLsbD j = false → w.getLsbD j = v.getLsbD j := by
  refine ⟨by rintro rfl; simp, fun ⟨hm, hfree⟩ => BitVec.eq_of_getLsbD_eq fun j hj => ?_⟩
  cases hb : m.getLsbD j with
  | false => exact hfree j hj hb
  | true => simpa [hb] using congrArg (BitVec.getLsbD · j) hm

theorem eq_iff_halves (d v : DWord) : d = v ↔ d >>> 32 = v >>> 32 ∧ d.setWidth 32 = v.setWidth 32 := by
  bv_omega

/-- The bits that the mask of format I leaves free: IV and DV. -/
theorem maskI_free : ∀ j < 32, (0xFFFFFCFF#32).getLsbD j = false ↔ j = 8 ∨ j = 9 := by decide

/-- The bit that the mask of format P leaves free: IV. -/
theorem maskP_free : ∀ j < 32, (0xFFFFFEFF#32).getLsbD j = false ↔ j = 8 := by decide

/-- What R92 looks at in each command word. -/
theorem cmdWord_fields : ∀ opc < 8, ∀ iv dv,
    cmdWord opc iv dv >>> 32 = 0#64 ∧
    (cmdWord opc iv dv).setWidth 32 &&& 0xFFFFFCFF#32 = BitVec.ofNat 32 opc ∧
    (cmdWord opc iv false).setWidth 32 &&& 0xFFFFFEFF#32 = BitVec.ofNat 32 opc ∧
    ((cmdWord opc iv dv).setWidth 32).getLsbD 8 = iv ∧ ((cmdWord opc iv dv).setWidth 32).getLsbD 9 = dv := by decide

theorem eq_cmdWord_iff_formatI {opc : Nat} (h : opc < 8) (d : DWord) (iv dv : Bool) :
    d = cmdWord opc iv dv ↔ d >>> 32 = 0#64 ∧ d.setWidth 32 &&& 0xFFFFFCFF#32 = BitVec.ofNat 32 opc ∧
      (d.setWidth 32).getLsbD 8 = iv ∧ (d.setWidth 32).getLsbD 9 = dv := by
  obtain ⟨hhigh, hI, -, hiv, hdv⟩ := cmdWord_fields opc h iv dv
  have hfree := maskI_free
  rw [eq_iff_halves, hhigh, eq_iff_masked 0xFFFFFCFF#32, hI]
  grind

theorem eq_cmdWord_iff_formatP {opc : Nat} (h : opc < 8) (d : DWord) (iv : Bool) :
    d = cmdWord opc iv false ↔ d >>> 32 = 0#64 ∧ d.setWidth 32 &&& 0xFFFFFEFF#32 = BitVec.ofNat 32 opc ∧
      (d.setWidth 32).getLsbD 8 = iv := by
  obtain ⟨hhigh, -, hP, hiv, -⟩ := cmdWord_fields opc h iv false
  have hfree := maskP_free
  rw [eq_iff_halves, hhigh, eq_iff_masked 0xFFFFFEFF#32, hP]
  grind

/-- Settles O7: a command has one word, and a word is its masked bits and the bits that the mask leaves free. -/
theorem decoderAgreesWithMatchAndMask : Obligations.DecoderAgreesWithMatchAndMask := by
  rintro d _ rfl iv dv
  exact
    ⟨(decode_ok_iff_eq_word rfl rfl d).trans (eq_cmdWord_iff_formatI (by decide) d iv dv),
      (decode_ok_iff_eq_word rfl rfl d).trans (eq_cmdWord_iff_formatI (by decide) d iv dv),
      (decode_ok_iff_eq_word rfl rfl d).trans (eq_cmdWord_iff_formatP (by decide) d iv),
      (decode_ok_iff_eq_word rfl rfl d).trans (eq_cmdWord_iff_formatI (by decide) d iv dv),
      (decode_ok_iff_eq_word rfl rfl d).trans (eq_cmdWord_iff_formatI (by decide) d iv dv),
      (decode_ok_iff_eq_word rfl rfl d).trans (eq_cmdWord_iff_formatP (by decide) d iv)⟩

/-! ### Legal and illegal words (R97) -/

/-- With the must-be-zero fields zero 64 words are left: the ones that decode are the ones not called illegal. -/
theorem isOk_decode_cmdWord_iff : ∀ opc < 16, ∀ iv dv,
    (decode (cmdWord opc iv dv)).isOk = true ↔ ¬ illegalWord (cmdWord opc iv dv) := by
  unfold illegalWord; decide

theorem zeroFields_of_not_illegalWord {d : DWord} (h : ¬ illegalWord d) : ZeroFields d := by
  unfold illegalWord at h
  unfold ZeroFields
  tauto

theorem not_illegalWord_iff {d : DWord} : ¬ illegalWord d ↔ ∃ i, decode d = .ok i := by
  have hiff (hz : ZeroFields d) : (decode d).isOk = true ↔ ¬ illegalWord d := by
    rw [eq_cmdWord_of_zeroFields hz]
    exact isOk_decode_cmdWord_iff _ (BitVec.isLt _) _ _
  constructor
  · intro h
    have hok := (hiff (zeroFields_of_not_illegalWord h)).mpr h
    cases hd : decode d with
    | ok i => exact ⟨i, rfl⟩
    | error e => rw [hd] at hok; cases hok
  · rintro ⟨i, hd⟩
    exact (hiff (zeroFields_of_decode_ok hd)).mp (by rw [hd]; rfl)

theorem exec_wr_cmd_error {d : DWord} {e : DecodeError} (h : decode d = .error e) (s : State) :
    exec (.wr 0x000#16 d) s = .next (raiseInvalid s) :=
  Laws.execWr_cmd.trans (Laws.runCommand_error h s)

/-- Settles O17: the words that do not decode are the illegal ones, and a write of one to CMD only raises. -/
theorem illegalWordChangesOnlyStatus : Obligations.IllegalWordChangesOnlyStatus := by
  refine fun d => ⟨fun hill s => ?_, fun hlegal => ?_⟩
  · cases hd : decode d with
    | ok i => exact absurd hill (not_illegalWord_iff.mpr ⟨i, hd⟩)
    | error e => exact exec_wr_cmd_error hd s
  · obtain ⟨i, hd⟩ := not_illegalWord_iff.mp hlegal
    exact ⟨i, isCommand_of_decode_ok hd, decodeAccess_cmd_ok hd⟩

/-! ### The step, and the accesses that cannot be issued (R95, R99) -/

theorem decode_of_decodeTableWord {nbits w : Nat} {i : Instr} (h : decodeTableWord nbits w = some i) :
    decode (BitVec.ofNat 64 (w % 2 ^ nbits)) = .ok i := by
  unfold decodeTableWord at h
  split at h
  · rename_i hd; cases h; exact hd
  · cases h

/-- Settles O8: the step of a register access, of which a placed command word is one. -/
theorem stepRunsDecodedInstruction : Obligations.StepRunsDecodedInstruction := by
  refine ⟨fun s a rest => step_bus, fun s nbits w i h => ?_⟩
  have hstep : step (s.withFetchWord nbits w) = exec (decodeAccess (.write 0x000#16 _)) s := step_bus rfl
  rw [hstep, decodeAccess_cmd_ok (decode_of_decodeTableWord h)]

theorem issuable_eq_false {off : Offset} (h : off.toNat % 8 ≠ 0 ∨ 0x5000 ≤ off.toNat) : off.issuable = false := by
  simp [Offset.issuable, Offset.aligned, Offset.insideBlock]
  omega

/-- Settles O12: at an offset that is not issuable both accesses refuse. -/
theorem unissuableAccessIsRefused : Obligations.UnissuableAccessIsRefused := by
  intro off v s h
  have hoff := Bool.eq_false_iff.mp (issuable_eq_false h)
  exact ⟨if_neg hoff, if_neg hoff⟩

/-! ### Register writes commute (R101) -/

/-- Two registers are two fields, or one of them takes no write. -/
theorem writeReg_comm {r r' : Reg} (h : r ≠ r') (v v' : DWord) (s : State) :
    writeReg v (writeReg v' s r') r = writeReg v' (writeReg v s r) r' := by
  cases r with
  | argOut | argIn | argCount | cdFmt | cdCh | cdA0 | cdA1 | cdA2 | cdB0 | cdB1 | cdB2 | ldFmt | ldCh | ldFs | ldFc =>
    cases r' <;> first | rfl | exact absurd rfl h
  | _ => rfl

theorem writeOffset_of_lookup {off : Offset} {r : Reg} (h : regTable.lookup off = some r) (v : DWord) (s : State) :
    writeOffset off v s = writeReg v s r := by
  rw [writeOffset, regAt, h]

/-- The delay line takes no write. -/
theorem writeReg_of_delayRegAt {maxCh : Nat} {off : Offset} {r : Reg} (h : delayRegAt maxCh off = some r) (v : DWord)
    (s : State) : writeReg v s r = s := by
  unfold delayRegAt at h
  dsimp only at h
  split at h
  · split at h <;> cases h <;> rfl
  · cases h

/-- A write past the registers that stand alone is ignored. -/
theorem writeOffset_of_lookup_none {off : Offset} (h : regTable.lookup off = none) (v : DWord) (s : State) :
    writeOffset off v s = s := by
  rw [writeOffset, regAt, h]
  cases hr : delayRegAt s.maxChannels off with
  | none => rfl
  | some r => exact writeReg_of_delayRegAt hr v s

/-- No register of the table stands at two offsets. -/
theorem regTable_lookup_inj {off off' : Offset} {r : Reg} (h : regTable.lookup off = some r)
    (h' : regTable.lookup off' = some r) : off = off' := by
  have hnodup : (regTable.map Prod.snd).Nodup := by decide
  have hmem {o : Offset} (ho : regTable.lookup o = some r) : (o, r) ∈ regTable := by
    obtain ⟨l₁, l₂, hl, -⟩ := List.lookup_eq_some_iff.mp ho
    rw [hl]; simp
  exact congrArg Prod.fst (List.inj_on_of_nodup_map hnodup (hmem h) (hmem h') rfl)

theorem writeOffset_comm {off off' : Offset} (h : off ≠ off') (v v' : DWord) (s : State) :
    writeOffset off v (writeOffset off' v' s) = writeOffset off' v' (writeOffset off v s) := by
  cases hr : regTable.lookup off with
  | none => simp only [writeOffset_of_lookup_none hr]
  | some r =>
    cases hr' : regTable.lookup off' with
    | none => simp only [writeOffset_of_lookup_none hr']
    | some r' =>
      have hne : r ≠ r' := by rintro rfl; exact h (regTable_lookup_inj hr hr')
      simp only [writeOffset_of_lookup hr, writeOffset_of_lookup hr']
      exact writeReg_comm hne v v' s

/-! ### A pseudo-command is its writes, in any order (R101) -/

/-- What a register access other than a write to CMD leaves (40_register_access.md R120, R122). -/
def afterAccess (s : State) : BusAccess → State
  | .write off v => writeOffset off v s
  | .read off => returnData (readOffset off s) s

theorem exec_access {a : BusAccess} (hoff : a.offset.issuable = true) (h0 : a.offset ≠ 0x000#16) (s : State) :
    exec (decodeAccess a) s = .next (afterAccess s a) := by
  cases a with
  | write off v => exact (congrArg (exec · s) (decodeAccess_register h0 v)).trans (Laws.execWr_register hoff h0)
  | read off => exact Laws.execRd_issuable hoff

theorem writeReg_popHost (v : DWord) (rest : List HostEvent) (s : State) (r : Reg) :
    writeReg v (popHost rest s) r = popHost rest (writeReg v s r) := by
  cases r <;> rfl

theorem readReg_popHost (rest : List HostEvent) (s : State) (r : Reg) : readReg (popHost rest s) r = readReg s r := by
  cases r <;> rfl

/-- An access looks at none of the host's further events. -/
theorem afterAccess_popHost (rest : List HostEvent) (s : State) (a : BusAccess) :
    afterAccess (popHost rest s) a = popHost rest (afterAccess s a) := by
  cases a with
  | write off v =>
    simp only [afterAccess, writeOffset, popHost_maxChannels, writeReg_popHost]
    split <;> rfl
  | read off =>
    simp only [afterAccess, readOffset, popHost_maxChannels, readReg_popHost]
    rfl

theorem run_succ_of_step {M : Host.Core} {s t : M.State} (h : M.step s = .next t) (k : Nat) :
    M.run (k + 1) s = M.run k t := by
  simp [Host.Core.run, h]

theorem run_succ {s t : State} (h : step s = .next t) (k : Nat) : core.run (k + 1) s = core.run k t :=
  run_succ_of_step (M := core) (s := s) (t := t) h k

/-- Register accesses as the host's next events run one after another. -/
theorem run_accesses {l : List BusAccess} (hl : ∀ a ∈ l, a.offset.issuable = true ∧ a.offset ≠ 0x000#16)
    (rest : List HostEvent) (s : State) :
    core.run l.length (popHost (l.map .bus ++ rest) s) = .next (l.foldl afterAccess (popHost rest s)) := by
  induction l generalizing s with
  | nil => rfl
  | cons a l ih =>
    obtain ⟨⟨hoff, h0⟩, hl⟩ := List.forall_mem_cons.mp hl
    have hstep : step (popHost ((a :: l).map .bus ++ rest) s) =
        .next (popHost (l.map .bus ++ rest) (afterAccess s a)) := by
      rw [step_bus rfl, exec_access hoff h0, afterAccess_popHost, afterAccess_popHost]
      rfl
    have hfold : l.foldl afterAccess (popHost rest (afterAccess s a)) =
        (a :: l).foldl afterAccess (popHost rest s) := by
      rw [List.foldl_cons, afterAccess_popHost]
    exact (run_succ hstep l.length).trans ((ih hl _).trans (congrArg Host.Outcome.next hfold))

theorem nodup_offsets_of_isPseudo {i : Instr} (hi : isPseudo i = true) : ((encode i).map BusAccess.offset).Nodup := by
  cases i with
  | bqConfigure | lpfConfigure => simp [encode, BusAccess.offset]
  | bqInit | bqReinit | bqProcess | lpfInit | lpfReinit | lpfProcess | wr | rd => cases hi

theorem exec_of_isPseudo {i : Instr} (hi : isPseudo i = true) (s : State) :
    exec i s = .next ((encode i).foldl afterAccess s) := by
  cases i with
  | bqConfigure | lpfConfigure =>
    simp [encode, afterAccess, writeOffset, regAt, regTable, List.lookup, writeReg]
    rfl
  | bqInit | bqReinit | bqProcess | lpfInit | lpfReinit | lpfProcess | wr | rd => cases hi

theorem afterAccess_comm_of_isPseudo {i : Instr} (hi : isPseudo i = true) {a b : BusAccess} (ha : a ∈ encode i)
    (hb : b ∈ encode i) (s : State) : afterAccess (afterAccess s a) b = afterAccess (afterAccess s b) a := by
  by_cases hab : a = b
  · rw [hab]
  · have hoff : b.offset ≠ a.offset := fun h =>
      hab (List.inj_on_of_nodup_map (nodup_offsets_of_isPseudo hi) ha hb h.symm)
    obtain ⟨off, v, rfl, -⟩ := access_of_isPseudo hi a ha
    obtain ⟨off', v', rfl, -⟩ := access_of_isPseudo hi b hb
    exact writeOffset_comm hoff v' v s

/-- Settles O14: the writes run one after another, and go to distinct registers, so their order does not matter. -/
theorem configureIsItsWritesInAnyOrder : Obligations.ConfigureIsItsWritesInAnyOrder := by
  intro i l s hi hperm
  have hl : ∀ a ∈ l, a.offset.issuable = true ∧ a.offset ≠ 0x000#16 := fun a ha => by
    obtain ⟨off, v, rfl, hoff⟩ := access_of_isPseudo hi a (hperm.subset ha)
    exact hoff
  have hfold : l.foldl afterAccess s = (encode i).foldl afterAccess s :=
    hperm.foldl_eq' (fun a ha b hb => afterAccess_comm_of_isPseudo hi (hperm.subset ha) (hperm.subset hb)) s
  rw [exec_of_isPseudo hi, ← hfold]
  exact run_accesses hl s.host s

end Sys2Proof.Machine

/-! PROOFS. 40_register_access.md R120 to R124: what a host access does at each offset. Every write rests on one table,
`writeMask`: which bits of its data a register keeps; every read on one equation for the registers that stand alone and
one for the register files, `readFields_eq` and `fileFields_eq`. -/

namespace Sys2Proof.Machine

open Sys2Proof.Claims

/-! ### What one register keeps of a write (R121) -/

/-- The bits that a write stores in a register; none where it takes no write. -/
def writeMask : Reg → Option DWord
  | .argOut | .argIn | .argCount => some 0xFFFFFFFFFFFFFFFF#64
  | .cdA0 | .cdA1 | .cdA2 | .cdB0 | .cdB1 | .cdB2 => some 0xFFFFFFFFFFFFFFFF#64
  | .cdFmt | .cdCh | .ldFmt | .ldCh | .ldFs | .ldFc => some 0xFFFFFFFF#64
  | _ => none

/-- The low 32 bits of the data, zero-extended, are the data masked to 32 bits. -/
theorem setWidth_setWidth_low (v : DWord) : (v.setWidth 32).setWidth 64 = v &&& 0xFFFFFFFF#64 := by
  refine BitVec.eq_of_toNat_eq ?_
  have hand : v.toNat &&& 0xFFFFFFFF = v.toNat % 2 ^ 32 := Nat.and_two_pow_sub_one_eq_mod v.toNat 32
  rw [BitVec.toNat_and, BitVec.toNat_setWidth, BitVec.toNat_setWidth]
  exact (Nat.mod_eq_of_lt (by omega)).trans hand.symm

theorem readReg_writeReg_same {r : Reg} {mask : DWord} (h : writeMask r = some mask) (v : DWord) (s : State) :
    readReg (writeReg v s r) r = v &&& mask := by
  have hall : v &&& 0xFFFFFFFFFFFFFFFF#64 = v := BitVec.and_allOnes
  cases r with
  | argOut | argIn | argCount | cdA0 | cdA1 | cdA2 | cdB0 | cdB1 | cdB2 => cases h; exact hall.symm
  | cdFmt | cdCh | ldFmt | ldCh | ldFs | ldFc => cases h; exact setWidth_setWidth_low v
  | _ => cases h

theorem writeReg_of_writeMask_none {r : Reg} (h : writeMask r = none) (v : DWord) (s : State) : writeReg v s r = s := by
  cases r with
  | argOut | argIn | argCount | cdA0 | cdA1 | cdA2 | cdB0 | cdB1 | cdB2 => cases h
  | cdFmt | cdCh | ldFmt | ldCh | ldFs | ldFc => cases h
  | _ => rfl

/-- Two registers are two fields, or the one written takes no write. -/
theorem readReg_writeReg_of_ne {r r' : Reg} (h : r' ≠ r) (v : DWord) (s : State) :
    readReg (writeReg v s r) r' = readReg s r' := by
  cases r with
  | argOut | argIn | argCount | cdFmt | cdCh | cdA0 | cdA1 | cdA2 | cdB0 | cdB1 | cdB2 | ldFmt | ldCh | ldFs | ldFc =>
    cases r' <;> trivial
  | _ => rfl

theorem writeReg_frame (v : DWord) (s : State) (r : Reg) :
    writeReg v s r =
      { s with
        argOut := (writeReg v s r).argOut, argIn := (writeReg v s r).argIn, argCount := (writeReg v s r).argCount
        cd := (writeReg v s r).cd, ld := (writeReg v s r).ld } := by
  cases r <;> rfl

/-! ### The registers that stand alone, by their offsets (10_state.md R21) -/

theorem mem_regTable_of_lookup {off : Offset} {r : Reg} (h : regTable.lookup off = some r) : (off, r) ∈ regTable := by
  obtain ⟨l₁, l₂, hl, -⟩ := List.lookup_eq_some_iff.mp h
  rw [hl]; simp

theorem lookup_of_mem_regTable : ∀ p ∈ regTable, regTable.lookup p.1 = some p.2 := by decide

theorem issuable_of_mem_regTable : ∀ p ∈ regTable, Offset.issuable p.1 = true := by decide

/-- The registers that stand alone lie below the register files. -/
theorem lookup_eq_none_of_le {off : Offset} (h : 0x1000 ≤ off.toNat) : regTable.lookup off = none := by
  have hlow : ∀ p ∈ regTable, p.1.toNat < 0x1000 := by decide
  refine Option.eq_none_iff_forall_ne_some.mpr fun r hr => ?_
  have hoff : off.toNat < 0x1000 := hlow _ (mem_regTable_of_lookup hr)
  omega

theorem readOffset_of_mem_regTable {off : Offset} {r : Reg} (h : (off, r) ∈ regTable) (s : State) :
    readOffset off s = readReg s r := by
  rw [readOffset, regAt, lookup_of_mem_regTable _ h]

/-! ### The register files, by their offsets (10_state.md R21) -/

/-- The registers of channel `c`, with the offset of each. -/
def fileRegs (c : Nat) : List (Offset × Reg) :=
  [(fileOffset 0x1000 c, .x1 c), (fileOffset 0x2000 c, .x2 c), (fileOffset 0x3000 c, .y1 c),
    (fileOffset 0x4000 c, .y2 c)]

theorem eq_fileOffset {off : Offset} (h8 : off.toNat % 8 = 0) :
    off = fileOffset (0x1000 * (off.toNat / 0x1000)) (off.toNat % 0x1000 / 8) := by
  refine BitVec.eq_of_toNat_eq ?_
  rw [fileOffset, BitVec.toNat_ofNat]
  omega

/-- Element `c` of file `k` lies in the block, past the registers that stand alone, and has file and element as quotient
and remainder of its offset. -/
theorem fileOffset_facts {k c : Nat} (h1 : 1 ≤ k) (h4 : k ≤ 4) (hc : c < 512) :
    (fileOffset (0x1000 * k) c).issuable = true ∧ regTable.lookup (fileOffset (0x1000 * k) c) = none ∧
      (fileOffset (0x1000 * k) c).toNat % 8 = 0 ∧ (fileOffset (0x1000 * k) c).toNat / 0x1000 = k ∧
      (fileOffset (0x1000 * k) c).toNat % 0x1000 / 8 = c := by
  have hnat : (fileOffset (0x1000 * k) c).toNat = 0x1000 * k + 8 * c := by
    rw [fileOffset, BitVec.toNat_ofNat]
    omega
  refine ⟨?_, lookup_eq_none_of_le (by omega), by omega, by omega, by omega⟩
  exact (Bool.and_eq_true ..).mpr ⟨beq_iff_eq.mpr (by omega), decide_eq_true (by omega)⟩

/-- The register file `k` has its elements at `fileOffset (0x1000 * k)`. -/
theorem mem_fileRegs_iff {c : Nat} {off : Offset} {r : Reg} :
    (off, r) ∈ fileRegs c ↔ ∃ k, off = fileOffset (0x1000 * k) c ∧
      (k = 1 ∧ r = .x1 c ∨ k = 2 ∧ r = .x2 c ∨ k = 3 ∧ r = .y1 c ∨ k = 4 ∧ r = .y2 c) := by
  simp [fileRegs, and_or_left, exists_or, and_left_comm]

theorem regAt_of_mem_fileRegs {maxCh c : Nat} {off : Offset} {r : Reg} (hc : c < 512) (hmax : c < maxCh)
    (h : (off, r) ∈ fileRegs c) : off.issuable = true ∧ regAt maxCh off = some r := by
  obtain ⟨k, rfl, hk⟩ := mem_fileRegs_iff.mp h
  obtain ⟨hoff, hnone, h8, hdiv, hmod⟩ := fileOffset_facts (k := k) (by omega) (by omega) hc
  refine ⟨hoff, ?_⟩
  rw [regAt, hnone]
  simp only [delayRegAt, h8, hdiv, hmod, hmax]
  obtain ⟨rfl, rfl⟩ | ⟨rfl, rfl⟩ | ⟨rfl, rfl⟩ | ⟨rfl, rfl⟩ := hk <;> rfl

theorem mem_fileRegs_of_delayRegAt {maxCh : Nat} {off : Offset} {r : Reg} (h : delayRegAt maxCh off = some r) :
    ∃ c < 512, c < maxCh ∧ (off, r) ∈ fileRegs c := by
  unfold delayRegAt at h
  dsimp only at h
  split at h
  · rename_i hc
    refine ⟨off.toNat % 0x1000 / 8, by omega, hc.2, mem_fileRegs_iff.mpr ⟨_, eq_fileOffset hc.1, ?_⟩⟩
    split at h <;> cases h <;> simp [*]
  · cases h

/-! ### A write (R120, R121) -/

/-- An element of the delay line takes no write. -/
theorem writeMask_of_delayRegAt {maxCh : Nat} {off : Offset} {r : Reg} (h : delayRegAt maxCh off = some r) :
    writeMask r = none := by
  obtain ⟨c, -, -, hmem⟩ := mem_fileRegs_of_delayRegAt h
  obtain ⟨k, -, ⟨-, rfl⟩ | ⟨-, rfl⟩ | ⟨-, rfl⟩ | ⟨-, rfl⟩⟩ := mem_fileRegs_iff.mp hmem <;> rfl

/-- A register that takes a write is reached at one offset only. -/
theorem regAt_ne {maxCh : Nat} {off off' : Offset} {r r' : Reg} {mask : DWord} (h : regTable.lookup off = some r)
    (hm : writeMask r = some mask) (h' : regAt maxCh off' = some r') (hoff : off' ≠ off) : r' ≠ r := by
  rintro rfl
  unfold regAt at h'
  split at h'
  · rename_i hl; cases h'; exact hoff (regTable_lookup_inj hl h)
  · cases hm.symm.trans (writeMask_of_delayRegAt h')

theorem readOffset_writeReg_of_ne {off off' : Offset} {r : Reg} {mask : DWord} (h : regTable.lookup off = some r)
    (hm : writeMask r = some mask) (hoff : off' ≠ off) (v : DWord) (s : State) :
    readOffset off' (writeReg v s r) = readOffset off' s := by
  have hmax : (writeReg v s r).maxChannels = s.maxChannels := congrArg List.length (writeReg_delay v s r)
  rw [readOffset, readOffset, hmax]
  cases hr : regAt s.maxChannels off' with
  | none => rfl
  | some r' => exact readReg_writeReg_of_ne (regAt_ne h hm hr hoff) v s

/-- The RW registers of the spec's table are the registers that take a write, each with the bits it keeps. -/
theorem mem_rwFields_iff {off : Offset} {mask : DWord} :
    (off, mask) ∈ rwFields ↔ ∃ r, (off, r) ∈ regTable ∧ writeMask r = some mask := by
  have heq : rwFields = regTable.filterMap fun p => (writeMask p.2).map (p.1, ·) := by rfl
  simp [heq]

/-- CMD takes no write: it is no storage register (10_state.md R37). -/
theorem ne_cmd_of_writeMask {off : Offset} {r : Reg} {mask : DWord} (h : (off, r) ∈ regTable)
    (hm : writeMask r = some mask) : off ≠ 0x000#16 := by
  rintro rfl
  cases lookup_of_mem_regTable _ h
  cases hm

theorem writeOffset_of_not_mem_rwFields {off : Offset} (h : off ∉ rwFields.map (·.1)) (v : DWord) (s : State) :
    writeOffset off v s = s := by
  cases hr : regTable.lookup off with
  | none => exact writeOffset_of_lookup_none hr v s
  | some r =>
    rw [writeOffset_of_lookup hr]
    cases hm : writeMask r with
    | none => exact writeReg_of_writeMask_none hm v s
    | some mask =>
      exact absurd (List.mem_map_of_mem (mem_rwFields_iff.mpr ⟨r, mem_regTable_of_lookup hr, hm⟩)) h

/-- Settles O10: at CMD by the decoder's answer; elsewhere by whether the register at the offset takes a write. -/
theorem hostWriteMeaning : Obligations.HostWriteMeaning := by
  refine ⟨fun d i s h => Laws.execWr_cmd.trans (Laws.runCommand_ok h s), fun d e s h => exec_wr_cmd_error h s,
    fun off mask v s hmem => ?_, fun off v s hoff h0 hrw => ?_⟩
  · obtain ⟨r, hreg, hm⟩ := mem_rwFields_iff.mp hmem
    have hr := lookup_of_mem_regTable _ hreg
    refine ⟨writeReg v s r, ?_, ?_, fun off' hne => readOffset_writeReg_of_ne hr hm hne v s, writeReg_frame v s r⟩
    · rw [← writeOffset_of_lookup hr]
      exact Laws.execWr_register (issuable_of_mem_regTable _ hreg) (ne_cmd_of_writeMask hreg hm)
    · rw [readOffset_of_mem_regTable hreg, readReg_writeReg_same hm]
  · exact (Laws.execWr_register hoff h0).trans (congrArg _ (writeOffset_of_not_mem_rwFields hrw v s))

/-! ### A read (R122) -/

/-- The readable registers that stand alone are the table but for CMD, each with what a read of it returns. -/
theorem readFields_eq (s : State) : readFields s = regTable.tail.map fun p => (p.1, readReg s p.2) := by
  have hpt : (if s.inst.pt then 1#64 else 0#64) = (BitVec.ofBool s.inst.pt).setWidth 64 := by cases s.inst.pt <;> rfl
  rw [readFields, hpt]
  rfl

/-- The elements of channel `c` that the spec's table maps are the registers of the channel, each with what a read of it
returns. -/
theorem fileFields_eq (s : State) (c : Nat) :
    fileFields s c = if c < s.maxChannels then (fileRegs c).map fun p => (p.1, readReg s p.2) else [] := by
  rw [fileFields, State.maxChannels]
  by_cases hc : c < s.delay.length
  · simp [hc, fileRegs, readReg, State.chan]
  · simp [hc]

theorem readOffset_cmd (s : State) : readOffset 0x000#16 s = 0#64 :=
  readOffset_of_mem_regTable (r := .cmd) (by decide) s

theorem exec_rd {off : Offset} {v : DWord} {s : State} (hoff : off.issuable = true) (h : readOffset off s = v) :
    exec (.rd off) s = .next { s with rdData := v } :=
  h ▸ Laws.execRd_issuable hoff

/-- Where the spec's tables list nothing a read answers zero: CMD is there, and the unmapped offsets. -/
theorem readOffset_of_not_mem {off : Offset} {s : State} (halone : off ∉ (readFields s).map (·.1))
    (hfile : ∀ c, c < 512 → off ∉ (fileFields s c).map (·.1)) : readOffset off s = 0#64 := by
  cases hr : regTable.lookup off with
  | some r =>
    obtain h | h := List.mem_cons.mp (mem_regTable_of_lookup hr : (off, r) ∈ _ :: regTable.tail)
    · cases h; exact readOffset_cmd s
    · refine absurd ?_ halone
      rw [readFields_eq, List.map_map]
      exact List.mem_map_of_mem (f := Prod.fst) h
  | none =>
    rw [readOffset, regAt, hr]
    cases hd : delayRegAt s.maxChannels off with
    | none => rfl
    | some r =>
      obtain ⟨c, hc, hmax, hmem⟩ := mem_fileRegs_of_delayRegAt hd
      refine absurd ?_ (hfile c hc)
      rw [fileFields_eq, if_pos hmax, List.map_map]
      exact List.mem_map_of_mem (f := Prod.fst) hmem

/-- Settles O11: a listed offset is a register's, and a read answers that register; any other reads zero. -/
theorem hostReadMeaning : Obligations.HostReadMeaning := by
  refine ⟨fun off v s hmem => ?_, fun c off v s hc hmem => ?_, fun off s hoff halone hfile =>
    exec_rd hoff (readOffset_of_not_mem halone hfile)⟩
  · rw [readFields_eq] at hmem
    obtain ⟨⟨off, r⟩, hreg, h⟩ := List.mem_map.mp hmem
    cases h
    have hreg := List.mem_of_mem_tail hreg
    exact exec_rd (issuable_of_mem_regTable _ hreg) (readOffset_of_mem_regTable hreg s)
  · rw [fileFields_eq] at hmem
    split at hmem
    · rename_i hmax
      obtain ⟨⟨off, r⟩, hreg, h⟩ := List.mem_map.mp hmem
      cases h
      obtain ⟨hoff, hat⟩ := regAt_of_mem_fileRegs hc hmax hreg
      exact exec_rd hoff (by rw [readOffset, hat])
    · cases hmem

/-! ### The pseudo-commands (R123, R124) -/

/-- Settles O13: each operand is stored as given, or its low 32 bits are. -/
theorem configureFillsDescriptor : Obligations.ConfigureFillsDescriptor := by
  have hlow (v : DWord) : v.setWidth 32 = v.extractLsb' 0 32 := BitVec.setWidth_eq_extractLsb' (by decide)
  refine ⟨fun fmt ch a0 a1 a2 b0 b1 b2 s => ?_, fun fmt ch fs fc s => ?_⟩
  · rw [← hlow fmt, ← hlow ch]; rfl
  · rw [← hlow fmt, ← hlow ch, ← hlow fs, ← hlow fc]; rfl

end Sys2Proof.Machine

/-! PROOFS. 41_biquad_init.md R140 to R147: what BQ_INIT and BQ_REINIT leave. Both end in `reinit_core` on CD_*, which
either raises or stores the descriptor normalised: their statements are these two outcomes on the state the command gives
it. Beside them, what the normalisation is by 1.0 (R146). -/

namespace Sys2Proof.Machine

open Sys2Proof.Claims

/-! ### `reinit_core` on CD_* (R141 to R146) -/

/-- The checks of `reinit_core` are those of the claims. -/
theorem validDescr_iff_acceptable (maxCh : Nat) (d : BqDescr) : validDescr ieee maxCh d = true ↔ acceptable d maxCh :=
  validDescr_iff maxCh d

theorem reinitFromCd_of_acceptable {s : State} (h : acceptable s.cd s.maxChannels) :
    reinitFromCd ieee s = succeed (storeNormalised ieee s.cd s) := by
  rcases reinitFromCd_cases ieee s with ⟨-, hs⟩ | ⟨hv, -⟩
  · exact hs
  · exact absurd ((validDescr_iff_acceptable _ _).mpr h) (Bool.eq_false_iff.mp hv)

theorem reinitFromCd_of_not_acceptable {s : State} (h : ¬ acceptable s.cd s.maxChannels) :
    reinitFromCd ieee s = raiseInvalid s := by
  rcases reinitFromCd_cases ieee s with ⟨hv, -⟩ | ⟨-, hs⟩
  · exact absurd ((validDescr_iff_acceptable _ _).mp hv) h
  · exact hs

/-- The registers a success stores are the descriptor normalised; the draw picks the bits of a NaN quotient (log 5). -/
theorem normalisedFrom_normalised (k : Nat) (d : BqDescr) : normalisedFrom (normalised ieee k d) d :=
  ⟨rfl, rfl, identityTest_iff d, rfl, ⟨_, rfl⟩, ⟨_, rfl⟩, ⟨_, rfl⟩, ⟨_, rfl⟩, ⟨_, rfl⟩⟩

/-! ### BQ_INIT (R140) -/

theorem zeroInstance_eq_clearedInstance (s : State) : zeroInstance s = clearedInstance s := rfl

/-- With both references given the clear comes first, then `reinit_core`. -/
theorem exec_bqInit_refs (s : State) :
    exec (.bqInit true true) s = .next (reinitFromCd ieee (clearedInstance s)) := rfl

theorem acceptable_clearedInstance {s : State} :
    acceptable (clearedInstance s).cd (clearedInstance s).maxChannels ↔ acceptable s.cd s.maxChannels := by
  rw [← zeroInstance_eq_clearedInstance, zeroInstance_cd, zeroInstance_maxChannels]

/-- Settles O19: the checks run on the zero-cleared state, whose descriptor and MAX_CHANNELS are those of before. -/
theorem bqInitMeaning : Obligations.BqInitMeaning := by
  refine ⟨fun dv s => rfl, fun s => rfl, fun s h => ?_, fun s h => ?_⟩
  · rw [exec_bqInit_refs, reinitFromCd_of_not_acceptable (mt acceptable_clearedInstance.mp h)]
    rfl
  · rw [exec_bqInit_refs, reinitFromCd_of_acceptable (acceptable_clearedInstance.mpr h)]
    exact ⟨_, rfl, normalisedFrom_normalised _ _, rfl⟩

/-! ### BQ_REINIT (R141, R144, R147) -/

theorem exec_bqReinit_refs (s : State) : exec (.bqReinit true true) s = .next (reinitFromCd ieee s) := rfl

theorem exec_bqReinit_acceptable {s : State} (h : acceptable s.cd s.maxChannels) :
    exec (.bqReinit true true) s = .next (succeed (storeNormalised ieee s.cd s)) := by
  rw [exec_bqReinit_refs, reinitFromCd_of_acceptable h]

theorem exec_bqReinit_refused {iv dv : Bool} {s : State}
    (h : iv = false ∨ dv = false ∨ ¬ acceptable s.cd s.maxChannels) :
    exec (.bqReinit iv dv) s = .next (raiseInvalid s) := by
  cases iv <;> cases dv
  case true.true =>
    have hbad : ¬ acceptable s.cd s.maxChannels := by simpa using h
    rw [exec_bqReinit_refs, reinitFromCd_of_not_acceptable hbad]
  all_goals rfl

/-- Settles O20: a refused REINIT only raises, any other only stores the descriptor normalised. -/
theorem bqReinitMeaning : Obligations.BqReinitMeaning :=
  ⟨fun _ _ _ h => exec_bqReinit_refused h,
    fun _ h => ⟨_, exec_bqReinit_acceptable h, normalisedFrom_normalised _ _, rfl⟩⟩

/-- Settles O22: with the two other checks met, the descriptor is acceptable exactly when a0 is not a zero. -/
theorem divisionGuardRefusesExactlyZero : Obligations.DivisionGuardRefusesExactlyZero := by
  intro s hfmt hch
  by_cases hz : isZero s.cd.a0
  · have hbad : ¬ acceptable s.cd s.maxChannels := fun ⟨_, _, hnz⟩ => hnz hz
    exact ⟨_, exec_bqReinit_refused (.inr (.inr hbad)), iff_of_true rfl hz⟩
  · exact ⟨_, exec_bqReinit_acceptable ⟨hfmt, hch, hz⟩, iff_of_false (by decide : Config.success ≠ 1#32) hz⟩

/-- Settles O21: the delay line is not among the fields that a REINIT of either family can change. -/
theorem reinitKeepsDelayLine : Obligations.ReinitKeepsDelayLine := by
  refine fun iv dv s => ⟨_, _, exec_bqReinit iv dv s, ?_, exec_lpfReinit iv dv s, ?_⟩
  · rw [bqReinitWith_frame]
  · rw [lpfReinitWith_frame]

/-! ### A quotient by 1.0 (R146) -/

theorem ieeeDiv_finite (k : Nat) {a b : F64} (ha : isFinite64 a = true) (hb : isFinite64 b = true)
    (hz : isZero64 b = false) :
    ieeeDiv k a b = round64 (sign64 a != sign64 b) (mag64 a * unit64) (mag64 b) := by
  simp [ieeeDiv, isNan64_of_finite ha, isNan64_of_finite hb, isInf64_of_finite ha, isInf64_of_finite hb, hz]

theorem ieeeDiv_inf (k : Nat) {a b : F64} (ha : isInf64 a = true) (hb : isFinite64 b = true) :
    ieeeDiv k a b = pack64 (sign64 a != sign64 b) (pat64 a) := by
  have hpat : pat64 a = inf64 := of_decide_eq_true ha
  have hnan : isNan64 a = false := isNan64_eq_false.mpr hpat.le
  simp [ieeeDiv, ha, hnan, hpat, isNan64_of_finite hb, isInf64_of_finite hb]

/-- 1.0 is 2^1074 units: the significand 2^52 in binade 1023. -/
theorem mag64_one : mag64 0x3FF0000000000000#64 = unit64 := by
  obtain ⟨K, hK, hpat⟩ : ∃ K, 1074 = 52 + K ∧ pat64 0x3FF0000000000000#64 = (K + 1) * 2 ^ 52 :=
    ⟨1022, by decide, by decide⟩
  rw [mag64, hpat, magOf_binade_start, unit64, hK, Nat.pow_add]

/-- A finite pattern is the rounding of the quotient that is exactly its magnitude. -/
theorem round64_mag64 (a : F64) {d : Nat} (ha : isFinite64 a = true) (hd : 0 < d) :
    round64 (sign64 a) (mag64 a * d) d = a := by
  rw [round64, mag64, patternOf_magOf _ _ _ _ (isFinite64_iff.mp ha) hd, pack64_sign64_pat64]

/-- Settles O23: an infinity keeps its pattern and its sign; a finite numerator of `n` units gives
`n * unit64 / unit64`, which is exact. -/
theorem quotientByOneIsExact : Obligations.QuotientByOneIsExact := by
  intro k a hnan
  show ieeeDiv k a 0x3FF0000000000000#64 = a
  have hfin : isFinite64 0x3FF0000000000000#64 = true := by decide
  have hsign : (sign64 a != sign64 0x3FF0000000000000#64) = sign64 a := Bool.xor_false _
  cases hinf : isInf64 a with
  | true => rw [ieeeDiv_inf k hinf hfin, hsign, pack64_sign64_pat64]
  | false =>
    have ha := isFinite64_of_not hnan hinf
    rw [ieeeDiv_finite k ha hfin (by decide), hsign, mag64_one, round64_mag64 a ha unit64_pos]

end Sys2Proof.Machine

/-! PROOFS. 42_biquad_process.md R160 to R164 and R176: which path a PROCESS runs, and what it leaves. Every statement
about a PROCESS that the host grants its buffers starts from `exec_of_runs`; what each path leaves then comes from
`passthroughPath_spec` and, for the filtering path, from Laws/Filter.lean. -/

namespace Sys2Proof.Machine

open Sys2Proof.Claims

/-! ### The words of the claims -/

/-- Both PROCESS commands have the one meaning (43_lowpass.md R202). -/
theorem exec_of_processes {iv : Bool} {i : Instr} (h : processes iv i) (s : State) :
    exec i s = .next (processWith ieee iv s) := by
  rcases h with rfl | rfl
  · exact exec_bqProcess iv s
  · exact exec_lpfProcess iv s

theorem sampleBytes_eq_bytesPerSample {fmt : Word} (h : knownFmt fmt) : sampleBytes fmt = bytesPerSample fmt := by
  rcases h with rfl | rfl <;> rfl

theorem bytesMoved_eq_extent {s : State} (h : knownFmt s.inst.fmt) : bytesMoved s = extent s := by
  rw [bytesMoved, sampleBytes_eq_bytesPerSample h, Nat.mul_assoc, extent, bytesPerFrame]

theorem sampleAt_eq_sampleAddr {s : State} (h : knownFmt s.inst.fmt) (A : DWord) (n c : Nat) :
    sampleAt s A n c = sampleAddr A s.inst.fmt s.inst.ch n c := by
  rw [sampleAt, sampleBytes_eq_bytesPerSample h, sampleAddr]

theorem knownFmt_of_ready {s : State} (hinv : s.Inv) (h : s.inst.pt = true ∨ knownFmt s.inst.fmt) :
    knownFmt s.inst.fmt :=
  h.elim hinv.passthroughFmt id

theorem nullOperand_eq_false {s : State} (hout : s.argOut ≠ 0#64) (hin : s.argIn ≠ 0#64) :
    nullOperand true s = false := by
  simp [nullOperand, hout, hin]

/-- What the host must grant, in the words of the claims and in the model's. -/
theorem buffersGranted_of_runs {s : State} (hf : knownFmt s.inst.fmt) (h : Runs s) : s.BuffersGranted := by
  obtain ⟨-, -, -, hin, hout, hapart⟩ := h
  rw [bytesMoved_eq_extent hf] at hin hout hapart
  constructor
  · simp only [pastTop, decide_eq_false_iff_not]
    omega
  · simp only [partialOverlap, decide_eq_false_iff_not]
    rintro ⟨hne, hlt⟩
    have := hapart.resolve_left hne
    omega

/-- Buffers without a byte are granted wherever they are. -/
theorem buffersGranted_of_extent_eq_zero {s : State} (h : extent s = 0) : s.BuffersGranted := by
  constructor
  · simp [pastTop, h]
  · simp only [partialOverlap, h, decide_eq_false_iff_not]
    omega

/-! ### Which path runs (R160, R163) -/

/-- The path of a PROCESS that its checks let through. -/
def processPath (s : State) : State := if s.inst.pt then passthroughPath s else filterPath ieee s

theorem processPath_of_pt {s : State} (h : s.inst.pt = true) : processPath s = passthroughPath s := if_pos h

theorem processPath_of_not_pt {s : State} (h : s.inst.pt = false) : processPath s = filterPath ieee s :=
  if_neg (Bool.eq_false_iff.mp h)

/-- Every path leaves all but memory, the delay line and the draw counter. -/
theorem processPath_frame (s : State) :
    processPath s =
      { s with mem := (processPath s).mem, delay := (processPath s).delay, draws := (processPath s).draws } := by
  unfold processPath
  split
  · exact passthroughPath_frame s
  · exact filterPath_frame ieee s

@[simp] theorem processPath_inst (s : State) : (processPath s).inst = s.inst := by rw [processPath_frame]

@[simp] theorem processPath_lp (s : State) : (processPath s).lp = s.lp := by rw [processPath_frame]

/-- A path looks at its own state only, and so does what the host must grant it. -/
theorem onBuffers_congr {path path' : State → State} {s : State} (h : path s = path' s) :
    onBuffers path s = onBuffers path' s := by
  rw [onBuffers, onBuffers, h]

theorem processWith_of_ready {iv : Bool} {s : State} (hnull : nullOperand iv s = false)
    (hready : s.inst.pt = true ∨ knownFmt s.inst.fmt) :
    processWith ieee iv s = succeed (onBuffers processPath s) := by
  rcases processWith_cases ieee iv s with ⟨-, hcause⟩ | ⟨h, -, hpt⟩ | ⟨h, -, hpt, -⟩
  · obtain ⟨hpt, hf⟩ := hcause.resolve_left (Bool.eq_false_iff.mp hnull)
    have hknown := hready.resolve_left (Bool.eq_false_iff.mp hpt)
    exact absurd ((supportedFmt_iff _).mpr hknown) (Bool.eq_false_iff.mp hf)
  · rw [h, onBuffers_congr (processPath_of_pt hpt)]
  · rw [h, onBuffers_congr (processPath_of_not_pt hpt)]

/-- A PROCESS only raises, or runs its path on its buffers and succeeds. -/
theorem processWith_cases_path (iv : Bool) (s : State) :
    processWith ieee iv s = raiseInvalid s ∨
      processWith ieee iv s = succeed (onBuffers processPath s) ∧ (s.inst.pt = true ∨ knownFmt s.inst.fmt) := by
  rcases processWith_cases ieee iv s with ⟨h, -⟩ | ⟨-, hnull, hpt⟩ | ⟨-, hnull, -, hf⟩
  · exact .inl h
  · exact .inr ⟨processWith_of_ready hnull (.inl hpt), .inl hpt⟩
  · have hknown := (supportedFmt_iff _).mp hf
    exact .inr ⟨processWith_of_ready hnull (.inr hknown), .inr hknown⟩

/-- On whatever buffers: past the top, partially overlapping, or granted. -/
theorem onBuffers_cases (path : State → State) (s : State) :
    (pastTop s = true ∧ onBuffers path s = unspecifiedPastTop s) ∨
    (pastTop s = false ∧ onBuffers path s = unspecifiedOverlap s) ∨
    (s.BuffersGranted ∧ onBuffers path s = path s) := by
  unfold onBuffers
  cases htop : pastTop s <;> cases hover : partialOverlap s
  · exact .inr (.inr ⟨⟨htop, hover⟩, rfl⟩)
  · exact .inr (.inl ⟨rfl, rfl⟩)
  · exact .inl ⟨rfl, rfl⟩
  · exact .inl ⟨rfl, rfl⟩

/-- A PROCESS that its checks let through, on granted buffers, runs its path and succeeds. -/
theorem exec_of_granted {i : Instr} {s : State} (hp : processes true i) (hout : s.argOut ≠ 0#64)
    (hin : s.argIn ≠ 0#64) (hready : s.inst.pt = true ∨ knownFmt s.inst.fmt) (hg : s.BuffersGranted) :
    exec i s = .next (succeed (processPath s)) := by
  rw [exec_of_processes hp, processWith_of_ready (nullOperand_eq_false hout hin) hready, onBuffers_granted hg]

theorem exec_of_runs {i : Instr} {s : State} (hp : processes true i) (hf : knownFmt s.inst.fmt) (h : Runs s) :
    exec i s = .next (succeed (processPath s)) :=
  exec_of_granted hp h.outSet h.inSet h.ready (buffersGranted_of_runs hf h)

theorem filterReady_of_granted {s : State} (hinv : s.Inv) (hf : knownFmt s.inst.fmt) (hg : s.BuffersGranted) :
    FilterReady s :=
  ⟨(supportedFmt_iff _).mpr hf, hinv.instCh, hg⟩

/-! ### The passthrough path (R164) -/

theorem passthroughPath_inPlace {s : State} (h : s.argOut = s.argIn) : passthroughPath s = s := if_pos h

theorem passthroughPath_apart {s : State} (h : s.argOut ≠ s.argIn) :
    passthroughPath s = { s with mem := copyBytes s.argIn.toNat s.argOut.toNat (extent s) 0 s.mem } := if_neg h

theorem passthroughPath_delay (s : State) : (passthroughPath s).delay = s.delay := by
  unfold passthroughPath
  split <;> rfl

/-- Outside the output range the passthrough path changes no byte. -/
theorem readByte_passthroughPath_outside {s : State} {a : Nat}
    (ha : a < s.argOut.toNat ∨ s.argOut.toNat + extent s ≤ a) :
    readByte (passthroughPath s).mem a = readByte s.mem a := by
  by_cases h : s.argOut = s.argIn
  · rw [passthroughPath_inPlace h]
  · rw [passthroughPath_apart h]
    exact readByte_copyBytes_outside _ _ _ _ ha

/-- Inside it the passthrough path leaves the bytes of the input range. -/
theorem readByte_passthroughPath {s : State} (hf : knownFmt s.inst.fmt) (h : Runs s) {j : Nat}
    (hj : j < bytesMoved s) :
    readByte (passthroughPath s).mem (s.argOut.toNat + j) = readByte s.mem (s.argIn.toNat + j) := by
  by_cases he : s.argOut = s.argIn
  · rw [passthroughPath_inPlace he, he]
  · rw [passthroughPath_apart he]
    have hout := h.outInside.resolve_left (by omega)
    have hapart := h.apart.resolve_left he
    rw [bytesMoved_eq_extent hf] at hj hout hapart
    exact readByte_copyBytes _ _ _ _ (Nat.zero_le j) (by omega) (by omega) (by omega)

/-- Settles O25: in place the path does nothing; else it copies the extent and touches memory alone. -/
theorem passthroughCopiesBytes : Obligations.PassthroughCopiesBytes := by
  intro i s hp hinv hr hpt
  have hf := knownFmt_of_ready hinv hr.ready
  rw [exec_of_runs hp hf hr, processPath_of_pt hpt]
  refine ⟨fun he => ?_, fun hne => ⟨_, rfl, fun j => readByte_passthroughPath hf hr, fun a ha => ?_, ?_⟩⟩
  · rw [passthroughPath_inPlace he]; rfl
  · rw [bytesMoved_eq_extent hf] at ha
    exact readByte_passthroughPath_outside ha
  · rw [passthroughPath_apart hne]; rfl

/-! ### No frames, or no channels (R176) -/

theorem extent_eq_zero {s : State} (h : s.argCount = 0#64 ∨ s.inst.ch = 0#32) : extent s = 0 := by
  rcases h with h | h <;> simp [extent, bytesPerFrame, h]

theorem passthroughPath_of_extent_eq_zero {s : State} (h : extent s = 0) : passthroughPath s = s := by
  unfold passthroughPath
  rw [h]
  split <;> rfl

theorem filterPath_of_nothing {N : Numerics} {s : State} (h : s.argCount = 0#64 ∨ s.inst.ch = 0#32) :
    filterPath N s = s := by
  rcases h with h | h
  · rw [filterPath, h]; rfl
  · exact runFrames_noChannels N _ _ s (by rw [h]; rfl)

/-- Settles O30: without a byte the buffers are granted, and both paths do nothing. -/
theorem noFramesOrNoChannelsChangesNothing : Obligations.NoFramesOrNoChannelsChangesNothing := by
  intro i s hp hout hin hready hnone
  have hE := extent_eq_zero hnone
  have hpath : processPath s = s := by
    unfold processPath
    split
    · exact passthroughPath_of_extent_eq_zero hE
    · exact filterPath_of_nothing hnone
  rw [exec_of_granted hp hout hin hready (buffersGranted_of_extent_eq_zero hE), hpath]
  rfl

/-! ### The frame of a PROCESS (R161, 20_memory.md R61) -/

theorem processPath_delay_unused {s : State} (hr : FilterReady s) {c : Nat} (hc : s.inst.ch.toNat ≤ c) :
    (processPath s).delay[c]? = s.delay[c]? := by
  unfold processPath
  split
  · rw [passthroughPath_delay]
  · exact (filterPath_spec ieee hr).unused c hc

theorem readByte_processPath_outside {s : State} (hr : FilterReady s) {a : Nat}
    (ha : a < s.argOut.toNat ∨ s.argOut.toNat + extent s ≤ a) :
    readByte (processPath s).mem a = readByte s.mem a := by
  unfold processPath
  split
  · exact readByte_passthroughPath_outside ha
  · exact (filterPath_spec ieee hr).outside a ha

theorem processWith_delay_unused {iv : Bool} {s : State} (hinv : s.Inv) {c : Nat} (hc : s.inst.ch.toNat ≤ c) :
    (processWith ieee iv s).delay[c]? = s.delay[c]? := by
  rcases processWith_cases_path iv s with h | ⟨h, hready⟩ <;> rw [h]
  · rfl
  · rw [succeed_delay]
    rcases onBuffers_cases processPath s with ⟨-, h⟩ | ⟨-, h⟩ | ⟨hg, h⟩ <;> rw [h]
    · exact freeHistory_unused s c hc
    · exact freeHistory_unused s c hc
    · exact processPath_delay_unused (filterReady_of_granted hinv (knownFmt_of_ready hinv hready) hg) hc

theorem readByte_processWith_outside {iv : Bool} {s : State} (hinv : s.Inv) (htop : pastTop s = false) {a : Nat}
    (ha : a < s.argOut.toNat ∨ s.argOut.toNat + bytesMoved s ≤ a) :
    readByte (processWith ieee iv s).mem a = readByte s.mem a := by
  rcases processWith_cases_path iv s with h | ⟨h, hready⟩ <;> rw [h]
  · rfl
  · have hf := knownFmt_of_ready hinv hready
    rw [bytesMoved_eq_extent hf] at ha
    rw [succeed_mem]
    rcases onBuffers_cases processPath s with ⟨h, -⟩ | ⟨-, h⟩ | ⟨hg, h⟩
    · rw [htop] at h; cases h
    · rw [h]; exact readByte_fillBytes_outside _ _ _ _ ha
    · rw [h]; exact readByte_processPath_outside (filterReady_of_granted hinv hf hg) ha

/-- Settles O27: every outcome leaves the registers, and each way of running leaves the unused channels and the bytes
outside the output range. -/
theorem processFrame : Obligations.ProcessFrame := by
  intro iv i s t hp hinv he
  cases (exec_of_processes hp s).symm.trans he
  obtain ⟨hops, hlen, hlp, hinst⟩ := processWith_leaves ieee iv s
  exact ⟨hops, hinst, hlp, hlen, fun c => processWith_delay_unused hinv,
    fun htop a => readByte_processWith_outside hinv htop⟩

end Sys2Proof.Machine

/-! PROOFS. 42_biquad_process.md R168 to R172: the conversions of samples. That a result is exact is said in one form,
`IsValue y v`: `y` is finite and its value is `v` units of 2^-1074. An operation on such operands gives such a result
where the exact one is `Representable`. -/

namespace Sys2Proof.Machine

open Sys2Proof.Claims

/-! ### Exact values -/

/-- `y` is finite and its value is `v` units of 2^-1074. -/
def IsValue (y : F64) (v : Int) : Prop := isFinite64 y = true ∧ val64 y = v

/-- `v` units of 2^-1074 have few enough significant bits for binary64, and lie in its range. -/
def Representable (v : Int) : Prop := ∃ m j, v.natAbs = m * 2 ^ j ∧ m < 2 ^ 53 ∧ j ≤ 2045

theorem nearestEven_mul_right (n d : Nat) {c : Nat} (hc : 0 < c) : nearestEven (n * c) (d * c) = nearestEven n d := by
  have hlow : 2 * (n % d * c) < d * c ↔ 2 * (n % d) < d := by
    rw [← Nat.mul_assoc]; exact Nat.mul_lt_mul_right hc
  have hhigh : d * c < 2 * (n % d * c) ↔ d < 2 * (n % d) := by
    rw [← Nat.mul_assoc]; exact Nat.mul_lt_mul_right hc
  simp only [nearestEven, Nat.mul_div_mul_right _ _ hc, Nat.mul_mod_mul_right, hlow, hhigh]

/-- A rounding looks at the quotient only. -/
theorem round64_mul_right (s : Bool) (n d : Nat) {c : Nat} (hc : 0 < c) :
    round64 s (n * c) (d * c) = round64 s n d := by
  have hswap (k : Nat) : d * c * 2 ^ k = d * 2 ^ k * c := Nat.mul_right_comm _ _ _
  simp only [round64, patternOf, Nat.mul_div_mul_right _ _ hc, hswap, nearestEven_mul_right _ _ hc]

theorem isValue_round64 {s : Bool} {v : Int} (hs : signedVal s v.natAbs = v) (hv : Representable v) :
    IsValue (round64 s v.natAbs 1) v := by
  obtain ⟨m, j, he, hm, hj⟩ := hv
  obtain ⟨hfin, hval⟩ := round64_exact s hm hj
  rw [← he] at hfin hval
  exact ⟨hfin, hval.trans hs⟩

theorem IsValue.add {a b : F64} {x z : Int} (ha : IsValue a x) (hb : IsValue b z) (hv : Representable (x + z))
    (k : Nat) : IsValue (ieeeAdd k a b) (x + z) := by
  obtain ⟨ha, rfl⟩ := ha
  obtain ⟨hb, rfl⟩ := hb
  simp only [ieeeAdd, isNan64_of_finite ha, isNan64_of_finite hb, isInf64_of_finite ha, isInf64_of_finite hb]
  exact isValue_round64 (signedVal_natAbs fun hne => if_neg hne) hv

theorem IsValue.neg {a : F64} {x : Int} (h : IsValue a x) : IsValue (ieeeNeg a) (-x) :=
  ⟨(isFinite64_ieeeNeg a).trans h.1, by rw [val64_ieeeNeg, h.2]⟩

theorem IsValue.sub {a b : F64} {x z : Int} (ha : IsValue a x) (hb : IsValue b z) (hv : Representable (x - z))
    (k : Nat) : IsValue (ieeeSub k a b) (x - z) :=
  ha.add hb.neg hv k

/-- A product of `x` and `z` units is `x * z / unit64` units. -/
theorem IsValue.mul {a b : F64} {x z v : Int} (ha : IsValue a x) (hb : IsValue b z) (he : x * z = v * unit64)
    (hv : Representable v) (k : Nat) : IsValue (ieeeMul k a b) v := by
  obtain ⟨ha, rfl⟩ := ha
  obtain ⟨hb, rfl⟩ := hb
  rw [val64_eq_signedVal, val64_eq_signedVal, signedVal_mul] at he
  have hmag : mag64 a * mag64 b = v.natAbs * unit64 := by
    have habs := congrArg Int.natAbs he
    rwa [natAbs_signedVal, Int.natAbs_mul, Int.natAbs_natCast] at habs
  rw [hmag, ← signedVal_mul_natCast] at he
  have hs := Int.eq_of_mul_eq_mul_right (Int.natCast_ne_zero.mpr unit64_pos.ne') he
  have hround := round64_mul_right (sign64 a != sign64 b) v.natAbs 1 unit64_pos
  rw [Nat.one_mul] at hround
  simp only [ieeeMul, isNan64_of_finite ha, isNan64_of_finite hb, isInf64_of_finite ha, isInf64_of_finite hb, hmag,
    hround]
  exact isValue_round64 hs hv

theorem representable_zero : Representable 0 := ⟨0, 0, rfl, by decide, by decide⟩

theorem isValue_of_isZero {a : F64} (h : isZero a) : IsValue a 0 := by
  obtain rfl | rfl := h <;> exact ⟨by decide, by simp [val64, mag64, pat64]⟩

/-- A positive pattern past the first binade stands for its significand times a power of two. -/
theorem isValue_of_pat64 {a : F64} {v : Nat} (k q : Nat) (hv : v = q * 2 ^ k)
    (ha : sign64 a = false ∧ isFinite64 a = true ∧ pat64 a = k * 2 ^ 52 + q ∧ 2 ^ 52 ≤ q ∧ q ≤ 2 ^ 53) :
    IsValue a v := by
  obtain ⟨hs, hfin, hpat, hlow, hhigh⟩ := ha
  refine ⟨hfin, ?_⟩
  rw [val64_eq_signedVal, hs, mag64, hpat, magOf_binade 52 k q (.inr hlow) hhigh, hv]
  rfl

/-- `Nat.pow_add` without the evaluation of a large power. -/
theorem two_pow_eq_mul {n i j : Nat} (h : n = i + j) : 2 ^ n = 2 ^ i * 2 ^ j := h ▸ Nat.pow_add 2 i j

theorem isValue_one : IsValue 0x3FF0000000000000#64 unit64 :=
  isValue_of_pat64 1022 (2 ^ 52) (two_pow_eq_mul (by decide)) (by decide)

/-! ### Reading a 16-bit sample (R168) -/

/-- 1/32768 in units of 2^-1074: what one step of a 16-bit sample is worth. -/
def sampleUnit : Nat := 2 ^ 1059

theorem sampleUnit_pos : 0 < sampleUnit := by unfold sampleUnit; positivity

theorem unit64_eq : unit64 = 32768 * sampleUnit := by
  rw [unit64, sampleUnit, show 32768 = 2 ^ 15 by decide]
  exact two_pow_eq_mul (by decide)

theorem isValue_sampleUnit : IsValue 0x3F00000000000000#64 sampleUnit :=
  isValue_of_pat64 1007 (2 ^ 52) (two_pow_eq_mul (by decide)) (by decide)

theorem representable_mul_sampleUnit {w : Int} (h : w.natAbs < 2 ^ 53) : Representable (w * sampleUnit) :=
  ⟨w.natAbs, 1059, by rw [Int.natAbs_mul, Int.natAbs_natCast, sampleUnit], h, by decide⟩

theorem natAbs_toInt_le (h : BitVec 16) : h.toInt.natAbs ≤ 32768 := by
  have hlo := BitVec.le_two_mul_toInt (x := h)
  have hhi := BitVec.two_mul_toInt_lt (x := h)
  omega

theorem readSample_s16 (N : Numerics) (k : Nat) (m : Memory) (a : Nat) :
    readSample N k 2#32 m a = N.fmul64 (opDraw k 0) (N.i16ToF64 (read16 m a)) 0x3F00000000000000#64 :=
  if_neg (by decide)

/-- A 16-bit sample is read as that many 32768ths, exactly. -/
theorem isValue_readSample (k : Nat) (m : Memory) (a : Nat) :
    IsValue (readSample ieee k 2#32 m a) ((read16 m a).toInt * sampleUnit) := by
  have hs := natAbs_toInt_le (read16 m a)
  rw [readSample_s16]
  exact IsValue.mul (ieeeI16ToF64_exact _) isValue_sampleUnit (by ring) (representable_mul_sampleUnit (by omega)) _

/-- Settles O32: the product with 2^-15 is exact. -/
theorem integerSampleIsScaledExactly : Obligations.IntegerSampleIsScaledExactly := by
  rintro k a m _ rfl
  obtain ⟨hfin, hval⟩ := isValue_readSample k m a
  refine ⟨hfin, ?_⟩
  rw [hval, unit64_eq]
  push_cast
  ring

/-! ### Writing a 16-bit sample (R171, R172) -/

theorem fitsI16_iff {p : F64} : fitsI16 p = true ↔
    isFinite64 p = true ∧ -32769 * (unit64 : Int) < val64 p ∧ val64 p < 32768 * (unit64 : Int) := by
  rw [fitsI16, Bool.and_eq_true, decide_eq_true_eq, Int.neg_mul]

theorem ieeeTruncZ_eq_signedVal (a : F64) : ieeeTruncZ a = signedVal (sign64 a) (mag64 a / unit64) := rfl

theorem ieeeTruncZ_eq_tdiv (a : F64) : ieeeTruncZ a = (val64 a).tdiv unit64 := by
  rw [ieeeTruncZ_eq_signedVal, val64_eq_signedVal]
  cases sign64 a with
  | false => exact (Int.ofNat_tdiv _ _).symm
  | true =>
    change -((_ : Nat) : Int) = (-((_ : Nat) : Int)).tdiv _
    rw [Int.neg_tdiv, Int.ofNat_tdiv]

/-- In range the truncation is a 16-bit integer. -/
theorem ieeeTruncZ_bounds {p : F64} (h : fitsI16 p = true) : -32768 ≤ ieeeTruncZ p ∧ ieeeTruncZ p < 32768 := by
  obtain ⟨-, hlo, hhi⟩ := fitsI16_iff.mp h
  rw [ieeeTruncZ_eq_signedVal]
  rw [val64_eq_signedVal] at hlo hhi
  cases hs : sign64 p with
  | false =>
    rw [hs] at hhi
    change (mag64 p : Int) < _ at hhi
    have hdiv : mag64 p / unit64 < 32768 := (Nat.div_lt_iff_lt_mul unit64_pos).mpr (by omega)
    generalize mag64 p / unit64 = q at hdiv ⊢
    change -32768 ≤ (q : Int) ∧ (q : Int) < 32768
    omega
  | true =>
    rw [hs] at hlo
    change _ < -(mag64 p : Int) at hlo
    have hdiv : mag64 p / unit64 < 32769 := (Nat.div_lt_iff_lt_mul unit64_pos).mpr (by omega)
    generalize mag64 p / unit64 = q at hdiv ⊢
    change -32768 ≤ -(q : Int) ∧ -(q : Int) < 32768
    omega

/-- The sample written is the truncation of the scaled output, where that fits. -/
theorem toInt_outI16 {k : Nat} {y : F64} (h : fitsI16 (ieeeMul (opDraw k 16) y 0x40DFFFC000000000#64) = true) :
    (outI16 ieee k y).toInt = ieeeTruncZ (ieeeMul (opDraw k 16) y 0x40DFFFC000000000#64) := by
  obtain ⟨hlo, hhi⟩ := ieeeTruncZ_bounds h
  have hout : outI16 ieee k y = BitVec.ofInt 16 (ieeeTruncZ (ieeeMul (opDraw k 16) y 0x40DFFFC000000000#64)) := if_pos h
  rw [hout, BitVec.toInt_ofInt]
  exact Int.bmod_eq_of_le hlo hhi

theorem isValue_32767 : IsValue 0x40DFFFC000000000#64 (32767 * unit64) := by
  have hunit : 32767 * unit64 = 32767 * 2 ^ 38 * 2 ^ 1036 := by
    rw [unit64, two_pow_eq_mul (show 1074 = 38 + 1036 by decide), Nat.mul_assoc]
  have h := isValue_of_pat64 (a := 0x40DFFFC000000000#64) 1036 (32767 * 2 ^ 38) hunit (by decide)
  exact_mod_cast h

/-- An output of `s` 32768ths is written as the truncation of `s * 32767 / 32768`. -/
theorem toInt_outI16_of_isValue {y : F64} {s : Int} (h : IsValue y (s * sampleUnit)) (hs : s.natAbs ≤ 32768)
    (k : Nat) : (outI16 ieee k y).toInt = (s * 32767).tdiv 32768 := by
  have hpos : (0 : Int) < sampleUnit := Int.natCast_pos.mpr sampleUnit_pos
  have hunit : (unit64 : Int) = 32768 * sampleUnit := by rw [unit64_eq]; push_cast; rfl
  obtain ⟨hfin, hval⟩ : IsValue (ieeeMul (opDraw k 16) y 0x40DFFFC000000000#64) (s * 32767 * sampleUnit) :=
    h.mul isValue_32767 (by ring) (representable_mul_sampleUnit (by omega)) _
  have hfits : fitsI16 (ieeeMul (opDraw k 16) y 0x40DFFFC000000000#64) = true := by
    refine fitsI16_iff.mpr ⟨hfin, ?_, ?_⟩ <;> rw [hval, hunit, ← Int.mul_assoc] <;>
      exact Int.mul_lt_mul_of_pos_right (by omega) hpos
  rw [toInt_outI16 hfits, ieeeTruncZ_eq_tdiv, hval, hunit, Int.mul_tdiv_mul_of_pos_left _ _ hpos]

/-! ### Narrowing (R170) -/

theorem isFinite32_of_not {a : F32} (hn : isNan32 a = false) (hi : isInf32 a = false) : isFinite32 a = true := by
  simp only [isNan32, isInf32, isFinite32, decide_eq_false_iff_not, decide_eq_true_eq] at *
  omega

/-- A value of some 32768ths of binary32's range is not narrowed to an infinity. -/
theorem isFinite32_ieeeF64ToF32 {y : F64} {s : Int} (h : IsValue y (s * sampleUnit)) (hs : s.natAbs ≤ 32768)
    (k : Nat) : isFinite32 (ieeeF64ToF32 k y) = true := by
  obtain ⟨hfin, hval⟩ := h
  obtain ⟨hnan, -, hinf, -⟩ := ieeeF64ToF32_rounded32 k hfin
  refine isFinite32_of_not hnan (Bool.eq_false_iff.mpr fun hi => ?_)
  have hle := hinf.mp hi
  have hunit : sampleUnit = 2 ^ 134 * unit32 := by
    rw [sampleUnit, unit32]
    exact two_pow_eq_mul (by decide)
  rw [hval, Int.natAbs_mul, Int.natAbs_natCast, hunit, ← Nat.mul_assoc] at hle
  have := Nat.le_of_mul_le_mul_right hle unit32_pos
  omega

/-- Settles O34: a widened binary32 stands for as many units as before, so rounding it finds its pattern again. -/
theorem floatSampleIsStoredExactly : Obligations.FloatSampleIsStoredExactly := by
  intro k k' a hnan
  show ieeeF64ToF32 k' (ieeeF32ToF64 k a) = a
  have hsign := sign64_ieeeF32ToF64 (k := k) hnan
  cases hinf : isInf32 a with
  | true =>
    have hpat : pat32 a = inf32 := of_decide_eq_true hinf
    have hwide : isInf64 (ieeeF32ToF64 k a) = true := by
      rw [ieeeF32ToF64_inf hinf, isInf64, pat64_pack64 _ _ (by decide), decide_eq_true_eq]
    rw [ieeeF64ToF32_inf hwide, hsign, ← hpat, pack32_sign32_pat32]
  | false =>
    have hfin := isFinite32_of_not hnan hinf
    obtain ⟨hwide, hval⟩ := ieeeF32ToF64_exact k hfin
    have hmag : mag64 (ieeeF32ToF64 k a) = mag32 a * unit32 := by
      have habs := congrArg Int.natAbs hval
      rwa [val32_eq_signedVal, val64_eq_signedVal, signedVal_mul_natCast, natAbs_signedVal, natAbs_signedVal] at habs
    rw [ieeeF64ToF32_finite hwide, hsign, hmag, mag32, patternOf_magOf _ _ _ _ (of_decide_eq_true hfin) unit32_pos,
      pack32_sign32_pat32]

end Sys2Proof.Machine

/-! PROOFS. 42_biquad_process.md R165 to R175: the filtering path. Laws/Filter.lean says what it leaves by `historyAt`,
`inputAt` and `outputAt`, one recurrence per channel; here the recurrence is held to the spec's words, to the command on
one buffer, and to the stream cut in two. -/

namespace Sys2Proof.Machine

open Sys2Proof.Claims

/-! ### One recurrence per channel (R165 to R171) -/

theorem getElem?_delay {s : State} {c : Nat} (h : c < s.delay.length) : s.delay[c]? = some (s.chan c) := by
  rw [State.chan, List.getD_eq_getElem?_getD, List.getElem?_eq_getElem h, Option.getD_some]

theorem FilterAt.delay_inUse {N : Numerics} {s t : State} {n c : Nat} (h : FilterAt N s n 0 t) (hr : FilterReady s)
    (hc : c < s.inst.ch.toNat) : t.delay[c]? = some (historyAt N s c n) := by
  rw [getElem?_delay (h.length ▸ hc.trans_le hr.channels), h.history c hc, if_neg (Nat.not_lt_zero c)]

theorem sampleRead_readSample {fmt : Word} (hf : knownFmt fmt) (k : Nat) (m : Memory) (a : Nat) :
    sampleRead fmt m a (readSample ieee k fmt m a) := by
  obtain rfl | rfl := hf
  · exact .inr ⟨rfl, _, readSample_s16 ieee k m a⟩
  · exact .inl ⟨rfl, _, rfl⟩

theorem filterEquation_filterOutput (k : Nat) (q : BqRegs) (h : Chan) (x0 : F64) :
    filterEquation q h x0 (filterOutput ieee k q h x0) :=
  ⟨_, _, _, _, ⟨_, rfl⟩, ⟨_, rfl⟩, ⟨_, rfl⟩, ⟨_, rfl⟩, fun i => opDraw k (i + 5), rfl⟩

theorem historyShift_shiftHistory (k : Nat) (h : Chan) (x0 y0 : F64) :
    historyShift h x0 y0 (shiftHistory ieee k h x0 y0) :=
  ⟨rfl, ⟨_, rfl⟩, rfl, ⟨_, rfl⟩⟩

/-- What the memory holds of an output is what the claims say was written. -/
theorem sampleWritten_of_holdsSample {fmt : Word} (hf : knownFmt fmt) {k a : Nat} {m : Memory} {y0 : F64}
    (hs : holdsSample ieee k fmt m a y0) (h : Chan) (x0 : F64) :
    sampleWritten fmt m a y0 (shiftHistory ieee k h x0 y0) := by
  obtain rfl | rfl := hf
  · refine .inr ⟨rfl, opDraw k 16, ?_⟩
    rintro _ rfl hfin hlo hhi
    have hread : read16 m a = outI16 ieee k y0 := hs
    rw [hread]
    exact toInt_outI16 (fitsI16_iff.mpr ⟨hfin, hlo, hhi⟩)
  · exact .inl ⟨rfl, hs⟩

/-- Settles O26: the recurrence is that of `filterPath_spec`; each of its equations is one of the spec's. -/
theorem filterIsOneRecurrencePerChannel : Obligations.FilterIsOneRecurrencePerChannel := by
  intro i s hp hinv hr hpt
  have hf := knownFmt_of_ready hinv hr.ready
  have hready := filterReady_of_granted hinv hf (buffersGranted_of_runs hf hr)
  have hspec := filterPath_spec ieee hready
  rw [exec_of_runs hp hf hr, processPath_of_not_pt hpt]
  refine ⟨_, rfl, rfl, fun n c => historyAt ieee s c n, inputAt ieee s, outputAt ieee s, fun c hc =>
    ⟨getElem?_delay (hc.trans_le hinv.instCh), hspec.delay_inUse hready hc, fun n hn => ?_⟩⟩
  rw [sampleAt_eq_sampleAddr hf, sampleAt_eq_sampleAddr hf]
  exact ⟨sampleRead_readSample hf _ _ _, filterEquation_filterOutput _ _ _ _, historyShift_shiftHistory _ _ _ _,
    sampleWritten_of_holdsSample hf (hspec.output n c hc (.inl hn)) _ _⟩

/-! ### In place or into another buffer (R175) -/

/-- The same command, in place. -/
def inPlace (s : State) : State := { s with argOut := s.argIn }

theorem runs_inPlace {s : State} (h : Runs s) : Runs (inPlace s) :=
  ⟨h.inSet, h.inSet, h.ready, h.inInside, h.inInside, .inl rfl⟩

theorem inv_inPlace {s : State} (h : s.Inv) : (inPlace s).Inv := h.of_same rfl rfl h.result h.memory

/-- The recurrence looks at the input buffer only. -/
theorem historyAt_inPlace (N : Numerics) (s : State) (c n : Nat) :
    historyAt N (inPlace s) c n = historyAt N s c n := by
  induction n with
  | zero => rfl
  | succ n ih =>
    rw [historyAt, historyAt, ih]
    rfl

theorem outputAt_inPlace (N : Numerics) (s : State) (n c : Nat) : outputAt N (inPlace s) n c = outputAt N s n c := by
  rw [outputAt, outputAt, historyAt_inPlace]
  rfl

/-- The bytes of a sample are those of its output. -/
theorem readByte_eq_of_holdsSample {N : Numerics} {k : Nat} {fmt : Word} (hf : knownFmt fmt) {m m' : Memory}
    {a a' : Nat} {y0 : F64} (h : holdsSample N k fmt m a y0) (h' : holdsSample N k fmt m' a' y0) {i : Nat}
    (hi : i < bytesPerSample fmt) : readByte m (a + i) = readByte m' (a' + i) := by
  obtain rfl | rfl := hf
  · have hread : read16 m a = read16 m' a' := Eq.trans h (Eq.symm h')
    rw [← read16_byte m a hi, ← read16_byte m' a' hi, hread]
  · have hread : read32 m a = read32 m' a' := Eq.trans h (Eq.symm h')
    rw [← read32_byte m a hi, ← read32_byte m' a' hi, hread]

/-- Every byte of an extent is a byte of one sample, the same in every buffer. -/
theorem exists_sampleAddr_of_lt_extent {s : State} {j : Nat} (hj : j < extent s) :
    ∃ n c i, n < s.argCount.toNat ∧ c < s.inst.ch.toNat ∧ i < bytesPerSample s.inst.fmt ∧
      ∀ A : DWord, A.toNat + j = sampleAddr A s.inst.fmt s.inst.ch n c + i := by
  unfold extent bytesPerFrame at hj
  unfold sampleAddr
  generalize s.argCount.toNat = F, s.inst.ch.toNat = C, bytesPerSample s.inst.fmt = S at *
  have hS : 0 < S := Nat.pos_of_ne_zero fun h => by simp [h] at hj
  have hC : 0 < C := Nat.pos_of_ne_zero fun h => by simp [h] at hj
  refine ⟨j / S / C, j / S % C, j % S, ?_, Nat.mod_lt _ hC, Nat.mod_lt _ hS, fun A => ?_⟩
  · rw [Nat.div_div_eq_div_mul, Nat.div_lt_iff_lt_mul (Nat.mul_pos hS hC), Nat.mul_comm S]
    exact hj
  · rw [Nat.div_add_mod', Nat.add_assoc, Nat.div_add_mod']

/-- Two runs of the filtering path whose recurrences are one leave the same delay line. -/
theorem FilterAt.delay_eq {N : Numerics} {s s' t t' : State} {n : Nat} (h : FilterAt N s n 0 t)
    (h' : FilterAt N s' n 0 t') (hr : FilterReady s) (hr' : FilterReady s') (hinst : s'.inst = s.inst)
    (hdelay : s'.delay = s.delay) (hhist : ∀ c, historyAt N s' c n = historyAt N s c n) : t'.delay = t.delay := by
  refine List.ext_getElem? fun c => ?_
  rcases Nat.lt_or_ge c s.inst.ch.toNat with hc | hc
  · rw [h.delay_inUse hr hc, h'.delay_inUse hr' (hinst ▸ hc), hhist]
  · rw [h.unused c hc, h'.unused c (hinst ▸ hc), hdelay]

theorem filterPath_inPlace {s : State} (hf : knownFmt s.inst.fmt) (hr : FilterReady s) (hr' : FilterReady (inPlace s)) :
    (filterPath ieee (inPlace s)).delay = (filterPath ieee s).delay ∧
      ∀ j, j < extent s → readByte (filterPath ieee (inPlace s)).mem (s.argIn.toNat + j) =
        readByte (filterPath ieee s).mem (s.argOut.toNat + j) := by
  have hspec := filterPath_spec ieee hr
  have hspec' := filterPath_spec ieee hr'
  refine ⟨hspec.delay_eq hspec' hr hr' rfl rfl fun c => historyAt_inPlace ieee s c _, fun j hj => ?_⟩
  obtain ⟨n, c, i, hn, hc, hi, haddr⟩ := exists_sampleAddr_of_lt_extent hj
  have hheld := hspec'.output n c hc (.inl hn)
  rw [outputAt_inPlace] at hheld
  rw [haddr, haddr]
  exact readByte_eq_of_holdsSample hf hheld (hspec.output n c hc (.inl hn)) hi

theorem processPath_inPlace {s : State} (hinv : s.Inv) (hr : Runs s) :
    (processPath (inPlace s)).delay = (processPath s).delay ∧
      ∀ j, j < bytesMoved s → readByte (processPath (inPlace s)).mem (s.argIn.toNat + j) =
        readByte (processPath s).mem (s.argOut.toNat + j) := by
  have hf := knownFmt_of_ready hinv hr.ready
  cases hpt : s.inst.pt with
  | true =>
    rw [processPath_of_pt hpt, processPath_of_pt (s := inPlace s) hpt, passthroughPath_inPlace (s := inPlace s) rfl]
    exact ⟨(passthroughPath_delay s).symm, fun j hj => (readByte_passthroughPath hf hr hj).symm⟩
  | false =>
    rw [processPath_of_not_pt hpt, processPath_of_not_pt (s := inPlace s) hpt, bytesMoved_eq_extent hf]
    exact filterPath_inPlace hf (filterReady_of_granted hinv hf (buffersGranted_of_runs hf hr))
      (filterReady_of_granted (inv_inPlace hinv) hf (buffersGranted_of_runs hf (runs_inPlace hr)))

/-- Settles O29: the two runs have one recurrence, and hold the same samples at the same places of their buffers. -/
theorem inPlaceEqualsTwoBuffers : Obligations.InPlaceEqualsTwoBuffers := by
  intro i s hp hinv hr _
  have hf := knownFmt_of_ready hinv hr.ready
  obtain ⟨hdelay, hbytes⟩ := processPath_inPlace hinv hr
  have hexec' := exec_of_runs (s := inPlace s) hp hf (runs_inPlace hr)
  refine ⟨_, _, exec_of_runs hp hf hr, hexec', hbytes, ?_, hdelay, ?_, rfl⟩
  · rw [succeed_inst, succeed_inst, processPath_inst, processPath_inst]; rfl
  · rw [succeed_lp, succeed_lp, processPath_lp, processPath_lp]; rfl

/-! ### A stream cut in two (R174) -/

/-- The state with other operands of a PROCESS, and another STATUS. -/
def withOperands (count inn out : DWord) (status : Word) (s : State) : State :=
  { s with argCount := count, argIn := inn, argOut := out, status := status }

theorem sampleAddr_advanced {A B : DWord} {fmt ch : Word} {d : Nat}
    (h : B.toNat = A.toNat + d * bytesPerFrame fmt ch) (n c : Nat) :
    sampleAddr B fmt ch n c = sampleAddr A fmt ch (d + n) c := by
  rw [sampleAddr, sampleAddr, h, bytesPerFrame]
  ring

section Advanced

variable {inn out : DWord} {d : Nat}

/-- Buffers advanced by `d` frames: the step of frame `n` is that of frame `d + n` before. -/
theorem filterStep_withOperands (N : Numerics) (count : DWord) (status : Word) (n c : Nat) {s : State}
    (hin : inn.toNat = s.argIn.toNat + d * bytesPerFrame s.inst.fmt s.inst.ch)
    (hout : out.toNat = s.argOut.toNat + d * bytesPerFrame s.inst.fmt s.inst.ch) :
    filterStep N n c (withOperands count inn out status s) =
      withOperands count inn out status (filterStep N (d + n) c s) := by
  simp only [filterStep, withOperands, sampleAddr_advanced hin, sampleAddr_advanced hout]
  rfl

theorem runChannels_withOperands (N : Numerics) (count : DWord) (status : Word) (n : Nat) : ∀ (j c : Nat) (s : State),
    inn.toNat = s.argIn.toNat + d * bytesPerFrame s.inst.fmt s.inst.ch →
    out.toNat = s.argOut.toNat + d * bytesPerFrame s.inst.fmt s.inst.ch →
    runChannels N n j c (withOperands count inn out status s) =
      withOperands count inn out status (runChannels N (d + n) j c s) := by
  intro j
  induction j with
  | zero => exact fun _ _ _ _ => rfl
  | succ j ih =>
    intro c s hin hout
    rw [runChannels, runChannels, filterStep_withOperands N count status n c hin hout]
    exact ih (c + 1) _ hin hout

theorem runFrames_withOperands (N : Numerics) (count : DWord) (status : Word) : ∀ (j n : Nat) (s : State),
    inn.toNat = s.argIn.toNat + d * bytesPerFrame s.inst.fmt s.inst.ch →
    out.toNat = s.argOut.toNat + d * bytesPerFrame s.inst.fmt s.inst.ch →
    runFrames N j n (withOperands count inn out status s) =
      withOperands count inn out status (runFrames N j (d + n) s) := by
  intro j
  induction j with
  | zero => exact fun _ _ _ _ => rfl
  | succ j ih =>
    intro n s hin hout
    rw [runFrames, runFrames, runChannels_withOperands N count status n _ _ _ hin hout]
    refine ih (n + 1) _ ?_ ?_ <;> rw [runChannels_frame] <;> assumption

end Advanced

theorem copyBytes_add (src dst n1 n2 : Nat) : ∀ (i : Nat) (m : Memory),
    copyBytes src dst (n1 + n2) i m = copyBytes src dst n2 (i + n1) (copyBytes src dst n1 i m) := by
  induction n1 with
  | zero => intro i m; rw [Nat.zero_add]; rfl
  | succ n1 ih =>
    intro i m
    rw [show n1 + 1 + n2 = n1 + n2 + 1 by omega, copyBytes, ih, copyBytes, show i + 1 + n1 = i + (n1 + 1) by omega]

theorem copyBytes_advanced (src dst d n : Nat) : ∀ (i : Nat) (m : Memory),
    copyBytes (src + d) (dst + d) n i m = copyBytes src dst n (d + i) m := by
  induction n with
  | zero => exact fun _ _ => rfl
  | succ n ih =>
    intro i m
    rw [copyBytes, copyBytes, ih, Nat.add_assoc, Nat.add_assoc, Nat.add_assoc]

section Cut

variable {s : State} {n1 n2 inn out : DWord}

theorem filterPath_cut (N : Numerics) (status1 status2 : Word) (hcount : s.argCount.toNat = n1.toNat + n2.toNat)
    (hin : inn.toNat = s.argIn.toNat + n1.toNat * bytesPerFrame s.inst.fmt s.inst.ch)
    (hout : out.toNat = s.argOut.toNat + n1.toNat * bytesPerFrame s.inst.fmt s.inst.ch) :
    filterPath N (withOperands n2 inn out status2 (filterPath N (withOperands n1 s.argIn s.argOut status1 s))) =
      withOperands n2 inn out status2 (filterPath N s) := by
  have hfirst : filterPath N (withOperands n1 s.argIn s.argOut status1 s) =
      withOperands n1 s.argIn s.argOut status1 (runFrames N n1.toNat 0 s) :=
    runFrames_withOperands (d := 0) N n1 status1 n1.toNat 0 s (by simp) (by simp)
  have hsecond : filterPath N (withOperands n2 inn out status2 (runFrames N n1.toNat 0 s)) =
      withOperands n2 inn out status2 (runFrames N n2.toNat (n1.toNat + 0) (runFrames N n1.toNat 0 s)) := by
    refine runFrames_withOperands N n2 status2 n2.toNat 0 _ ?_ ?_ <;> rw [runFrames_frame] <;> assumption
  have hwhole : filterPath N s = runFrames N n2.toNat (0 + n1.toNat) (runFrames N n1.toNat 0 s) := by
    rw [filterPath, hcount, runFrames_add]
  rw [Nat.add_comm] at hsecond
  rw [hwhole, ← hsecond, hfirst]
  rfl

theorem passthroughPath_cut (status1 status2 : Word) (hcount : s.argCount.toNat = n1.toNat + n2.toNat)
    (hin : inn.toNat = s.argIn.toNat + n1.toNat * bytesPerFrame s.inst.fmt s.inst.ch)
    (hout : out.toNat = s.argOut.toNat + n1.toNat * bytesPerFrame s.inst.fmt s.inst.ch) :
    passthroughPath (withOperands n2 inn out status2 (passthroughPath (withOperands n1 s.argIn s.argOut status1 s))) =
      withOperands n2 inn out status2 (passthroughPath s) := by
  by_cases he : s.argOut = s.argIn
  · have he' : out = inn := BitVec.eq_of_toNat_eq (by rw [hin, hout, he])
    rw [passthroughPath_inPlace (s := withOperands n1 s.argIn s.argOut status1 s) he, passthroughPath_inPlace he,
      passthroughPath_inPlace he']
    rfl
  · have he' : out ≠ inn := fun h => he (BitVec.eq_of_toNat_eq (by rw [h] at hout; omega))
    have hextent : extent s = n1.toNat * bytesPerFrame s.inst.fmt s.inst.ch +
        n2.toNat * bytesPerFrame s.inst.fmt s.inst.ch := by
      rw [extent, hcount, Nat.add_mul]
    rw [passthroughPath_apart (s := withOperands n1 s.argIn s.argOut status1 s) he, passthroughPath_apart he,
      passthroughPath_apart he', hextent, copyBytes_add, Nat.zero_add]
    simp only [withOperands, extent, hin, hout, copyBytes_advanced, Nat.add_zero]

theorem processPath_cut (status1 status2 : Word) (hcount : s.argCount.toNat = n1.toNat + n2.toNat)
    (hin : inn.toNat = s.argIn.toNat + n1.toNat * bytesPerFrame s.inst.fmt s.inst.ch)
    (hout : out.toNat = s.argOut.toNat + n1.toNat * bytesPerFrame s.inst.fmt s.inst.ch) :
    processPath (withOperands n2 inn out status2 (processPath (withOperands n1 s.argIn s.argOut status1 s))) =
      withOperands n2 inn out status2 (processPath s) := by
  have hinst : (processPath (withOperands n1 s.argIn s.argOut status1 s)).inst = s.inst := processPath_inst _
  cases hpt : s.inst.pt with
  | true =>
    rw [processPath_of_pt (by rw [withOperands, hinst, hpt]), processPath_of_pt hpt,
      processPath_of_pt (s := withOperands n1 s.argIn s.argOut status1 s) hpt]
    exact passthroughPath_cut status1 status2 hcount hin hout
  | false =>
    rw [processPath_of_not_pt (by rw [withOperands, hinst, hpt]), processPath_of_not_pt hpt,
      processPath_of_not_pt (s := withOperands n1 s.argIn s.argOut status1 s) hpt]
    exact filterPath_cut ieee status1 status2 hcount hin hout

end Cut

/-- A command over some of the frames of one that runs, from frame `d` on, runs. -/
theorem runs_part {s t : State} {d : Nat} (h : Runs s) (hinst : t.inst = s.inst)
    (hcount : d + t.argCount.toNat ≤ s.argCount.toNat)
    (hin : t.argIn.toNat = s.argIn.toNat + d * s.inst.ch.toNat * sampleBytes s.inst.fmt)
    (hout : t.argOut.toNat = s.argOut.toNat + d * s.inst.ch.toNat * sampleBytes s.inst.fmt) : Runs t := by
  obtain ⟨hout0, hin0, hready, hinTop, houtTop, hapart⟩ := h
  have hmoved : d * s.inst.ch.toNat * sampleBytes s.inst.fmt + bytesMoved t ≤ bytesMoved s := by
    rw [bytesMoved, bytesMoved, hinst, ← Nat.add_mul, ← Nat.add_mul]
    exact Nat.mul_le_mul_right _ (Nat.mul_le_mul_right _ hcount)
  have hne {A B : DWord} (hA : A ≠ 0#64) (hB : A.toNat ≤ B.toNat) : B ≠ 0#64 := by bv_omega
  refine ⟨hne hout0 (by omega), hne hin0 (by omega), hinst ▸ hready, by omega, by omega, ?_⟩
  rcases hapart with he | hlt
  · exact .inl (BitVec.eq_of_toNat_eq (by rw [hin, hout, he]))
  · exact .inr (by omega)

/-- Settles O28: the loops and the copy compose, and on advanced buffers a frame is the frame after the cut. -/
theorem streamMayBeCutAnywhere : Obligations.StreamMayBeCutAnywhere := by
  intro i s n1 n2 hp hinv hr hcount moved hmoved hinTop houtTop
  have hf := knownFmt_of_ready hinv hr.ready
  have hadvanced {A : DWord} (hA : A.toNat + moved < 2 ^ 64) : (BitVec.ofNat 64 (A.toNat + moved)).toNat =
      A.toNat + n1.toNat * s.inst.ch.toNat * sampleBytes s.inst.fmt := by
    rw [BitVec.toNat_ofNat, Nat.mod_eq_of_lt hA, hmoved]
  have hin := hadvanced hinTop
  have hout := hadvanced houtTop
  generalize BitVec.ofNat 64 (s.argIn.toNat + moved) = inn at hin ⊢
  generalize BitVec.ofNat 64 (s.argOut.toNat + moved) = out at hout ⊢
  have hinst : (processPath (withOperands n1 s.argIn s.argOut s.status s)).inst = s.inst := processPath_inst _
  have hrun1 : Runs (withOperands n1 s.argIn s.argOut s.status s) :=
    runs_part (d := 0) hr rfl (by simp [withOperands]; omega) (by simp [withOperands]) (by simp [withOperands])
  have hrun2 : Runs (withOperands n2 inn out Config.success
      (processPath (withOperands n1 s.argIn s.argOut s.status s))) :=
    runs_part hr hinst hcount.ge hin hout
  have hexec2 := exec_of_runs hp (hinst.symm ▸ hf) hrun2
  have hframes : n1.toNat * s.inst.ch.toNat * sampleBytes s.inst.fmt =
      n1.toNat * bytesPerFrame s.inst.fmt s.inst.ch := by
    rw [sampleBytes_eq_bytesPerSample hf, Nat.mul_assoc, bytesPerFrame]
  rw [hframes] at hin hout
  rw [processPath_cut s.status Config.success hcount hin hout] at hexec2
  exact ⟨_, _, _, exec_of_runs hp hf hr, exec_of_runs hp hf hrun1, hexec2, rfl, rfl, rfl, rfl, rfl⟩

/-! ### Unit gain in the integer format (R172) -/

theorem IsValue.add_zero {a b : F64} {v : Int} (ha : IsValue a v) (hb : IsValue b 0) (hv : Representable v) (k : Nat) :
    IsValue (ieeeAdd k a b) v := by
  have h := ha.add hb (by rwa [Int.add_zero]) k
  rwa [Int.add_zero] at h

theorem IsValue.sub_zero {a b : F64} {v : Int} (ha : IsValue a v) (hb : IsValue b 0) (hv : Representable v) (k : Nat) :
    IsValue (ieeeSub k a b) v := by
  have h := ha.sub hb (by rwa [Int.sub_zero]) k
  rwa [Int.sub_zero] at h

/-- A zero coefficient times a history value that is finite is a zero. -/
theorem isValue_mul_history {z : F64} {h : F32} (hz : isZero z) (hh : isFinite32 h = true) (k k' : Nat) :
    IsValue (ieeeMul k z (ieeeF32ToF64 k' h)) 0 :=
  (isValue_of_isZero hz).mul ⟨(ieeeF32ToF64_exact k' hh).1, rfl⟩ (by ring) representable_zero k

/-- At unit gain the filter equation gives its input, on a history without a NaN or an infinity. -/
theorem isValue_filterOutput {q : BqRegs} {h : Chan} {x : F64} {v : Int} (hq : ScaledIdentity q) (hh : finiteHistory h)
    (hx : IsValue x v) (hv : Representable v) (k : Nat) : IsValue (filterOutput ieee k q h x) v := by
  obtain ⟨hx1, hx2, hy1, hy2⟩ := hh
  have hgain : IsValue (ieeeMul (opDraw k 5) q.b0 x) v := by
    rw [hq.b0]
    exact isValue_one.mul hx (by ring) hv _
  exact (((hgain.add_zero (isValue_mul_history hq.b1 hx1 _ _) hv _).add_zero (isValue_mul_history hq.b2 hx2 _ _) hv
    _).sub_zero (isValue_mul_history hq.a1 hy1 _ _) hv _).sub_zero (isValue_mul_history hq.a2 hy2 _ _) hv _

/-- The 16-bit sample of frame `n`, channel `c`, before the command. -/
def inputI16 (s : State) (n c : Nat) : Int := (read16 s.mem (sampleAddr s.argIn s.inst.fmt s.inst.ch n c)).toInt

theorem isValue_inputAt {s : State} (hfmt : s.inst.fmt = 2#32) (n c : Nat) :
    IsValue (inputAt ieee s n c) (inputI16 s n c * sampleUnit) := by
  rw [inputAt, inputI16, hfmt]
  exact isValue_readSample _ _ _

theorem natAbs_inputI16_le (s : State) (n c : Nat) : (inputI16 s n c).natAbs ≤ 32768 := natAbs_toInt_le _

theorem representable_inputI16 (s : State) (n c : Nat) : Representable (inputI16 s n c * sampleUnit) :=
  representable_mul_sampleUnit (by have := natAbs_inputI16_le s n c; omega)

/-- Unit gain keeps the history finite: what enters it are 16-bit samples scaled. -/
theorem finiteHistory_historyAt {s : State} {c : Nat} (hq : ScaledIdentity s.inst) (hh : finiteHistory (s.chan c))
    (n : Nat) : finiteHistory (historyAt ieee s c n) := by
  induction n with
  | zero => exact hh
  | succ n ih =>
    have hs := natAbs_inputI16_le s n c
    have hx := isValue_inputAt hq.fmt n c
    have hy := isValue_filterOutput hq ih hx (representable_inputI16 s n c) (drawAt s n c)
    exact ⟨isFinite32_ieeeF64ToF32 hx hs _, ih.1, isFinite32_ieeeF64ToF32 hy hs _, ih.2.2.1⟩

theorem isValue_outputAt {s : State} {c : Nat} (hq : ScaledIdentity s.inst) (hh : finiteHistory (s.chan c)) (n : Nat) :
    IsValue (outputAt ieee s n c) (inputI16 s n c * sampleUnit) :=
  isValue_filterOutput hq (finiteHistory_historyAt hq hh n) (isValue_inputAt hq.fmt n c)
    (representable_inputI16 s n c) _

/-- Settles O33: a sample is read exactly and leaves the filter as it was read, and the output conversion truncates. -/
theorem unitGainTruncatesTowardZero : Obligations.UnitGainTruncatesTowardZero := by
  refine ⟨?_, fun i s hp hinv hr hq => ?_⟩
  · rintro k k' a m _ rfl
    exact toInt_outI16_of_isValue (isValue_readSample k m a) (natAbs_toInt_le _) k'
  · have hf := knownFmt_of_ready hinv hr.ready
    rw [exec_of_runs hp hf hr, processPath_of_not_pt hq.filtering]
    refine ⟨_, rfl, rfl, fun c hc hh n hn => ?_⟩
    have hheld := (filterPath_spec ieee (filterReady_of_granted hinv hf (buffersGranted_of_runs hf hr))).output n c hc
      (.inl hn)
    rw [sampleAt_eq_sampleAddr hf, sampleAt_eq_sampleAddr hf, succeed_mem]
    rw [holdsSample, if_neg (by rw [hq.fmt]; decide)] at hheld
    rw [hheld]
    exact toInt_outI16_of_isValue (isValue_outputAt hq hh n) (natAbs_inputI16_le s n c) _

end Sys2Proof.Machine

/-! PROOFS. 43_lowpass.md R202 and R212, 10_state.md R31 and R35: LPF_PROCESS is BQ_PROCESS, and neither reads a
descriptor, the configuration copy or BQ_A0. The second is a simulation: writing those registers commutes with every
function that a PROCESS is built of. -/

namespace Sys2Proof.Machine

open Sys2Proof.Claims

/-- Settles O39: both are the one meaning of PROCESS. -/
theorem lpfProcessIsBqProcess : Obligations.LpfProcessIsBqProcess := by
  intro iv s
  rw [exec_lpfProcess, exec_bqProcess]

/-! ### The registers that no PROCESS reads (R212) -/

/-- Other values in CD_*, LD_*, LP_* and BQ_A0. -/
def withUnread (cd : BqDescr) (ld lp : LpConfig) (a0 : F64) (s : State) : State :=
  { s with cd := cd, ld := ld, lp := lp, inst := { s.inst with a0 := a0 } }

section Unread

variable (cd : BqDescr) (ld lp : LpConfig) (a0 : F64)

theorem filterStep_withUnread (N : Numerics) (n c : Nat) (s : State) :
    filterStep N n c (withUnread cd ld lp a0 s) = withUnread cd ld lp a0 (filterStep N n c s) := rfl

theorem runChannels_withUnread (N : Numerics) (n : Nat) : ∀ (j c : Nat) (s : State),
    runChannels N n j c (withUnread cd ld lp a0 s) = withUnread cd ld lp a0 (runChannels N n j c s) := by
  intro j
  induction j with
  | zero => exact fun _ _ => rfl
  | succ j ih => exact fun c s => ih (c + 1) (filterStep N n c s)

theorem runFrames_withUnread (N : Numerics) : ∀ (j n : Nat) (s : State),
    runFrames N j n (withUnread cd ld lp a0 s) = withUnread cd ld lp a0 (runFrames N j n s) := by
  intro j
  induction j with
  | zero => exact fun _ _ => rfl
  | succ j ih =>
    intro n s
    rw [runFrames, runChannels_withUnread, ih]
    rfl

theorem filterPath_withUnread (N : Numerics) (s : State) :
    filterPath N (withUnread cd ld lp a0 s) = withUnread cd ld lp a0 (filterPath N s) :=
  runFrames_withUnread cd ld lp a0 N _ _ s

theorem passthroughPath_withUnread (s : State) :
    passthroughPath (withUnread cd ld lp a0 s) = withUnread cd ld lp a0 (passthroughPath s) := by
  by_cases h : s.argOut = s.argIn
  · rw [passthroughPath_inPlace h]
    exact passthroughPath_inPlace h
  · rw [passthroughPath_apart h]
    exact passthroughPath_apart h

/-- On granted buffers the path decides; else the free values are drawn alike (log 7, log 8). -/
theorem onBuffers_withUnread {path : State → State} {s : State}
    (h : path (withUnread cd ld lp a0 s) = withUnread cd ld lp a0 (path s)) :
    onBuffers path (withUnread cd ld lp a0 s) = withUnread cd ld lp a0 (onBuffers path s) := by
  have htop : pastTop (withUnread cd ld lp a0 s) = pastTop s := rfl
  have hover : partialOverlap (withUnread cd ld lp a0 s) = partialOverlap s := rfl
  unfold onBuffers
  rw [htop, hover, h]
  split
  · rfl
  · split <;> rfl

theorem processWith_withUnread (N : Numerics) (iv : Bool) (s : State) :
    processWith N iv (withUnread cd ld lp a0 s) = withUnread cd ld lp a0 (processWith N iv s) := by
  have hnull : nullOperand iv (withUnread cd ld lp a0 s) = nullOperand iv s := rfl
  have hpt : (withUnread cd ld lp a0 s).inst.pt = s.inst.pt := rfl
  have hfmt : (withUnread cd ld lp a0 s).inst.fmt = s.inst.fmt := rfl
  unfold processWith
  rw [hnull, hpt, hfmt, onBuffers_withUnread cd ld lp a0 (passthroughPath_withUnread cd ld lp a0 s),
    onBuffers_withUnread cd ld lp a0 (filterPath_withUnread cd ld lp a0 N s)]
  split
  · rfl
  · split
    · rfl
    · split <;> rfl

end Unread

/-- Settles O36: the two runs are one run with those registers written after it. -/
theorem processIgnoresDescriptors : Obligations.ProcessIgnoresDescriptors := by
  intro iv i s cd ld lp a0 hp
  refine ⟨_, exec_of_processes hp s, ?_⟩
  rw [exec_of_processes hp]
  exact congrArg _ (processWith_withUnread cd ld lp a0 ieee iv s)

end Sys2Proof.Machine

/-! PROOFS. 43_lowpass.md R200 to R210 but for R202: the properties of SIN64 and COS64, what the derivation of a
low-pass descriptor gives, and what LPF_INIT and LPF_REINIT leave. Both commands end in `reinit_core` on the derived descriptor,
and of that every statement here needs one fact: `lowpassFrom_lowpassDescr`, that it is one of those of the claims. -/

namespace Sys2Proof.Machine

open Sys2Proof.Claims

/-! ### SIN64 and COS64 (R206) -/

/-- A magnitude pattern up to that of 1.0 stands for a value up to 1.0. -/
theorem finite_of_pat64_le_one {a : F64} (h : pat64 a ≤ one64) :
    isFinite64 a = true ∧ (val64 a).natAbs ≤ unit64 := by
  refine ⟨isFinite64_iff.mpr (Nat.lt_of_le_of_lt h (by decide)), ?_⟩
  have hone : pat64 0x3FF0000000000000#64 = one64 := by decide
  rw [val64_eq_signedVal, natAbs_signedVal, ← mag64_one, mag64, mag64, hone]
  exact (magOf_strictMono 52).monotone h

theorem sin64_zero : sin64 0x0000000000000000#64 = 0x0000000000000000#64 := by
  have hsign : sign64 0x0000000000000000#64 = false := by decide
  simp only [sin64, hsign, Bool.false_and]
  decide

theorem cos64_zero : cos64 0x0000000000000000#64 = 0x3FF0000000000000#64 := rfl

theorem finite_sin64 {w : F64} (h : isFinite64 w = true) :
    isFinite64 (sin64 w) = true ∧ (val64 (sin64 w)).natAbs ≤ unit64 :=
  finite_of_pat64_le_one (sin64_le_one h)

theorem finite_cos64 {w : F64} (h : isFinite64 w = true) :
    isFinite64 (cos64 w) = true ∧ (val64 (cos64 w)).natAbs ≤ unit64 :=
  finite_of_pat64_le_one (cos64_le_one h)

/-- Settles O43: P1 at +0.0, P2 by the bound on their patterns, P3 where w is not finite. -/
theorem sineAndCosineProperties : Obligations.SineAndCosineProperties := by
  refine ⟨sin64_zero, cos64_zero, fun w h => ?_, fun w h => ⟨sin64_nan h, cos64_nan h⟩⟩
  obtain ⟨hsin, hsinle⟩ := finite_sin64 h
  obtain ⟨hcos, hcosle⟩ := finite_cos64 h
  exact ⟨hsin, hsinle, hcos, hcosle⟩

/-! ### Results told by their value -/

/-- A value other than zero has one pattern. -/
theorem IsValue.unique {a b : F64} {v : Int} (ha : IsValue a v) (hb : IsValue b v) (hv : v ≠ 0) : a = b := by
  obtain ⟨-, rfl⟩ := ha
  obtain ⟨-, hval⟩ := hb
  rw [val64_eq_signedVal, val64_eq_signedVal] at hval
  rw [val64_eq_signedVal] at hv
  have hmag : mag64 b = mag64 a := by simpa using congrArg Int.natAbs hval
  have hpat : pat64 b = pat64 a := (magOf_strictMono 52).injective hmag
  have hsign : sign64 b = sign64 a :=
    calc sign64 b = decide (signedVal (sign64 b) (mag64 b) < 0) := sign_eq_of_signedVal_ne_zero (hval ▸ hv)
      _ = decide (signedVal (sign64 a) (mag64 a) < 0) := by rw [hval]
      _ = sign64 a := (sign_eq_of_signedVal_ne_zero hv).symm
  rw [← pack64_sign64_pat64 a, ← pack64_sign64_pat64 b, hpat, hsign]

theorem val64_of_isZero64 {a : F64} (h : isZero64 a = true) : val64 a = 0 :=
  (isValue_of_isZero ((isZero64_iff a).mp h)).2

theorem isZero64_eq_false_of_isValue {a : F64} {v : Int} (ha : IsValue a v) (hv : v ≠ 0) : isZero64 a = false :=
  Bool.eq_false_iff.mpr fun hz => hv (ha.2.symm.trans (val64_of_isZero64 hz))

theorem IsValue.representable {a : F64} {v : Int} (ha : IsValue a v) : Representable v := by
  obtain ⟨hfin, rfl⟩ := ha
  obtain ⟨m, hm, hmag⟩ := magOf_eq_mul_two_pow 52 (pat64 a)
  refine ⟨m, _, by rw [val64_eq_signedVal, natAbs_signedVal, mag64, hmag], hm, ?_⟩
  have hlt := isFinite64_iff.mp hfin
  unfold inf64 at hlt
  omega

/-- A product that is exactly the value of `c`, which is not zero, is `c`. -/
theorem IsValue.mul_eq {a b c : F64} {x z v : Int} (ha : IsValue a x) (hb : IsValue b z) (hc : IsValue c v)
    (he : x * z = v * unit64) (hv : v ≠ 0) (k : Nat) : ieeeMul k a b = c :=
  (ha.mul hb he hc.representable k).unique hc hv

theorem unit64_ne_zero : (unit64 : Int) ≠ 0 := by exact_mod_cast unit64_pos.ne'

theorem isValue_zero : IsValue 0x0000000000000000#64 0 := isValue_of_isZero (.inl rfl)

/-- 2.0, in units. -/
theorem isValue_two : IsValue constTwo (2 * unit64 : Nat) := by
  have hunits : 2 * unit64 = 2 ^ 52 * 2 ^ 1023 := by
    rw [unit64, two_pow_eq_mul (show 1074 = 51 + 1023 by decide)]
    omega
  exact isValue_of_pat64 1023 (2 ^ 52) hunits (by decide)

/-- Doubling adds one to the exponent field of a positive value past the first binade. -/
theorem ieeeMul_two (k : Nat) {a b : F64} (e q : Nat)
    (ha : sign64 a = false ∧ isFinite64 a = true ∧ pat64 a = e * 2 ^ 52 + q ∧ 2 ^ 52 ≤ q ∧ q ≤ 2 ^ 53)
    (hb : sign64 b = false ∧ isFinite64 b = true ∧ pat64 b = (e + 1) * 2 ^ 52 + q ∧ 2 ^ 52 ≤ q ∧
      q ≤ 2 ^ 53) :
    ieeeMul k constTwo a = b := by
  have hva := isValue_of_pat64 e q rfl ha
  have hvb := isValue_of_pat64 (e + 1) q rfl hb
  obtain ⟨-, -, -, hlow, -⟩ := ha
  have hpos : q * 2 ^ (e + 1) ≠ 0 := Nat.mul_ne_zero (by omega) (Nat.two_pow_pos _).ne'
  exact isValue_two.mul_eq hva hvb (by push_cast; ring) (by exact_mod_cast hpos) k

/-- `2*PI`. -/
theorem ieeeMul_two_pi (k : Nat) : ieeeMul k constTwo constPi = 0x401921FB54442D18#64 :=
  ieeeMul_two k 1023 0x1921FB54442D18 (by decide) (by decide)

/-- `2*Q`. -/
theorem ieeeMul_two_q (k : Nat) : ieeeMul k constTwo constQ = 0x3FF6A09E667F3BCC#64 :=
  ieeeMul_two k 1021 0x16A09E667F3BCC (by decide) (by decide)

/-! ### Finite values, NaNs, infinities and +0.0 -/

theorem isFinite64_of_isZero64 {a : F64} (h : isZero64 a = true) : isFinite64 a = true := by
  have hpat : pat64 a = 0 := of_decide_eq_true h
  rw [isFinite64_iff, hpat]
  decide

theorem isFinite64_eq_false_of_isNan64 {a : F64} (h : isNan64 a = true) : isFinite64 a = false :=
  decide_eq_false (of_decide_eq_true h : inf64 < pat64 a).not_gt

theorem isFinite64_pack64_inf64 (s : Bool) : isFinite64 (pack64 s inf64) = false := by
  rw [isFinite64, pat64_pack64 _ _ (by decide), decide_eq_false_iff_not]
  exact lt_irrefl _

/-- What is added to a finite value for a finite sum is finite. -/
theorem isFinite64_of_ieeeAdd {k : Nat} {a b : F64} (ha : isFinite64 a = true)
    (h : isFinite64 (ieeeAdd k a b) = true) : isFinite64 b = true := by
  cases hnan : isNan64 b with
  | true => rw [isFinite64_eq_false_of_isNan64 (ieeeAdd_nan_right a hnan)] at h; cases h
  | false =>
    cases hinf : isInf64 b with
    | true => simpa [ieeeAdd, isNan64_of_finite ha, isInf64_of_finite ha, hnan, hinf] using h
    | false => exact isFinite64_of_not hnan hinf

/-- A NaN has no finite quotient. -/
theorem isNan64_eq_false_of_ieeeDiv {k : Nat} {a b : F64} (h : isFinite64 (ieeeDiv k a b) = true) :
    isNan64 a = false := by
  cases hnan : isNan64 a with
  | true => rw [isFinite64_eq_false_of_isNan64 (ieeeDiv_nan_left b hnan)] at h; cases h
  | false => rfl

/-- A quotient by +0.0 is a NaN or an infinity. -/
theorem isFinite64_ieeeDiv_zero_right (k : Nat) (a : F64) : isFinite64 (ieeeDiv k a 0x0000000000000000#64) = false := by
  have hfree := isFinite64_eq_false_of_isNan64 (isNan64_freeNan64 k)
  have hnan : isNan64 0x0000000000000000#64 = false := by decide
  have hinf : isInf64 0x0000000000000000#64 = false := by decide
  have hzero : isZero64 0x0000000000000000#64 = true := by decide
  simp only [ieeeDiv, hnan, hinf, hzero]
  split
  · exact hfree
  · split
    · exact isFinite64_pack64_inf64 _
    · simp only [if_true, Bool.false_eq_true, if_false]
      split
      · exact hfree
      · exact isFinite64_pack64_inf64 _

theorem ieeeMul_finite (k : Nat) {a b : F64} (ha : isFinite64 a = true) (hb : isFinite64 b = true) :
    ieeeMul k a b = round64 (sign64 a != sign64 b) (mag64 a * mag64 b) unit64 := by
  simp [ieeeMul, isNan64_of_finite ha, isNan64_of_finite hb, isInf64_of_finite ha, isInf64_of_finite hb]

theorem ieeeAdd_finite (k : Nat) {a b : F64} (ha : isFinite64 a = true) (hb : isFinite64 b = true) :
    ieeeAdd k a b = round64 (if val64 a + val64 b = 0 then sign64 a && sign64 b else decide (val64 a + val64 b < 0))
      (val64 a + val64 b).natAbs 1 := by
  simp [ieeeAdd, isNan64_of_finite ha, isNan64_of_finite hb, isInf64_of_finite ha, isInf64_of_finite hb]

theorem round64_false_zero (d : Nat) : round64 false 0 d = 0x0000000000000000#64 := by
  have hpat : patternOf nearestEven 52 inf64 0 d = 0 := by simp [patternOf, nearestEven]
  rw [round64, hpat]
  rfl

/-- A finite value of positive sign times +0.0 is +0.0. -/
theorem ieeeMul_zero_right (k : Nat) {a : F64} (ha : isFinite64 a = true) (hs : sign64 a = false) :
    ieeeMul k a 0x0000000000000000#64 = 0x0000000000000000#64 := by
  have hmag : mag64 0x0000000000000000#64 = 0 := by decide
  rw [ieeeMul_finite k ha (by decide), hs, hmag, Nat.mul_zero]
  exact round64_false_zero _

/-- +0.0 by a finite value of positive sign that is not zero is +0.0. -/
theorem ieeeDiv_zero_left (k : Nat) {b : F64} (hb : isFinite64 b = true) (hs : sign64 b = false)
    (hz : isZero64 b = false) : ieeeDiv k 0x0000000000000000#64 b = 0x0000000000000000#64 := by
  have hmag : mag64 0x0000000000000000#64 = 0 := by decide
  rw [ieeeDiv_finite k (by decide) hb hz, hs, hmag, Nat.zero_mul]
  exact round64_false_zero _

/-- A finite value less itself is +0.0. -/
theorem ieeeSub_self (k : Nat) {a : F64} (ha : isFinite64 a = true) : ieeeSub k a a = 0x0000000000000000#64 := by
  rw [ieeeSub, ieeeAdd_finite k ha ((isFinite64_ieeeNeg a).trans ha), val64_ieeeNeg, sign64_ieeeNeg,
    Int.add_right_neg, if_pos rfl, Bool.and_not_self]
  exact round64_false_zero _

/-! ### The derived a0 (R210) -/

/-- A sum of a finite value and another that rounds to a zero is exactly zero: any other whole number of units is nearer
to one unit of its sign than to zero. -/
theorem isValue_neg_of_isZero64_ieeeAdd {k : Nat} {a b : F64} (ha : isFinite64 a = true)
    (h : isZero64 (ieeeAdd k a b) = true) : IsValue b (-val64 a) := by
  have hfin := isFinite64_of_isZero64 h
  have hb := isFinite64_of_ieeeAdd ha hfin
  refine ⟨hb, ?_⟩
  obtain ⟨-, -, -, hnear⟩ := ieeeAdd_rounded64 k ha hb
  have hup := (hnear hfin 0x0000000000000001#64 (by decide)).1
  have hdown := (hnear hfin 0x8000000000000001#64 (by decide)).1
  rw [val64_of_isZero64 h, show val64 0x0000000000000001#64 = 1 by decide] at hup
  rw [val64_of_isZero64 h, show val64 0x8000000000000001#64 = -1 by decide] at hdown
  omega

/-- Half of 1.0, in units. -/
def halfUnit64 : Nat := 2 ^ 1073

theorem halfUnit64_pos : 0 < halfUnit64 := by unfold halfUnit64; positivity

theorem unit64_eq_two_mul : unit64 = 2 * halfUnit64 := by
  rw [unit64, halfUnit64, two_pow_eq_mul (show 1074 = 1 + 1073 by decide), Nat.pow_one]

theorem isValue_minus_half : IsValue 0xBFE0000000000000#64 (-(halfUnit64 : Int)) :=
  (isValue_of_pat64 (a := 0x3FE0000000000000#64) 1021 (2 ^ 52) (two_pow_eq_mul (by decide)) (by decide)).neg

/-- `2*Q` is more than 4/3. -/
theorem exists_isValue_two_q : ∃ d : Nat, IsValue 0x3FF6A09E667F3BCC#64 d ∧ 8 * halfUnit64 < 3 * d := by
  refine ⟨_, isValue_of_pat64 1022 0x16A09E667F3BCC rfl (by decide), ?_⟩
  rw [halfUnit64, two_pow_eq_mul (show 1073 = 51 + 1022 by decide)]
  have := Nat.two_pow_pos 1022
  omega

/-- A quotient above -3/4 is nearer to -1/2 than to -1, all in units of `2 * h`. -/
theorem natAbs_half_lt {h d n : Int} (hh : 0 < h) (hd : 8 * h < 3 * d) (hn : -(2 * h * (2 * h)) ≤ n) :
    (-h * d - n).natAbs < (-(2 * h) * d - n).natAbs := by
  have hprod : 8 * (h * h) < 3 * (h * d) := by
    have := mul_lt_mul_of_pos_left hd hh
    linarith
  have hsq : 0 < h * h := mul_pos hh hh
  rw [show -h * d = -(h * d) by ring, show -(2 * h) * d = -2 * (h * d) by ring]
  rw [show 2 * h * (2 * h) = 4 * (h * h) by ring] at hn
  omega

/-- -1.0 is no rounded quotient of a sine by `2*Q`: -0.5 is nearer. -/
theorem not_isValue_ieeeDiv_two_q {k : Nat} {a : F64} (ha : isFinite64 a = true) (hle : (val64 a).natAbs ≤ unit64) :
    ¬ IsValue (ieeeDiv k a 0x3FF6A09E667F3BCC#64) (-(unit64 : Int)) := by
  rintro ⟨hfin, hval⟩
  obtain ⟨d, ⟨hdfin, hdval⟩, hd⟩ := exists_isValue_two_q
  obtain ⟨hhalf, hhalfval⟩ := isValue_minus_half
  have hpos := halfUnit64_pos
  have hz := isZero64_eq_false_of_isValue ⟨hdfin, hdval⟩ (by omega)
  obtain ⟨-, -, -, hnear⟩ := ieeeDiv_rounded64 k ha hdfin hz
  have hnear := (hnear hfin _ hhalf).1
  have hn : -(unit64 * unit64 : Int) ≤ val64 a * unit64 := by
    rw [← Int.neg_mul]
    exact Int.mul_le_mul_of_nonneg_right (by omega) (by omega)
  rw [hval, hhalfval, hdval, Int.sign_eq_one_of_pos (by omega), Int.mul_one, Int.natAbs_natCast] at hnear
  rw [unit64_eq_two_mul, Nat.cast_mul] at hnear hn
  exact hnear.not_gt (natAbs_half_lt (by omega) (by omega) hn)

/-- Settles O40: a zero sum of 1.0 and alpha asks for an alpha of -1.0, which no sine by `2*Q` rounds to. -/
theorem lowpassA0IsNeverZero : Obligations.LowpassA0IsNeverZero := by
  rintro l d ⟨k, w, alpha, -, halpha, -, -, ha0, -⟩ hz
  rw [ha0] at hz
  have hneg := isValue_neg_of_isZero64_ieeeAdd isValue_one.1 ((isZero64_iff _).mpr hz)
  rw [isValue_one.2, halpha] at hneg
  have hsin : isNan64 (sin64 w) = false := isNan64_eq_false_of_ieeeDiv hneg.1
  cases hw : isFinite64 w with
  | false => rw [sin64_nan hw] at hsin; cases hsin
  | true =>
    obtain ⟨hfin, hle⟩ := finite_sin64 hw
    exact not_isValue_ieeeDiv_two_q hfin hle hneg

/-! ### The derivation and `reinit_core` on LD_* (R200, R201, R203, R204) -/

/-- The draw of each operation of the derivation, in the order of `lowpassFrom`. -/
def lowpassDraw (k : Nat) : Nat → Nat
  | 0 => opDraw k 2
  | 1 => opDraw k 1
  | j + 2 => opDraw k (j + 4)

theorem lowpassFrom_lowpassDescr (k : Nat) (l : LpConfig) : lowpassFrom l (lowpassDescr ieee k l) := by
  refine ⟨lowpassDraw k, _, _, rfl, rfl, rfl, rfl, ?_⟩
  simp only [lowpassDescr, angularCutoff, ieee, ieeeMul_two_pi, ieeeMul_two_q]
  exact ⟨rfl, rfl, rfl, rfl, rfl, trivial⟩

/-- The checks of `reinit_core` on a derived descriptor: the a0 guard passes (R210). -/
theorem acceptable_lowpassDescr (k : Nat) (l : LpConfig) (maxCh : Nat) :
    acceptable (lowpassDescr ieee k l) maxCh ↔ knownFmt l.fmt ∧ l.ch.toNat ≤ maxCh :=
  ⟨fun ⟨hfmt, hch, _⟩ => ⟨hfmt, hch⟩,
    fun ⟨hfmt, hch⟩ => ⟨hfmt, hch, lowpassA0IsNeverZero l _ (lowpassFrom_lowpassDescr k l)⟩⟩

theorem reinitFromLd_of_fits {s : State} (hfmt : knownFmt s.ld.fmt) (hch : s.ld.ch.toNat ≤ s.maxChannels) :
    reinitFromLd ieee s = succeed (copyConfig (storeNormalised ieee (lowpassDescr ieee s.draws s.ld) s)) := by
  rcases reinitFromLd_cases ieee s with ⟨-, hs⟩ | ⟨hv, -⟩
  · exact hs
  · have hacc := (acceptable_lowpassDescr s.draws s.ld s.maxChannels).mpr ⟨hfmt, hch⟩
    exact absurd ((validDescr_iff_acceptable _ _).mpr hacc) (Bool.eq_false_iff.mp hv)

theorem reinitFromLd_of_not_fits {s : State} (h : ¬ (knownFmt s.ld.fmt ∧ s.ld.ch.toNat ≤ s.maxChannels)) :
    reinitFromLd ieee s = raiseInvalid s := by
  rcases reinitFromLd_cases ieee s with ⟨hv, -⟩ | ⟨-, hs⟩
  · exact absurd ((acceptable_lowpassDescr _ _ _).mp ((validDescr_iff_acceptable _ _).mp hv)) h
  · exact hs

theorem exec_lpfReinit_refs (s : State) : exec (.lpfReinit true true) s = .next (reinitFromLd ieee s) := rfl

/-- With both references given the clear comes first, then `reinit_core`. -/
theorem exec_lpfInit_refs (s : State) :
    exec (.lpfInit true true) s = .next (reinitFromLd ieee (clearedContext s)) := rfl

theorem zeroContext_eq_clearedContext (s : State) : zeroContext s = clearedContext s := rfl

theorem clearedContext_maxChannels (s : State) : (clearedContext s).maxChannels = s.maxChannels := by
  rw [← zeroContext_eq_clearedContext, zeroContext_maxChannels]

/-- Settles O37: the checks run on the zero-cleared state, whose configuration and MAX_CHANNELS are those of before. -/
theorem lpfInitMeaning : Obligations.LpfInitMeaning := by
  refine ⟨fun dv s => rfl, fun s => rfl, fun s h => ?_, fun s hfmt hch => ?_⟩
  · rw [exec_lpfInit_refs, reinitFromLd_of_not_fits (by rwa [clearedContext_maxChannels])]
    rfl
  · rw [exec_lpfInit_refs, reinitFromLd_of_fits (s := clearedContext s) hfmt (by rwa [clearedContext_maxChannels])]
    exact ⟨_, _, rfl, lowpassFrom_lowpassDescr _ _, normalisedFrom_normalised _ _, rfl⟩

theorem exec_lpfReinit_refused {iv dv : Bool} {s : State}
    (h : iv = false ∨ dv = false ∨ ¬ (knownFmt s.ld.fmt ∧ s.ld.ch.toNat ≤ s.maxChannels)) :
    exec (.lpfReinit iv dv) s = .next (raiseInvalid s) := by
  cases iv <;> cases dv
  case true.true => rw [exec_lpfReinit_refs, reinitFromLd_of_not_fits (by simpa using h)]
  all_goals rfl

/-- Settles O38: a refused REINIT only raises, any other only stores the derived descriptor normalised and copies the
configuration. -/
theorem lpfReinitMeaning : Obligations.LpfReinitMeaning := by
  refine ⟨fun _ _ _ h => exec_lpfReinit_refused h, fun s hfmt hch => ?_⟩
  rw [exec_lpfReinit_refs, reinitFromLd_of_fits hfmt hch]
  exact ⟨_, _, rfl, lowpassFrom_lowpassDescr _ _, normalisedFrom_normalised _ _, rfl⟩

/-! ### A zero cutoff and a zero sample rate (R208) -/

/-- Where the format and the channel count are in order, both initialisations succeed and store a derived descriptor
normalised. -/
theorem exec_lpf_of_fits {i : Instr} {s : State} (hi : i = .lpfInit true true ∨ i = .lpfReinit true true)
    (hfmt : knownFmt s.ld.fmt) (hch : s.ld.ch.toNat ≤ s.maxChannels) :
    ∃ t d, exec i s = .next t ∧ t.status = 0#32 ∧ lowpassFrom s.ld d ∧ normalisedFrom t.inst d := by
  obtain ⟨-, -, -, hinit⟩ := lpfInitMeaning
  obtain ⟨-, hreinit⟩ := lpfReinitMeaning
  rcases hi with rfl | rfl
  · obtain ⟨t, d, he, hd, hn, ht⟩ := hinit s hfmt hch
    exact ⟨t, d, he, ht ▸ rfl, hd, hn⟩
  · obtain ⟨t, d, he, hd, hn, ht⟩ := hreinit s hfmt hch
    exact ⟨t, d, he, ht ▸ rfl, hd, hn⟩

theorem ieeeU32ToF64_zero : ieeeU32ToF64 0#32 = 0x0000000000000000#64 := by
  rw [ieeeU32ToF64, BitVec.toNat_zero, Nat.zero_mul]
  exact round64_false_zero 1

/-- A zero sample rate makes every coefficient of the derivation a NaN. -/
theorem lowpassFrom_of_fs_zero {l : LpConfig} {d : BqDescr} (h : lowpassFrom l d) (hfs : l.fs = 0#32) :
    isNan64 d.a0 = true ∧ isNan64 d.a1 = true ∧ isNan64 d.a2 = true ∧
      isNan64 d.b0 = true ∧ isNan64 d.b1 = true ∧ isNan64 d.b2 = true := by
  simp only [lowpassFrom, ieee] at h
  obtain ⟨k, w, alpha, hw, halpha, -, -, ha0, ha1, ha2, hb1, hb0, hb2⟩ := h
  have hwfin : isFinite64 w = false := by
    rw [hw, hfs, ieeeU32ToF64_zero]
    exact isFinite64_ieeeDiv_zero_right _ _
  have hcos := cos64_nan hwfin
  have hnalpha : isNan64 alpha = true := halpha ▸ ieeeDiv_nan_left _ (sin64_nan hwfin)
  have hnb1 : isNan64 d.b1 = true := hb1 ▸ ieeeSub_nan_right _ hcos
  have hnb0 : isNan64 d.b0 = true := hb0 ▸ ieeeDiv_nan_left _ hnb1
  exact ⟨ha0 ▸ ieeeAdd_nan_right _ hnalpha, ha1 ▸ ieeeMul_nan_right _ hcos, ha2 ▸ ieeeSub_nan_right _ hnalpha,
    hnb0, hnb1, hb2 ▸ hnb0⟩

theorem isNan64_of_quotient {q a b : F64} (h : quotient q a b) (ha : isNan64 a = true) : isNan64 q = true := by
  obtain ⟨k, rfl⟩ := h
  exact ieeeDiv_nan_left b ha

/-- Settles O42: the NaNs of the derivation are NaNs after normalisation, and a NaN is no coefficient of the
identity. -/
theorem zeroSampleRateGivesNanCoefficients : Obligations.ZeroSampleRateGivesNanCoefficients := by
  intro i s hi hfmt hch hfs
  obtain ⟨t, d, he, hstatus, hd, -, -, hpt, ha0, ha1, ha2, hb0, hb1, hb2⟩ := exec_lpf_of_fits hi hfmt hch
  obtain ⟨hna0, hna1, hna2, hnb0, hnb1, hnb2⟩ := lowpassFrom_of_fs_zero hd hfs
  have hfilter : t.inst.pt = false := by
    refine Bool.eq_false_iff.mpr fun h => ?_
    obtain ⟨hone, -⟩ := hpt.mp h
    rw [hone] at hna0
    exact absurd hna0 (by decide)
  exact ⟨t, he, hstatus, hfilter, ha0 ▸ hna0, isNan64_of_quotient ha1 hna1, isNan64_of_quotient ha2 hna2,
    isNan64_of_quotient hb0 hnb0, isNan64_of_quotient hb1 hnb1, isNan64_of_quotient hb2 hnb2⟩

/-- A zero cutoff gives no angle, at every sample rate but zero. -/
theorem angle_of_fc_zero (k k' : Nat) {fs : Word} (hfs : fs ≠ 0#32) :
    ieeeDiv k (ieeeMul k' 0x401921FB54442D18#64 0x0000000000000000#64) (ieeeU32ToF64 fs) = 0x0000000000000000#64 := by
  have hval : IsValue (ieeeU32ToF64 fs) (fs.toNat * unit64) := ieeeU32ToF64_exact fs
  have hpos : 0 < fs.toNat * unit64 := by
    have : fs.toNat ≠ 0 := fun h => hfs (BitVec.eq_of_toNat_eq h)
    exact Nat.mul_pos (by omega) unit64_pos
  rw [ieeeMul_zero_right k' (by decide) (by decide)]
  exact ieeeDiv_zero_left k hval.1 (sign64_round64 ..) (isZero64_eq_false_of_isValue hval (by exact_mod_cast hpos.ne'))

theorem ieeeMul_minus_two_one (k : Nat) :
    ieeeMul k 0xC000000000000000#64 0x3FF0000000000000#64 = 0xC000000000000000#64 := by
  have htwo : IsValue 0xC000000000000000#64 (-(2 * unit64 : Nat)) := isValue_two.neg
  have hpos := unit64_pos
  exact htwo.mul_eq isValue_one htwo rfl (by omega) k

theorem ieeeAdd_one_zero (k : Nat) :
    ieeeAdd k 0x3FF0000000000000#64 0x0000000000000000#64 = 0x3FF0000000000000#64 :=
  (isValue_one.add_zero isValue_zero isValue_one.representable k).unique isValue_one unit64_ne_zero

theorem ieeeSub_one_zero (k : Nat) :
    ieeeSub k 0x3FF0000000000000#64 0x0000000000000000#64 = 0x3FF0000000000000#64 :=
  (isValue_one.sub_zero isValue_zero isValue_one.representable k).unique isValue_one unit64_ne_zero

/-- What a zero cutoff is to derive. -/
def zeroCutoffDescr (l : LpConfig) : BqDescr :=
  { fmt := l.fmt, ch := l.ch,
    a0 := 0x3FF0000000000000#64, a1 := 0xC000000000000000#64, a2 := 0x3FF0000000000000#64,
    b0 := 0x0000000000000000#64, b1 := 0x0000000000000000#64, b2 := 0x0000000000000000#64 }

/-- With an angle of +0.0 the sine is +0.0 and the cosine 1.0. -/
theorem eq_zeroCutoffDescr {l : LpConfig} {d : BqDescr} (h : lowpassFrom l d) (hfc : l.fc = 0#32)
    (hfs : l.fs ≠ 0#32) : d = zeroCutoffDescr l := by
  simp only [lowpassFrom, ieee] at h
  obtain ⟨k, w, alpha, hw, halpha, hfmt, hch, ha0, ha1, ha2, hb1, hb0, hb2⟩ := h
  rw [hfc, ieeeU32ToF64_zero, angle_of_fc_zero _ _ hfs] at hw
  rw [hw, sin64_zero, ieeeDiv_zero_left _ (by decide) (by decide) (by decide)] at halpha
  rw [halpha, ieeeAdd_one_zero] at ha0
  rw [hw, cos64_zero, ieeeMul_minus_two_one] at ha1
  rw [halpha, ieeeSub_one_zero] at ha2
  rw [hw, cos64_zero, ieeeSub_self _ (by decide)] at hb1
  rw [hb1, ieeeDiv_zero_left _ (by decide) (by decide) (by decide)] at hb0
  rw [hb0] at hb2
  cases d
  rw [zeroCutoffDescr, BqDescr.mk.injEq]
  exact ⟨hfmt, hch, ha0, ha1, ha2, hb0, hb1, hb2⟩

theorem eq_of_quotient_one {q a : F64} (h : quotient q a 0x3FF0000000000000#64) (ha : isNan64 a = false) : q = a := by
  obtain ⟨k, rfl⟩ := h
  exact quotientByOneIsExact k a ha

/-- Settles O41: the derived a0 is 1.0, by which the normalisation changes nothing, and b0 is not 1.0. -/
theorem zeroCutoffCoefficients : Obligations.ZeroCutoffCoefficients := by
  intro i s hi hfmt hch hfc hfs
  obtain ⟨t, d, he, hstatus, hd, hn⟩ := exec_lpf_of_fits hi hfmt hch
  refine ⟨t, he, hstatus, ?_⟩
  rw [eq_zeroCutoffDescr hd hfc hfs] at hn
  obtain ⟨hqfmt, hqch, hpt, ha0, ha1, ha2, hb0, hb1, hb2⟩ := hn
  have hfilter : t.inst.pt = false := Bool.eq_false_iff.mpr fun h => by
    obtain ⟨-, -, -, hone, -⟩ := hpt.mp h
    exact absurd hone (by decide : (0x0000000000000000#64 : F64) ≠ 0x3FF0000000000000#64)
  generalize t.inst = q at *
  cases q
  rw [BqRegs.mk.injEq]
  exact ⟨hqfmt, hqch, hfilter, ha0, eq_of_quotient_one ha1 (by decide), eq_of_quotient_one ha2 (by decide),
    eq_of_quotient_one hb0 (by decide), eq_of_quotient_one hb1 (by decide), eq_of_quotient_one hb2 (by decide)⟩

end Sys2Proof.Machine

/-! PROOFS. 60_exceptions.md R230, R231, R238: how a command ends. A command with a cause of R231 fails, `exec_of_cause`, and
any other succeeds, `exec_of_not_cause`; the statements are read off these two. The four initialisations take them from
their meanings, both PROCESS commands from the two outcomes of `processWith`. -/

namespace Sys2Proof.Machine

open Sys2Proof.Claims

/-! ### The causes, in the words of the meanings (R231) -/

theorem not_acceptable_iff {d : BqDescr} {maxCh : Nat} :
    ¬ acceptable d maxCh ↔ ¬ knownFmt d.fmt ∨ maxCh < d.ch.toNat ∨ isZero d.a0 := by
  simp only [acceptable, not_and_or, Nat.not_le, not_not]

theorem cause_bqInit_iff {s : State} {iv dv : Bool} :
    cause s (.bqInit iv dv) ↔ iv = false ∨ dv = false ∨ ¬ acceptable s.cd s.maxChannels := by
  rw [not_acceptable_iff]; rfl

theorem cause_bqReinit_iff {s : State} {iv dv : Bool} :
    cause s (.bqReinit iv dv) ↔ iv = false ∨ dv = false ∨ ¬ acceptable s.cd s.maxChannels := cause_bqInit_iff

theorem cause_lpfInit_iff {s : State} {iv dv : Bool} :
    cause s (.lpfInit iv dv) ↔ iv = false ∨ dv = false ∨ ¬ (knownFmt s.ld.fmt ∧ s.ld.ch.toNat ≤ s.maxChannels) := by
  rw [not_and_or, Nat.not_le]; rfl

theorem cause_lpfReinit_iff {s : State} {iv dv : Bool} :
    cause s (.lpfReinit iv dv) ↔ iv = false ∨ dv = false ∨ ¬ (knownFmt s.ld.fmt ∧ s.ld.ch.toNat ≤ s.maxChannels) :=
  cause_lpfInit_iff

/-- The causes of a PROCESS are a null operand and an instance not in use (R162, R163). -/
theorem cause_iff_of_processes {iv : Bool} {i : Instr} (hp : processes iv i) {s : State} :
    cause s i ↔ nullOperand iv s = true ∨ ¬ (s.inst.pt = true ∨ knownFmt s.inst.fmt) := by
  have hcause : cause s i ↔
      iv = false ∨ s.argOut = 0#64 ∨ s.argIn = 0#64 ∨ (s.inst.pt = false ∧ ¬ knownFmt s.inst.fmt) := by
    rcases hp with rfl | rfl <;> rfl
  rw [hcause]
  simp [nullOperand, or_assoc]

theorem processWith_of_refused {iv : Bool} {s : State}
    (h : nullOperand iv s = true ∨ ¬ (s.inst.pt = true ∨ knownFmt s.inst.fmt)) :
    processWith ieee iv s = raiseInvalid s := by
  rcases h with hnull | hunused
  · exact if_pos hnull
  · exact (processWith_cases_path iv s).resolve_right fun ⟨_, hready⟩ => hunused hready

/-! ### A command with a cause, and one without -/

theorem afterFailure_of_processes {iv : Bool} {i : Instr} (hp : processes iv i) (s : State) : afterFailure s i = s := by
  rcases hp with rfl | rfl <;> rfl

theorem exec_of_processes_cause {iv : Bool} {i : Instr} {s : State} (hp : processes iv i) (h : cause s i) :
    exec i s = .next (withResult 1#32 (afterFailure s i)) := by
  rw [exec_of_processes hp, processWith_of_refused ((cause_iff_of_processes hp).mp h), afterFailure_of_processes hp]
  rfl

theorem exec_of_processes_not_cause {iv : Bool} {i : Instr} {s : State} (hp : processes iv i) (h : ¬ cause s i) :
    exec i s = .next (succeed (onBuffers processPath s)) := by
  rw [cause_iff_of_processes hp, not_or, not_not, Bool.not_eq_true] at h
  obtain ⟨hnull, hready⟩ := h
  rw [exec_of_processes hp, processWith_of_ready hnull hready]

/-- A command with a cause fails, and has cleared what its family's INIT clears first. -/
theorem exec_of_cause {i : Instr} {s : State} (hi : isCommand i = true) (h : cause s i) :
    exec i s = .next (withResult 1#32 (afterFailure s i)) := by
  cases i with
  | bqInit iv dv =>
    obtain ⟨hiv, hdv, hdescr, -⟩ := bqInitMeaning
    rw [cause_bqInit_iff] at h
    match iv, dv with
    | false, dv => exact hiv dv s
    | true, false => exact hdv s
    | true, true => exact hdescr s (by simpa using h)
  | lpfInit iv dv =>
    obtain ⟨hiv, hdv, hdescr, -⟩ := lpfInitMeaning
    rw [cause_lpfInit_iff] at h
    match iv, dv with
    | false, dv => exact hiv dv s
    | true, false => exact hdv s
    | true, true => exact hdescr s (by simpa using h)
  | bqReinit iv dv => exact exec_bqReinit_refused (cause_bqReinit_iff.mp h)
  | lpfReinit iv dv => exact exec_lpfReinit_refused (cause_lpfReinit_iff.mp h)
  | bqProcess iv => exact exec_of_processes_cause (.inl rfl) h
  | lpfProcess iv => exact exec_of_processes_cause (.inr rfl) h
  | wr | rd | bqConfigure | lpfConfigure => cases hi

/-- With valid references and no cause in the descriptor an initialisation from `CD_*` succeeds. -/
theorem exec_bq_of_acceptable {i : Instr} {s : State} (hi : i = .bqInit true true ∨ i = .bqReinit true true)
    (h : acceptable s.cd s.maxChannels) : ∃ t, exec i s = .next t ∧ t.status = 0#32 := by
  obtain ⟨-, -, -, hinit⟩ := bqInitMeaning
  rcases hi with rfl | rfl
  · obtain ⟨t, he, -, ht⟩ := hinit s h
    exact ⟨t, he, congrArg State.status ht⟩
  · exact ⟨_, exec_bqReinit_acceptable h, rfl⟩

/-- A command without a cause succeeds. -/
theorem exec_of_not_cause {i : Instr} {s : State} (hi : isCommand i = true) (h : ¬ cause s i) :
    ∃ t, exec i s = .next t ∧ t.status = 0#32 := by
  cases i with
  | bqInit iv dv =>
    simp only [cause_bqInit_iff, not_or, Bool.not_eq_false, not_not] at h
    obtain ⟨rfl, rfl, hacc⟩ := h
    exact exec_bq_of_acceptable (.inl rfl) hacc
  | bqReinit iv dv =>
    simp only [cause_bqReinit_iff, not_or, Bool.not_eq_false, not_not] at h
    obtain ⟨rfl, rfl, hacc⟩ := h
    exact exec_bq_of_acceptable (.inr rfl) hacc
  | lpfInit iv dv =>
    simp only [cause_lpfInit_iff, not_or, Bool.not_eq_false, not_not] at h
    obtain ⟨rfl, rfl, hfmt, hch⟩ := h
    obtain ⟨t, -, he, hs, -⟩ := exec_lpf_of_fits (.inl rfl) hfmt hch
    exact ⟨t, he, hs⟩
  | lpfReinit iv dv =>
    simp only [cause_lpfReinit_iff, not_or, Bool.not_eq_false, not_not] at h
    obtain ⟨rfl, rfl, hfmt, hch⟩ := h
    obtain ⟨t, -, he, hs, -⟩ := exec_lpf_of_fits (.inr rfl) hfmt hch
    exact ⟨t, he, hs⟩
  | bqProcess iv => exact ⟨_, exec_of_processes_not_cause (.inl rfl) h, rfl⟩
  | lpfProcess iv => exact ⟨_, exec_of_processes_not_cause (.inr rfl) h, rfl⟩
  | wr | rd | bqConfigure | lpfConfigure => cases hi

/-- Settles O15: with a cause the result is INVALID_ARGUMENT, without one SUCCESS. -/
theorem everyCommandEndsWithResult : Obligations.EveryCommandEndsWithResult := by
  intro i s hi
  by_cases h : cause s i
  · exact ⟨_, exec_of_cause hi h, .inr rfl⟩
  · obtain ⟨t, he, hs⟩ := exec_of_not_cause hi h
    exact ⟨t, he, .inl hs⟩

/-! ### The accesses that are no command -/

theorem exec_access_keeps_status {i : Instr} (s : State) (hwf : i.wellFormed = true) (hi : isCommand i = false)
    (hcmd : ∀ d, i ≠ .wr 0x000#16 d) : ∃ t, exec i s = .next t ∧ t.status = s.status := by
  cases i with
  | wr off v =>
    have hoff : off ≠ 0x000#16 := by rintro rfl; exact hcmd v rfl
    exact ⟨_, Laws.execWr_register hwf hoff, writeOffset_status off v s⟩
  | rd off => exact ⟨_, Laws.execRd_issuable hwf, returnData_status _ s⟩
  | bqConfigure | lpfConfigure => exact ⟨_, rfl, rfl⟩
  | bqInit | bqReinit | bqProcess | lpfInit | lpfReinit | lpfProcess => cases hi

/-- Settles O16: the two results differ, so that each command's result tells whether it had a cause. -/
theorem failureCausesComplete : Obligations.FailureCausesComplete := by
  have hne : 0#32 ≠ 1#32 := by decide
  refine ⟨fun i s hi => ?_, fun d s hill => (illegalWordChangesOnlyStatus d).1 hill s,
    fun i s hwf hi hcmd => exec_access_keeps_status s hwf hi hcmd⟩
  by_cases h : cause s i
  · exact ⟨_, exec_of_cause hi h, iff_of_true rfl h, iff_of_false hne.symm (not_not_intro h), fun _ => rfl⟩
  · obtain ⟨t, he, hs⟩ := exec_of_not_cause hi h
    exact ⟨t, he, iff_of_false (hs.trans_ne hne) h, iff_of_true hs h, fun hc => absurd hc h⟩

/-! ### Buffers that the host must not grant (R238) -/

/-- Settles O31: where the buffers lie is no cause of R231, so that the result is SUCCESS wherever that is. -/
theorem unsupportedBuffersAreNoError : Obligations.UnsupportedBuffersAreNoError := by
  intro i s hp hout hin hready _
  have hcause : ¬ cause s i := by
    rw [cause_iff_of_processes hp, nullOperand_eq_false hout hin, not_or, not_not]
    exact ⟨Bool.false_ne_true, hready⟩
  exact ⟨_, exec_of_processes_not_cause hp hcause, rfl⟩

end Sys2Proof.Machine

/-! PROOFS. 70_reset_and_hazards.md R262 and R274: what a zero-cleared context does, and a NaN in a channel's history. The
first is read off the meanings of the commands, the second off the recurrence of each channel. -/

namespace Sys2Proof.Machine

open Sys2Proof.Claims

/-! ### A zero-cleared instance (R262) -/

/-- A zero-cleared instance is not in use: no passthrough flag, and format 0, which is none of the two. -/
theorem not_ready_of_cleared {s : State} (h : s = clearedInstance s) : ¬ (s.inst.pt = true ∨ knownFmt s.inst.fmt) := by
  have hinst : s.inst = BqRegs.zero := congrArg State.inst h
  simp [hinst, BqRegs.zero, knownFmt]

/-- Settles O24: clearing a cleared state changes nothing, so that INIT and REINIT run `reinit_core` on one state; the
format 0 is what makes the other commands fail. -/
theorem reinitOfClearedContextIsInit : Obligations.ReinitOfClearedContextIsInit := by
  refine ⟨fun s hs hacc => ?_, fun s hs hfmt hch => ?_, fun iv i s hp hs => ?_, fun s hs hfmt => ?_⟩
  · have hre := exec_bqReinit_acceptable hacc
    have hinit : exec (.bqInit true true) s = exec (.bqReinit true true) s := by
      rw [exec_bqInit_refs, exec_bqReinit_refs, ← hs]
    exact ⟨_, hre, hinit.trans hre, rfl⟩
  · obtain ⟨t, -, hre, hres, -⟩ := exec_lpf_of_fits (.inr rfl) hfmt hch
    have hinit : exec (.lpfInit true true) s = exec (.lpfReinit true true) s := by
      rw [exec_lpfInit_refs, exec_lpfReinit_refs, ← hs]
    exact ⟨t, hre, hinit.trans hre, hres⟩
  · rw [exec_of_processes hp, processWith_of_refused (.inr (not_ready_of_cleared hs))]
    rfl
  · have hcause : cause s (.bqInit true true) :=
      cause_bqInit_iff.mpr (.inr (.inr (not_acceptable_iff.mpr (.inl (by simp [hfmt, knownFmt])))))
    have hafter : afterFailure s (.bqInit true true) = s := hs.symm
    rw [exec_of_cause rfl hcause, hafter]

/-! ### A NaN in a channel's history (R274) -/

/-- A NaN in the most recent output or input of a channel. -/
def NanHistory (h : Chan) : Prop := isNan32 h.y1 = true ∨ isNan32 h.x1 = true

/-- The products by Y1 and by X1 are terms of the filter equation, and every sum with a NaN term is a NaN. -/
theorem isNan64_of_filterEquation {q : BqRegs} {h : Chan} {x0 y0 : F64} (he : filterEquation q h x0 y0)
    (hh : NanHistory h) : isNan64 y0 = true := by
  obtain ⟨_, _, _, _, ⟨_, rfl⟩, _, ⟨_, rfl⟩, _, _, rfl⟩ := he
  rcases hh with hy1 | hx1
  · exact ieeeSub_nan_left _ (ieeeSub_nan_right _ (ieeeMul_nan_right q.a1 (ieeeF32ToF64_nan hy1)))
  · exact ieeeSub_nan_left _ (ieeeSub_nan_left _ (ieeeAdd_nan_left _ (ieeeAdd_nan_right _
      (ieeeMul_nan_right q.b1 (ieeeF32ToF64_nan hx1)))))

/-- One step of the recurrence on a NaN in Y1 or X1 leaves one in Y1. -/
theorem isNan32_y1_of_step {q : BqRegs} {h h' : Chan} {x0 y0 : F64} (he : filterEquation q h x0 y0)
    (hshift : historyShift h x0 y0 h') (hh : NanHistory h) : isNan32 h'.y1 = true := by
  obtain ⟨-, -, -, _, hy1⟩ := hshift
  rw [hy1]
  exact ieeeF64ToF32_nan (isNan64_of_filterEquation he hh)

/-- Along a recurrence that starts with a NaN in Y1 or X1, Y1 is a NaN after every step. -/
theorem isNan32_y1_of_recurrence {q : BqRegs} {H : Nat → Chan} {x y : Nat → F64} {count : Nat} (h0 : NanHistory (H 0))
    (hstep : ∀ n, n < count → filterEquation q (H n) (x n) (y n) ∧ historyShift (H n) (x n) (y n) (H (n + 1))) :
    ∀ n, n < count → isNan32 (H (n + 1)).y1 = true := by
  intro n hn
  obtain ⟨he, hshift⟩ := hstep n hn
  induction n with
  | zero => exact isNan32_y1_of_step he hshift h0
  | succ n ih =>
    have hn' : n < count := Nat.lt_of_succ_lt hn
    obtain ⟨he', hshift'⟩ := hstep n hn'
    exact isNan32_y1_of_step he hshift (.inl (ih hn' he' hshift'))

theorem chan_of_getElem? {s : State} {c : Nat} {h : Chan} (hs : s.delay[c]? = some h) : s.chan c = h := by
  simp [State.chan, hs]

/-- Settles O35: each channel is one recurrence (O26), whose outputs are NaNs from the first frame on; in F32 memory holds
the very bits of Y1. -/
theorem nanIsSticky : Obligations.NanIsSticky := by
  intro i s c hp hinv hruns hpt hc hnan
  obtain ⟨t, he, -, H, x, y, hrec⟩ := filterIsOneRecurrencePerChannel i s hp hinv hruns hpt
  obtain ⟨hfirst, hlast, hframe⟩ := hrec c hc
  rw [chan_of_getElem? hfirst] at hnan
  have hy1 : ∀ n, n < s.argCount.toNat → isNan32 (H (n + 1) c).y1 = true :=
    isNan32_y1_of_recurrence (H := (H · c)) (x := (x · c)) (y := (y · c)) hnan fun n hn =>
      have ⟨_, heq, hshift, _⟩ := hframe n hn
      ⟨heq, hshift⟩
  refine ⟨t, he, fun n hn hfmt => ?_, fun hcount => ?_⟩
  · obtain ⟨-, -, -, ⟨-, hread⟩ | ⟨hfmt2, -⟩⟩ := hframe n hn
    · rw [hread]
      exact hy1 n hn
    · rw [hfmt] at hfmt2
      exact absurd hfmt2 (by decide)
  · have hne : s.argCount.toNat ≠ 0 := BitVec.toNat_ne.mp hcount
    obtain ⟨m, hm⟩ := Nat.exists_eq_succ_of_ne_zero hne
    rw [chan_of_getElem? hlast, hm]
    exact hy1 m (by omega)

end Sys2Proof.Machine
